-- ==== Sys2Proof/Word.lean ====
section
/-! DEFINITION. The word types of HTB-PQ and the one way a fixed table is written out. -/

namespace Sys2Proof

/-- A 32-bit register (R21) and every length, position, offset, count and frequency (R6, LEN_W). -/
abbrev Word := BitVec 32

/-- One byte, which is one symbol (R6, R14). -/
abbrev Byte := BitVec 8

/-- An index into NODE: 9 bits, 511 means "no node" (R33). -/
abbrev NodeIndex := BitVec 9

/-- A bit-string in stream order, leftmost bit first (R10). -/
abbrev Bits := List Bool

/-- The table of `n` entries whose entry `k` is `f k`. -/
def tabulate {α : Type} (n : Nat) (f : Nat → α) : Vector α n :=
  ⟨((List.range n).map f).toArray, by simp⟩

@[simp] theorem getElem_tabulate {α : Type} (n : Nat) (f : Nat → α) (k : Nat) (h : k < n) :
    (tabulate n f)[k] = f k := by
  simp [tabulate]

end Sys2Proof
end

