-- ==== Sys2Proof/Config.lean ====
section
/-! DEFINITION. What is fixed for one machine (R6), and the free values: the values the spec leaves open.

The capacities IBUF_BYTES and OBUF_BYTES are arguments of the model (R6, R16): the record `Capacities`, which stands in
State as the field `cfg`; no step changes it (log 3). -/

namespace Sys2Proof

/-- IBUF_BYTES and OBUF_BYTES, each any value from 0 to 2^32 - 1 (R6, U12). -/
structure Capacities where
  /-- IBUF_BYTES. -/
  ibufBytes : Word
  /-- OBUF_BYTES. -/
  obufBytes : Word
deriving DecidableEq, Repr

namespace Config

/-- ALPHABET (R6): the number of byte values. -/
def alphabet : Nat := 256

/-- CODE_MAX (R6): the longest code the block can store or serialize. -/
def codeMax : Nat := 16

/-- SYMCOUNT_MAX (R6): the largest legal symbol_count. -/
def symcountMax : Nat := 256

/-- PAD_MAX (R6). -/
def padMax : Nat := 7

/-- NODE_MAX (R6): 256 leaves plus 255 internal nodes. -/
def nodeMax : Nat := 511

/-- NODE_NULL (R6): the node index that means "no node". -/
def nodeNull : NodeIndex := 511

/-- TOKEN_BYTES (R6): the width of one token record. -/
def tokenBytes : Nat := 10

/-- WINDOW_DEFAULT (R6, R27): the reset value of WINDOW_SIZE. -/
def windowDefault : Word := 20

/-- Which unspecified quantity a free value stands for (93_implementation_defined.md U1 to U5). -/
inductive FreeItem
  /-- U1: an IBUF byte the host has not written since reset. -/
  | ibuf
  /-- U2: an OBUF byte at or above OUT_LEN. -/
  | obuf
  /-- U4: what a host read of anything but STATUS returns while BUSY. -/
  | busyRead
  /-- U3: a counter of FREQ after a failed command. -/
  | freq
  /-- U3: the registers of the code table, the tree and the codec after a failed command. -/
  | nsym | root | nnodes | pad | consumed | tokOffset | tokLength | tokLit | tokFlags | lzPos
  /-- U3: the fields of a CT entry after a failed command. -/
  | ctValid | ctLen | ctBits
  /-- U3, U5: the fields of a NODE entry after reset or a failed command. -/
  | nodeKind | nodeSym | nodeFrq | nodeLeft | nodeRight
  /-- The symbol an HBLOCK.COUNT record repeats when the table has not exactly one entry (log 11). -/
  | soleSymbol
deriving DecidableEq, Repr

/-- The free values: `freeBits w item draw index` is the `w`-bit value of the unspecified quantity `item` number `index`
in the draw `draw`. It has no body: nothing can be proved of it, so a statement holds whatever it is (log 4). -/
opaque freeBits (w : Nat) (item : FreeItem) (draw index : Nat) : BitVec w

end Config

end Sys2Proof
end

