-- ==== Sys2Proof/Syntax.lean ====
section
/-! DEFINITION. The syntax of HTB-PQ: the rows of spec/opcode_table.json (`Instr`), what the engine fetches (`Fetched`), and
the host's moves (`HostMove`). -/

namespace Sys2Proof

/-- One constructor per row of spec/opcode_table.json: the fifteen commands of R86, the three record formats of a Huffman
block (R91 to R93) and the six kinds of token record (R99). A command word has no operand fields (R85). A record constructor
holds every field of its format, the ignored literal byte `x` of a record without a literal too (R98). -/
inductive Instr
  /-- NOP, R254. -/
  | nop
  /-- CLR, R255. -/
  | clr
  /-- FREQ, R120. -/
  | freq
  /-- TBUILD, R134. -/
  | tbuild
  /-- DERIVE, R152. -/
  | derive
  /-- TSER, R156. -/
  | tser
  /-- TDES, R158. -/
  | tdes
  /-- HPACK, R176. -/
  | hpack
  /-- HWALK, R182. -/
  | hwalk
  /-- HCOMP, R186. -/
  | hcomp
  /-- HDECOMP, R190. -/
  | hdecomp
  /-- LZFIND, R215. -/
  | lzfind
  /-- LZREPLAY, R220. -/
  | lzreplay
  /-- LZCOMP, R225. -/
  | lzcomp
  /-- LZDECOMP, R228. -/
  | lzdecomp
  /-- HBLOCK.HEADER, R91: padding_count and symbol_count. -/
  | hblockHeader (padding : Byte) (count : BitVec 16)
  /-- HBLOCK.ENTRY, R92: symbol, code_length and code_bits. -/
  | hblockEntry (sym len : Byte) (bits : BitVec 16)
  /-- HBLOCK.COUNT, R93: the occurrence count of a one-entry block. -/
  | hblockCount (n : Word)
  /-- TOKEN.LIT, R99: offset 0, length 0, LITV 1. -/
  | tokenLit (lit : Byte)
  /-- TOKEN.MATCH, R99: offset and length at least 1, LITV 1. -/
  | tokenMatch (off len : Word) (lit : Byte)
  /-- TOKEN.MATCHEND, R99: offset and length at least 1, LITV 0. -/
  | tokenMatchend (off len : Word) (x : Byte)
  /-- TOKEN.NULL, R99: offset 0, length 0, LITV 0. -/
  | tokenNull (x : Byte)
  /-- TOKEN.INVALID_LEN_NO_OFFSET, R99: offset 0, length at least 1, LITV any. -/
  | tokenInvalidLenNoOffset (len : Word) (litv : Bool) (x : Byte)
  /-- TOKEN.INVALID_ZERO_LENGTH, R99: offset at least 1, length 0, LITV any. -/
  | tokenInvalidZeroLength (off : Word) (litv : Bool) (x : Byte)
deriving DecidableEq, Repr

/-- A record of a byte stream as one number, its first byte the most significant, which is how spec/opcode_table.json
numbers the bits of a record ("pattern is written first byte leftmost"). -/
inductive RecordWord
  /-- HUFF_HEADER24. -/
  | header (w : BitVec 24)
  /-- HUFF_ENTRY32. -/
  | entry (w : BitVec 32)
  /-- HUFF_COUNT32. -/
  | count (w : BitVec 32)
  /-- TOKEN80. -/
  | token (w : BitVec 80)
deriving DecidableEq, Repr

/-- What the engine fetches: the command word in CMD (R85), or a record of the stream a decode command consumes. -/
inductive Fetched
  /-- CMD32. -/
  | command (w : Word)
  /-- A record. -/
  | record (r : RecordWord)
deriving DecidableEq, Repr

/-- The host's moves: the seven operations of R75, reset (R300), and `wait`, the pseudo-instruction WAIT of R106: the host
makes no access while the engine is BUSY and then reads STATUS. -/
inductive HostMove
  /-- host_write_reg(n, v). -/
  | writeReg (n : Nat) (v : Word)
  /-- host_read_reg(n). -/
  | readReg (n : Nat)
  /-- host_write_ibuf(a, b). -/
  | writeIbuf (a : Nat) (b : Byte)
  /-- host_read_obuf(a). -/
  | readObuf (a : Nat)
  /-- host_read_freq(s). -/
  | readFreq (s : Nat)
  /-- host_read_node(k). -/
  | readNode (k : Nat)
  /-- host_read_ct(s). -/
  | readCt (s : Nat)
  /-- The reset move. -/
  | reset
  /-- WAIT. -/
  | wait
deriving DecidableEq, Repr

end Sys2Proof
end

