-- ==== Sys2Proof/WellFormed.lean ====
section
/-! DEFINITION. Which terms of the syntax name an instruction or a host operation of the hardware. -/

namespace Sys2Proof

/-- The "condition" column of a record row of spec/opcode_table.json (R99). A command has no operand (R85), and every value
of a Huffman record's fields is a record of that format, the reserved ones too: they make the block corrupt (R91, R92). -/
def Instr.wf : Instr → Bool
  | .nop | .clr | .freq | .tbuild | .derive | .tser | .tdes | .hpack | .hwalk | .hcomp | .hdecomp => true
  | .lzfind | .lzreplay | .lzcomp | .lzdecomp => true
  | .hblockHeader _ _ | .hblockEntry _ _ _ | .hblockCount _ => true
  | .tokenLit _ | .tokenNull _ => true
  | .tokenMatch off len _ => off != 0 && len != 0
  | .tokenMatchend off len _ => off != 0 && len != 0
  | .tokenInvalidLenNoOffset len _ _ => len != 0
  | .tokenInvalidZeroLength off _ _ => off != 0

/-- A host access that is an operation of this hardware, given the two capacities (R62, U6). -/
def HostMove.wf (cfg : Capacities) : HostMove → Bool
  | .writeReg n _ => decide (n < 16)
  | .readReg n => decide (n < 16)
  | .writeIbuf a _ => decide (a < cfg.ibufBytes.toNat)
  | .readObuf a => decide (a < cfg.obufBytes.toNat)
  | .readFreq s => decide (s < Config.alphabet)
  | .readNode k => decide (k < Config.nodeMax)
  | .readCt s => decide (s < Config.alphabet)
  | .reset => true
  | .wait => true

end Sys2Proof
end

