-- ==== Sys2Proof/Decode.lean ====
section
/-! DEFINITION. Decoding what the engine fetches, rejecting by name, and encoding it (R85 to R87, R90 to R101). -/

namespace Sys2Proof

/-- Why a fetched word names no instruction. -/
inductive Reject
  /-- Bits [31:8] of a command word are not all 0 (R87, R251). -/
  | reservedBits
  /-- OPCODE is not one of the fifteen (R87, R251). -/
  | badOpcode
  /-- A token record's flags byte has one of bits 7 to 1 set (R101). -/
  | tokenFlags
deriving DecidableEq, Repr

/-- The opcode map of R86: column "word" and the command it names. -/
def commandTable : List (Word × Instr) :=
  [(0x00000000, .nop), (0x00000001, .clr), (0x00000010, .freq), (0x00000011, .tbuild), (0x00000012, .derive),
   (0x00000013, .tser), (0x00000014, .tdes), (0x00000015, .hpack), (0x00000016, .hwalk), (0x00000018, .hcomp)] ++
  [(0x00000019, .hdecomp), (0x00000020, .lzfind), (0x00000021, .lzreplay), (0x00000028, .lzcomp),
   (0x00000029, .lzdecomp)]

/-- R251: the reserved bits are checked first, then the opcode. -/
def decodeCommand (w : Word) : Except Reject Instr :=
  if w.extractLsb' 8 24 ≠ 0 then .error .reservedBits
  else
    match commandTable.find? (fun row => row.1 == w) with
    | some row => .ok row.2
    | none => .error .badOpcode

/-- R98 to R101: the fields of a token record, and the kind its field values give. -/
def decodeToken (w : BitVec 80) : Except Reject Instr :=
  let off := w.extractLsb' 48 32
  let len := w.extractLsb' 16 32
  let litv := w.getLsbD 8
  let lit := w.extractLsb' 0 8
  if w.extractLsb' 9 7 ≠ 0 then .error .tokenFlags
  else if off = 0 then
    if len = 0 then .ok (if litv then .tokenLit lit else .tokenNull lit)
    else .ok (.tokenInvalidLenNoOffset len litv lit)
  else if len = 0 then .ok (.tokenInvalidZeroLength off litv lit)
  else .ok (if litv then .tokenMatch off len lit else .tokenMatchend off len lit)

/-- Decoding a record (R91 to R93, R98). -/
def decodeRecord : RecordWord → Except Reject Instr
  | .header w => .ok (.hblockHeader (w.extractLsb' 16 8) (w.extractLsb' 0 16))
  | .entry w => .ok (.hblockEntry (w.extractLsb' 24 8) (w.extractLsb' 16 8) (w.extractLsb' 0 16))
  | .count w => .ok (.hblockCount w)
  | .token w => decodeToken w

/-- Decoding, total on every word and every record. -/
def decode : Fetched → Except Reject Instr
  | .command w => decodeCommand w
  | .record r => decodeRecord r

/-- The flags byte of a token record: bit 0 is LITV, bits 7 to 1 are 0 (R98). -/
def flagsByte (litv : Bool) : Byte := if litv then 1 else 0

/-- The 80 bits of a token record, first byte most significant (R98). -/
def tokenWord (off len : Word) (litv : Bool) (lit : Byte) : BitVec 80 := off ++ len ++ flagsByte litv ++ lit

/-- The words of an instruction, from the opcode map of R86 and the record formats of R91 to R93 and R98. -/
def encode : Instr → Fetched
  | .nop => .command 0x00000000
  | .clr => .command 0x00000001
  | .freq => .command 0x00000010
  | .tbuild => .command 0x00000011
  | .derive => .command 0x00000012
  | .tser => .command 0x00000013
  | .tdes => .command 0x00000014
  | .hpack => .command 0x00000015
  | .hwalk => .command 0x00000016
  | .hcomp => .command 0x00000018
  | .hdecomp => .command 0x00000019
  | .lzfind => .command 0x00000020
  | .lzreplay => .command 0x00000021
  | .lzcomp => .command 0x00000028
  | .lzdecomp => .command 0x00000029
  | .hblockHeader padding count => .record (.header (padding ++ count))
  | .hblockEntry sym len bits => .record (.entry (sym ++ len ++ bits))
  | .hblockCount n => .record (.count n)
  | .tokenLit lit => .record (.token (tokenWord 0 0 true lit))
  | .tokenMatch off len lit => .record (.token (tokenWord off len true lit))
  | .tokenMatchend off len x => .record (.token (tokenWord off len false x))
  | .tokenNull x => .record (.token (tokenWord 0 0 false x))
  | .tokenInvalidLenNoOffset len litv x => .record (.token (tokenWord 0 len litv x))
  | .tokenInvalidZeroLength off litv x => .record (.token (tokenWord off 0 litv x))

/-- What a table word of `nbits` bits is: 32 bits are a command word, 24 bits a block header, 80 bits a token record. The
32-bit records HBLOCK.ENTRY and HBLOCK.COUNT share their width with the command word and are fetched as `Fetched.record`
only (log 12). -/
def fetchedOfTable (nbits w : Nat) : Option Fetched :=
  if nbits = 32 then some (.command (BitVec.ofNat 32 w))
  else if nbits = 24 then some (.record (.header (BitVec.ofNat 24 w)))
  else if nbits = 80 then some (.record (.token (BitVec.ofNat 80 w)))
  else none

/-- The instruction the decoder reads from a row's word (numbered as spec/opcode_table.json numbers its bits). -/
def decodeTableWord (nbits w : Nat) : Option Instr :=
  match fetchedOfTable nbits w with
  | some f => (decode f).toOption
  | none => none

end Sys2Proof
end

