-- ==== Sys2Proof/Machine/State.lean ====
section
/-! DEFINITION. The state of one HTB-PQ instance (R20), its reset value (R42, R300), and the reasons a step can stop. -/

namespace Sys2Proof.Machine

/-- STATUS.STATE (R24). -/
inductive EngineState
  /-- 0: after reset or CLR, no result present. -/
  | idle
  /-- 1: a command is executing. -/
  | busy
  /-- 2: the last command completed without error. -/
  | done
  /-- 3: the last command raised an error. -/
  | error
deriving DecidableEq, Repr

/-- ERR (R25): CODE in bits [7:0], SUB in bits [15:8], the rest reads 0. -/
structure ErrReg where
  /-- ERR.CODE. -/
  code : Byte
  /-- ERR.SUB. -/
  sub : Byte
deriving DecidableEq, Repr

/-- KIND of a NODE entry (R33). -/
inductive NodeKind
  /-- 0. -/
  | leaf
  /-- 1. -/
  | internal
deriving DecidableEq, Repr

/-- A NODE entry (R33). -/
structure Node where
  /-- KIND. -/
  kind : NodeKind
  /-- SYM: the symbol of a Leaf, 0 in an Internal node. -/
  sym : Byte
  /-- FRQ. -/
  frq : Word
  /-- LEFT: the left child, 511 in a Leaf. -/
  left : NodeIndex
  /-- RIGHT: the right child, 511 in a Leaf. -/
  right : NodeIndex
deriving DecidableEq, Repr

/-- A CT entry (R35). -/
structure CtEntry where
  /-- VALID. -/
  valid : Bool
  /-- LEN. -/
  len : BitVec 5
  /-- BITS: the code right-aligned. -/
  bits : BitVec 16
deriving DecidableEq, Repr

/-- CT (R35). -/
abbrev CodeTable := Vector CtEntry 256

/-- FREQ (R32). -/
abbrev FreqTable := Vector Word 256

/-- NODE (R33). -/
abbrev NodeStore := Vector Node 511

/-- ACC, the bit accumulator (R36). -/
structure Acc where
  /-- ACC.VAL. -/
  val : BitVec 23
  /-- ACC.CNT. -/
  cnt : BitVec 5
deriving DecidableEq, Repr

/-- WALK, the state of the tree-walker (R37). -/
structure Walk where
  /-- WALK.PATH. -/
  path : BitVec 16
  /-- WALK.LEN. -/
  len : BitVec 5
deriving DecidableEq, Repr

/-- A byte array: the bytes written, by address, strictly rising. An unlisted address reads as no value at this level; the
accessors of Machine/Ops.lean put the free value of logs 5 and 6 there. -/
abbrev Memory := List Host.Cell

/-- What a host read returns. -/
inductive ReadValue
  /-- A register or a counter of FREQ. -/
  | word (v : Word)
  /-- A byte of OBUF. -/
  | byte (b : Byte)
  /-- An entry of NODE. -/
  | node (n : Node)
  /-- An entry of CT. -/
  | code (e : CtEntry)
deriving DecidableEq, Repr

/-- The machine. The first part is R20's complete list; the second part is the model's own. -/
structure State where
  /-- Register 0, CMD (R23). -/
  cmd : Word
  /-- Register 1, STATUS.STATE (R24). -/
  status : EngineState
  /-- Register 2, ERR (R25). -/
  err : ErrReg
  /-- Register 3, IN_LEN (R26). -/
  inLen : Word
  /-- Register 4, OUT_LEN (R26). -/
  outLen : Word
  /-- Register 5, WINDOW_SIZE (R27). -/
  windowSize : Word
  /-- Register 6, LZ_POS (R28). -/
  lzPos : Word
  /-- Register 7, TOK_OFFSET (R29). -/
  tokOffset : Word
  /-- Register 8, TOK_LENGTH (R29). -/
  tokLength : Word
  /-- Register 9, TOK_LIT.LIT (R29). -/
  tokLit : Byte
  /-- Register 10, TOK_FLAGS.LITV (R29). -/
  tokLitv : Bool
  /-- Register 11, PAD.PADCNT (R30). -/
  pad : BitVec 3
  /-- Register 12, NSYM (R31). -/
  nsym : BitVec 9
  /-- Register 13, ROOT (R31). -/
  root : NodeIndex
  /-- Register 14, NNODES (R31). -/
  nnodes : BitVec 10
  /-- Register 15, CONSUMED (R31). -/
  consumed : Word
  /-- FREQ (R32). -/
  freq : FreqTable
  /-- NODE (R33). -/
  node : NodeStore
  /-- PQ (R34): the node indices it holds. -/
  pq : List Nat
  /-- CT (R35). -/
  ct : CodeTable
  /-- ACC (R36). -/
  acc : Acc
  /-- WALK (R37). -/
  walk : Walk
  /-- IBUF (R38): the bytes the host has written since reset. -/
  ibuf : Memory
  /-- OBUF (R39): its defined bytes. -/
  obuf : Memory
  /-- The model's own: the capacities (R6, R16, log 3). -/
  cfg : Capacities
  /-- The model's own: the record the engine's record decoder holds, if the next engine step consumes one (log 10). -/
  record : Option RecordWord
  /-- The model's own: the host's pending moves, first one first (log 1). -/
  host : List HostMove
  /-- The model's own: what the host's last read returned (log 1). -/
  lastRead : Option ReadValue
  /-- The model's own: the next draw of free values (log 4). -/
  draws : Nat
  /-- The model's own: the draw that IBUF's unwritten bytes belong to (log 5). -/
  ibufEra : Nat
  /-- The model's own: the draw that OBUF's undefined bytes belong to (log 6). -/
  obufEra : Nat
deriving DecidableEq, Repr

/-- No step of this machine faults: every error the spec describes is recorded in ERR and STATUS (R270) and every command
completes (R256), so there is no constructor. -/
inductive Fault
deriving DecidableEq, Repr

/-- Why a step has no meaning. -/
inductive Refusal
  /-- Raised by an arm of exec whose instruction has no meaning yet; none is left. Safe. -/
  | notModelled (mnemonic : String)
  /-- Raised by a host access to a register number above 15 (R62, U6). Safe: the access is no operation of the hardware. -/
  | registerNumber
  /-- Raised by a host access to an IBUF or OBUF address at or above the buffer's size (R62, U6). Safe, for the same reason. -/
  | bufferAddress
  /-- Raised by a host read of a table index out of range (R62, U6). Safe, for the same reason. -/
  | tableIndex
  /-- Raised by host_read_node(k) with k at or above NNODES (R33, U5). Safe, for the same reason. -/
  | nodeNotInUse
deriving DecidableEq, Repr

/-- An entry of CT with VALID = 0 has LEN = 0 and BITS = 0 (R35). -/
def CtEntry.invalid : CtEntry := ⟨false, 0, 0⟩

/-- The code table with no valid entry. -/
def CodeTable.empty : CodeTable := Vector.replicate 256 CtEntry.invalid

/-- FREQ with every counter 0. -/
def FreqTable.zero : FreqTable := Vector.replicate 256 0

/-- A NODE entry that holds unspecified values (R33, U5). -/
def freeNode (draw k : Nat) : Node where
  kind := if Config.freeBits 1 .nodeKind draw k = 0 then .leaf else .internal
  sym := Config.freeBits 8 .nodeSym draw k
  frq := Config.freeBits 32 .nodeFrq draw k
  left := Config.freeBits 9 .nodeLeft draw k
  right := Config.freeBits 9 .nodeRight draw k

/-- NODE with every entry unspecified (R42). -/
def freeNodes (draw : Nat) : NodeStore := tabulate 511 (freeNode draw)

/-- The state right after reset (R42, R300). The model's own fields are DESIGN CHOICE (logs 1, 3, 4, 5, 6, 10). -/
def State.reset : State where
  cmd := 0
  status := .idle
  err := ⟨0, 0⟩
  inLen := 0
  outLen := 0
  windowSize := Config.windowDefault
  lzPos := 0
  tokOffset := 0
  tokLength := 0
  tokLit := 0
  tokLitv := false
  pad := 0
  nsym := 0
  root := Config.nodeNull
  nnodes := 0
  consumed := 0
  freq := FreqTable.zero
  node := freeNodes 0
  pq := []
  ct := CodeTable.empty
  acc := ⟨0, 0⟩
  walk := ⟨0, 0⟩
  ibuf := []
  obuf := []
  cfg := ⟨0xFFFFFFFF, 0xFFFFFFFF⟩
  record := none
  host := []
  lastRead := none
  draws := 1
  ibufEra := 0
  obufEra := 0

end Sys2Proof.Machine
end

