-- ==== Sys2Proof/Machine/Flags.lean ====
section
/-! DEFINITION. The status the hardware has: STATUS.STATE is its only flag (R24), ERR holds the outcome class (R25, R265, R266). -/

namespace Sys2Proof.Machine

/-- STATUS.STATE as a number (R24). -/
def EngineState.number : EngineState → Word
  | .idle => 0
  | .busy => 1
  | .done => 2
  | .error => 3

/-- The rows of R266: every error with its sub-cause. -/
inductive ErrorCause
  | hdrTrunc | padRange | countRange | tableTrunc | lenRange | bitsPad | dupSymbol | notPrefixFree
  | countField | padExceeds | deadPath | midPath | tokenTrunc | tokenFlags
  | lenNoOffset | zeroLength | offsetRange
  | nullRoot | missingCode
  | codeTooLong
  | outFull
  | badOpcode | reservedBits | paramInLen
deriving DecidableEq, Repr

/-- ERR.CODE of an error (R265): 1 CORRUPT_DATA, 2 INVALID_TOKEN, 3 INVALID_TREE, 4 CODE_TOO_LONG, 5 CAPACITY,
6 ILLEGAL_COMMAND. -/
def ErrorCause.code : ErrorCause → Byte
  | .hdrTrunc | .padRange | .countRange | .tableTrunc | .lenRange | .bitsPad | .dupSymbol | .notPrefixFree => 1
  | .countField | .padExceeds | .deadPath | .midPath | .tokenTrunc | .tokenFlags => 1
  | .lenNoOffset | .zeroLength | .offsetRange => 2
  | .nullRoot | .missingCode => 3
  | .codeTooLong => 4
  | .outFull => 5
  | .badOpcode | .reservedBits | .paramInLen => 6

/-- ERR.SUB of an error (R266). -/
def ErrorCause.sub : ErrorCause → Byte
  | .hdrTrunc => 1
  | .padRange => 2
  | .countRange => 3
  | .tableTrunc => 4
  | .lenRange => 5
  | .bitsPad => 6
  | .dupSymbol => 7
  | .notPrefixFree => 8
  | .countField => 9
  | .padExceeds => 10
  | .deadPath => 11
  | .midPath => 12
  | .tokenTrunc => 13
  | .tokenFlags => 14
  | .lenNoOffset => 1
  | .zeroLength => 2
  | .offsetRange => 3
  | .nullRoot => 1
  | .missingCode => 2
  | .codeTooLong => 0
  | .outFull => 1
  | .badOpcode => 1
  | .reservedBits => 2
  | .paramInLen => 3

/-- What ERR holds for an error (R266). -/
def ErrorCause.reg (e : ErrorCause) : ErrReg := ⟨e.code, e.sub⟩

/-- ERR after a normal completion (R25, R253). -/
def ErrReg.none : ErrReg := ⟨0, 0⟩

/-- ERR as the host reads it: SUB * 256 + CODE (R266). -/
def ErrReg.number (e : ErrReg) : Word := (0 : BitVec 16) ++ e.sub ++ e.code

/-- The error classes whose entry writes nothing but ERR, OUT_LEN and STATE (R270, last sentence). -/
def ErrorCause.isIllegalCommand (e : ErrorCause) : Bool := e.code == 6

/-- ILLEGAL_COMMAND's sub-cause for a word the decoder rejects (R251); a token record's reserved flag bit is CORRUPT_DATA
(R101). -/
def rejectCause : Reject → ErrorCause
  | .reservedBits => .reservedBits
  | .badOpcode => .badOpcode
  | .tokenFlags => .tokenFlags

end Sys2Proof.Machine
end

