-- ==== Sys2Proof/Machine/Operands.lean ====
section
/-! DEFINITION. The operand forms: byte sequences and their big-endian fields (R11, R63 to R68), bit-strings (R10, R66, R179),
the codes a table holds (R35, R92), and tokens (R210, R217). -/

namespace Sys2Proof.Machine

/-- `B[a]` (R11). Every use stands behind a check that `a` is below the length. -/
def byteAt (B : List Byte) (a : Nat) : Byte := B.getD a 0

/-- `BE16(B, a)` (R11). -/
def readBe16 (B : List Byte) (a : Nat) : BitVec 16 := byteAt B a ++ byteAt B (a + 1)

/-- `BE32(B, a)` (R11). -/
def readBe32 (B : List Byte) (a : Nat) : Word := readBe16 B a ++ readBe16 B (a + 2)

/-- `be16(v)` (R11). -/
def be16 (v : BitVec 16) : List Byte := [v.extractLsb' 8 8, v.extractLsb' 0 8]

/-- `be32(v)` (R11). -/
def be32 (v : Word) : List Byte := be16 (v.extractLsb' 16 16) ++ be16 (v.extractLsb' 0 16)

/-- `val(c)` (R10): the number whose binary numeral is `c`. -/
def bitsVal (c : Bits) : Nat := c.foldl (fun n b => 2 * n + b.toNat) 0

/-- `str(v, n)` (R10): the `n`-bit string of `v`. -/
def bitsOf (v n : Nat) : Bits := (List.range n).map fun k => v.testBit (n - 1 - k)

/-- `bits(P, pad)` (R179): the payload's bits in stream order (R66), less the last `pad`. -/
def payloadBits (P : List Byte) (pad : Nat) : Bits :=
  (List.range (8 * P.length - pad)).map fun k => (byteAt P (k / 8)).getLsbD (7 - k % 8)

/-- `P[m] = val(S'[8m .. 8m+8))` (R175): `n` bytes taken from a bit-string eight bits at a time. -/
def bytesOfBits : Nat → Bits → List Byte
  | 0, _ => []
  | n + 1, S => BitVec.ofNat 8 (bitsVal (S.take 8)) :: bytesOfBits n (S.drop 8)

/-- The code of an entry: `str(BITS, LEN)` (R35). -/
def CtEntry.code (e : CtEntry) : Bits := bitsOf e.bits.toNat e.len.toNat

/-- The entry that holds code `c`: LEN = |c|, BITS = val(c) (R35, R152). -/
def CtEntry.ofCode (c : Bits) : CtEntry := ⟨true, BitVec.ofNat 5 c.length, BitVec.ofNat 16 (bitsVal c)⟩

/-- The entry that holds the length and bits of a table entry (R157). -/
def CtEntry.ofFields (len : Byte) (bits : BitVec 16) : CtEntry := ⟨true, len.setWidth 5, bits⟩

/-- `CT[s]`. -/
def CodeTable.at (T : CodeTable) (s : Byte) : CtEntry := T[s.toNat]'s.isLt

/-- `T[s] <- e`. -/
def CodeTable.put (T : CodeTable) (s : Byte) (e : CtEntry) : CodeTable := T.set s.toNat e s.isLt

/-- The valid entries in ascending order of symbol (R96, R156). -/
def CodeTable.entries (T : CodeTable) : List (Byte × CtEntry) :=
  T.toList.zipIdx.filterMap fun (e, s) => if e.valid then some (BitVec.ofNat 8 s, e) else none

/-- The number of valid entries (R31). -/
def CodeTable.count (T : CodeTable) : Nat := T.entries.length

/-- Whether the code of `a` is a prefix of, or equal to, the code of `b`, in numbers (R157). -/
def CtEntry.isPrefix (a b : CtEntry) : Bool :=
  decide (a.len ≤ b.len) && b.bits >>> (b.len.toNat - a.len.toNat) == a.bits

/-- `prefix_free(T)` (R157). -/
def CodeTable.prefixFree (T : CodeTable) : Bool :=
  T.entries.all fun a => T.entries.all fun b => a.1 == b.1 || !(a.2.isPrefix b.2)

/-- `FREQ[s]`. -/
def FreqTable.at (F : FreqTable) (s : Byte) : Word := F[s.toNat]'s.isLt

/-- Whether some symbol is present (R122). -/
def FreqTable.anyPresent (F : FreqTable) : Bool := F.toList.any fun c => decide (0 < c.toNat)

/-- `NODE[k]`; index 511 names no entry, and a read there, which no well-formed tree makes, gives a free value (log 14). -/
def NodeStore.at (N : NodeStore) (k : NodeIndex) : Node :=
  if h : k.toNat < 511 then N[k.toNat] else freeNode 0 k.toNat

/-- A token (R210). -/
structure Token where
  /-- off. -/
  offset : Word
  /-- len. -/
  length : Word
  /-- lit. -/
  lit : Byte
  /-- litv. -/
  litv : Bool
deriving DecidableEq, Repr

/-- The NULL token (R99, R215). -/
def Token.null : Token := ⟨0, 0, 0, false⟩

/-- `tok_ser` (R217). -/
def Token.ser (t : Token) : List Byte :=
  be32 t.offset ++ be32 t.length ++ [flagsByte t.litv, if t.litv then t.lit else 0]

/-- `tok_parse` of a 10-byte record (R217). -/
def Token.parse (K : List Byte) : Except ErrorCause Token :=
  if byteAt K 8 &&& 0xFE ≠ 0 then .error .tokenFlags
  else
    let litv := byteAt K 8 == 1
    .ok ⟨readBe32 K 0, readBe32 K 4, if litv then byteAt K 9 else 0, litv⟩

/-- The bytes of a token record as one number, the first byte most significant. -/
def tokenWordOf (K : List Byte) : BitVec 80 :=
  readBe32 K 0 ++ readBe32 K 4 ++ readBe16 K 8

end Sys2Proof.Machine
end

