-- ==== Sys2Proof/Machine/Ops.lean ====
section
/-! DEFINITION. The named operations over buffers and registers, completion, taking an error (R270) and the return from it (R255). -/

namespace Sys2Proof.Machine

/-- The result of one step. -/
abbrev Result := Host.Outcome State Fault Refusal

/-! ### Byte arrays -/

/-- The byte listed at address `a`. -/
def Memory.lookup : Memory → Nat → Option Byte
  | [], _ => none
  | (k, b) :: m, a => if k = a then some b else Memory.lookup m a

/-- Writing one byte keeps the addresses strictly rising. -/
def Memory.write : Memory → Nat → Byte → Memory
  | [], a, b => [(a, b)]
  | (k, c) :: m, a, b =>
    if a < k then (a, b) :: (k, c) :: m
    else if a = k then (a, b) :: m
    else (k, c) :: Memory.write m a b

/-- The array that lists the bytes `B` from address `a` upward. -/
def Memory.ofBytes (a : Nat) : List Byte → Memory
  | [] => []
  | b :: B => (a, b) :: Memory.ofBytes (a + 1) B

/-- The canonical form: addresses strictly rising. An unlisted address reads as no value, which no entry equals. -/
abbrev Memory.wf (m : Memory) : Prop := m.Pairwise fun x y => x.1 < y.1

/-- `IBUF[a]`: what the host wrote there, or the fixed unspecified byte of this reset (R38, U1, log 5). -/
def State.ibufAt (s : State) (a : Nat) : Byte :=
  (Memory.lookup s.ibuf a).getD (Config.freeBits 8 .ibuf s.ibufEra a)

/-- `OBUF[a]`: a defined byte, or an unspecified one (R39, U2, log 6). -/
def State.obufAt (s : State) (a : Nat) : Byte :=
  (Memory.lookup s.obuf a).getD (Config.freeBits 8 .obuf s.obufEra a)

/-- `IBUF[0..IN_LEN)` (R26, R61). -/
def State.input (s : State) : List Byte := (List.range s.inLen.toNat).map s.ibufAt

/-- `OBUF[0..OUT_LEN)` (R26). -/
def State.output (s : State) : List Byte := (List.range s.outLen.toNat).map s.obufAt

/-- OBUF_BYTES. -/
def State.obufBytes (s : State) : Nat := s.cfg.obufBytes.toNat

/-- IBUF_BYTES. -/
def State.ibufBytes (s : State) : Nat := s.cfg.ibufBytes.toNat

/-- The input check every command that reads IBUF makes first, and the bytes it reads (R252). -/
def State.requireInput (s : State) : Except ErrorCause (List Byte) :=
  if s.inLen.toNat ≤ s.ibufBytes then .ok s.input else .error .paramInLen

/-- `OBUF[0 .. |out|) <- out; OUT_LEN <- |out|`. The bytes above may be replaced by arbitrary ones (U2). -/
def State.setOutput (s : State) (out : List Byte) : State :=
  { s with
    obuf := Memory.ofBytes 0 out
    outLen := BitVec.ofNat 32 out.length
    obufEra := s.draws
    draws := s.draws + 1 }

/-- `emit(b)` (R276) on the output so far. -/
def emit (cap : Nat) (out : List Byte) (b : Byte) : Except ErrorCause (List Byte) :=
  if out.length = cap then .error .outFull else .ok (out ++ [b])

/-- `emit` of each byte in turn. -/
def emitAll (cap : Nat) : List Byte → List Byte → Except ErrorCause (List Byte)
  | out, [] => .ok out
  | out, b :: bs => do
    let out' ← emit cap out b
    emitAll cap out' bs

/-- The token in the token registers (R29, R210). -/
def State.token (s : State) : Token := ⟨s.tokOffset, s.tokLength, s.tokLit, s.tokLitv⟩

/-- `(TOK_OFFSET, TOK_LENGTH, TOK_LIT, TOK_FLAGS) <- t`. -/
def State.setToken (s : State) (t : Token) : State :=
  { s with tokOffset := t.offset, tokLength := t.length, tokLit := t.lit, tokLitv := t.litv }

/-- `for s in 0 .. 255: CT[s] <- (VALID = 0, LEN = 0, BITS = 0); NSYM <- 0`. -/
def State.clearCodeTable (s : State) : State := { s with ct := CodeTable.empty, nsym := 0 }

/-- `CT <- T; NSYM <- n`. -/
def State.setCodeTable (s : State) (T : CodeTable) (n : Nat) : State := { s with ct := T, nsym := BitVec.ofNat 9 n }

/-! ### Completion, error entry, return -/

/-- Normal completion (R253): ERR <- 0, STATUS.STATE <- DONE. -/
def State.complete (s : State) : State := { s with err := ErrReg.none, status := .done }

/-- The registers and arrays a command's rule lists under "Writes", besides OBUF and OUT_LEN (R41). -/
structure Writes where
  /-- FREQ. -/
  freq : Bool := false
  /-- NODE, ROOT and NNODES. -/
  tree : Bool := false
  /-- CT and NSYM. -/
  codeTable : Bool := false
  /-- PAD. -/
  pad : Bool := false
  /-- CONSUMED. -/
  consumed : Bool := false
  /-- The token registers. -/
  token : Bool := false
  /-- LZ_POS. -/
  lzPos : Bool := false
deriving DecidableEq, Repr

/-- No destination but OBUF and OUT_LEN. -/
def Writes.none : Writes := {}

/-- FREQ with every counter unspecified (U3). -/
def freeFreq (draw : Nat) : FreqTable := tabulate 256 fun s => Config.freeBits 32 .freq draw s

/-- CT with every entry unspecified, each field within its legal range: LEN from 0 to 16 (R35, U3, log 8). -/
def freeCodeTable (draw : Nat) : CodeTable := tabulate 256 fun s =>
  { valid := Config.freeBits 1 .ctValid draw s = 1
    len := BitVec.ofNat 5 ((Config.freeBits 8 .ctLen draw s).toNat % 17)
    bits := Config.freeBits 16 .ctBits draw s }

/-- Every destination the command lists holds an unspecified value, within each field's legal range (R270, U3, log 8). -/
def State.scramble (s : State) (w : Writes) : State :=
  let d := s.draws
  { s with
    freq := if w.freq then freeFreq d else s.freq
    node := if w.tree then freeNodes d else s.node
    root := if w.tree then Config.freeBits 9 .root d 0 else s.root
    nnodes := if w.tree then BitVec.ofNat 10 ((Config.freeBits 10 .nnodes d 0).toNat % 512) else s.nnodes
    ct := if w.codeTable then freeCodeTable d else s.ct
    nsym := if w.codeTable then BitVec.ofNat 9 ((Config.freeBits 9 .nsym d 0).toNat % 257) else s.nsym
    pad := if w.pad then Config.freeBits 3 .pad d 0 else s.pad
    consumed := if w.consumed then Config.freeBits 32 .consumed d 0 else s.consumed
    tokOffset := if w.token then Config.freeBits 32 .tokOffset d 0 else s.tokOffset
    tokLength := if w.token then Config.freeBits 32 .tokLength d 0 else s.tokLength
    tokLit := if w.token then Config.freeBits 8 .tokLit d 0 else s.tokLit
    tokLitv := if w.token then Config.freeBits 1 .tokFlags d 0 = 1 else s.tokLitv
    lzPos := if w.lzPos then Config.freeBits 32 .lzPos d 0 else s.lzPos }

/-- Taking an error (R270), the one way a command stops early: ERR holds the cause, OUT_LEN is 0, STATE is ERROR, ACC, WALK
and PQ are cleared, CMD keeps the word that failed, and the listed destinations and every byte of OBUF are unspecified. An
ILLEGAL_COMMAND error touches no destination. -/
def State.fail (s : State) (w : Writes) (e : ErrorCause) : State :=
  { s.scramble (if e.isIllegalCommand then Writes.none else w) with
    err := e.reg
    outLen := 0
    status := .error
    acc := ⟨0, 0⟩
    walk := ⟨0, 0⟩
    pq := []
    obuf := []
    obufEra := s.draws
    draws := s.draws + 1 }

/-- The return from an error, which is CLR and only it (R255, R278): every piece of state at its reset value, but for IBUF,
IN_LEN, WINDOW_SIZE and CMD. NODE's entries are not touched (R33). -/
def State.clear (s : State) : State :=
  { State.reset with
    cmd := s.cmd
    inLen := s.inLen
    windowSize := s.windowSize
    ibuf := s.ibuf
    ibufEra := s.ibufEra
    node := s.node
    cfg := s.cfg
    record := s.record
    host := s.host
    lastRead := s.lastRead
    obufEra := s.draws
    draws := s.draws + 1 }

/-- Reset (R300, R301): the state of R42 whatever the state before it. What stands outside the block stays: the capacities,
the host's moves and what it read (log 17). -/
def State.resetMove (s : State) : State :=
  { State.reset with
    node := freeNodes s.draws
    ibufEra := s.draws
    obufEra := s.draws
    draws := s.draws + 1
    cfg := s.cfg
    host := s.host
    lastRead := s.lastRead }

/-- Where a command ends: a body that ran completes it (R253), a `raise` takes the error (R270). -/
def State.settle (s : State) (w : Writes) : Except ErrorCause State → State
  | .ok t => t.complete
  | .error e => s.fail w e

/-- The end of a command: every command completes (R256). -/
def State.finish (s : State) (w : Writes) (body : Except ErrorCause State) : Result := .next (s.settle w body)

/-- Where a record inside a running command ends: the command goes on, or the record's error ends it (log 10). -/
def State.settleRecord (s : State) (w : Writes) : Except ErrorCause State → State
  | .ok t => t
  | .error e => s.fail w e

/-- The end of a record. -/
def State.finishRecord (s : State) (w : Writes) (body : Except ErrorCause State) : Result :=
  .next (s.settleRecord w body)

/-! ### The register file -/

/-- A host read of register `n` when the engine is not BUSY (R21, R67). -/
def State.readReg (s : State) (n : Nat) : Option Word :=
  match n with
  | 0 => some s.cmd
  | 1 => some s.status.number
  | 2 => some s.err.number
  | 3 => some s.inLen
  | 4 => some s.outLen
  | 5 => some s.windowSize
  | 6 => some s.lzPos
  | 7 => some s.tokOffset
  | 8 => some s.tokLength
  | 9 => some (s.tokLit.setWidth 32)
  | 10 => some (if s.tokLitv then 1 else 0)
  | 11 => some (s.pad.setWidth 32)
  | 12 => some (s.nsym.setWidth 32)
  | 13 => some (s.root.setWidth 32)
  | 14 => some (s.nnodes.setWidth 32)
  | 15 => some s.consumed
  | _ => none

/-- A host write of a RW register keeps the register's own bits (R29, R30); a write of a read-only one is ignored (R21, U7).
Register 0 is `issue`. -/
def State.writeRw (s : State) (n : Nat) (v : Word) : State :=
  match n with
  | 3 => { s with inLen := v }
  | 5 => { s with windowSize := v }
  | 6 => { s with lzPos := v }
  | 7 => { s with tokOffset := v }
  | 8 => { s with tokLength := v }
  | 9 => { s with tokLit := v.setWidth 8 }
  | 10 => { s with tokLitv := v.getLsbD 0 }
  | 11 => { s with pad := v.setWidth 3 }
  | _ => s

/-- Issue (R250): CMD <- W; STATUS.STATE <- BUSY, in one step. -/
def State.issue (s : State) (w : Word) : State := { s with cmd := w, status := .busy }

/-- The CLR word, the only write accepted in state ERROR (R23). -/
def clrWord : Word := 0x00000001

end Sys2Proof.Machine
end

