-- ==== Sys2Proof/Machine/Control.lean ====
section
/-! DEFINITION. The control commands: NOP (R254), CLR (R255). -/

namespace Sys2Proof.Machine

/-- NOP (R254). -/
def execNop (s : State) : Result := .next s.complete

/-- CLR (R255): it ends in IDLE, not in DONE. -/
def execClr (s : State) : Result := .next s.clear

end Sys2Proof.Machine
end

