-- ==== Sys2Proof/Machine/CodeTable.lean ====
section
/-! DEFINITION. Unit U2: DERIVE (R150 to R154), TSER (R156), TDES (R157, R158). -/

namespace Sys2Proof.Machine

/-- The leaves below node `k` whose path from the root is `p`, each with its code: a left edge appends 0, a right edge 1
(R150). `fuel` is how many edges are left of CODE_MAX + 1: a node deeper than 16 edges has a leaf deeper than 16 below it,
and CODE_TOO_LONG is then the outcome (R153, log 14). -/
def deriveLeaves (N : NodeStore) : Nat → NodeIndex → Bits → Except ErrorCause (List (Byte × Bits))
  | 0, _, _ => .error .codeTooLong
  | fuel + 1, k, p =>
    match (N.at k).kind with
    | .leaf => .ok [((N.at k).sym, p)]
    | .internal => do
      let l ← deriveLeaves N fuel (N.at k).left (p ++ [false])
      let r ← deriveLeaves N fuel (N.at k).right (p ++ [true])
      .ok (l ++ r)

/-- `T[s] <- (VALID = 1, LEN = |p|, BITS = val(p))` for every leaf (R152). -/
def tableOfCodes (codes : List (Byte × Bits)) : CodeTable :=
  codes.foldl (fun T c => T.put c.1 (CtEntry.ofCode c.2)) CodeTable.empty

/-- `derive` (R150 to R154): the new table and the number of its entries. -/
def deriveTable (N : NodeStore) (root : NodeIndex) (anyPresent : Bool) : Except ErrorCause (CodeTable × Nat) :=
  if root = Config.nodeNull then
    if anyPresent then .error .nullRoot else .ok (CodeTable.empty, 0)
  else
    match (N.at root).kind with
    | .leaf => .ok (tableOfCodes [((N.at root).sym, [false])], 1)
    | .internal => do
      let codes ← deriveLeaves N (Config.codeMax + 1) root []
      .ok (tableOfCodes codes, codes.length)

/-- The body of DERIVE (R152). -/
def deriveBody (s : State) : Except ErrorCause State := do
  let (T, n) ← deriveTable s.node s.root s.freq.anyPresent
  .ok (s.setCodeTable T n)

/-- DERIVE (R152). -/
def execDerive (s : State) : Result := s.finish { codeTable := true } (deriveBody s)

/-- The 4-byte entry of a symbol (R92, R156). -/
def entryBytes (s : Byte) (e : CtEntry) : List Byte := [s, e.len.setWidth 8] ++ be16 e.bits

/-- `ser_table(T)` (R156). -/
def serTable (T : CodeTable) : List Byte :=
  be16 (BitVec.ofNat 16 T.count) ++ T.entries.flatMap fun (s, e) => entryBytes s e

/-- TSER (R156). -/
def execTser (s : State) : Result :=
  s.finish Writes.none
    (if s.obufBytes < 2 + 4 * s.nsym.toNat then .error .outFull else .ok (s.setOutput (serTable s.ct)))

/-- One entry of a serialized table (R157): the range checks, the repeat check, and the table with the entry. -/
def addEntry (T : CodeTable) (sym len : Byte) (bits : BitVec 16) : Except ErrorCause CodeTable :=
  if len = 0 ∨ Config.codeMax < len.toNat then .error .lenRange
  else if 2 ^ len.toNat ≤ bits.toNat then .error .bitsPad
  else if (T.at sym).valid then .error .dupSymbol
  else .ok (T.put sym (CtEntry.ofFields len bits))

/-- The entries of a serialized table, `n` of them from index `e` on, in stored order (R157). -/
def addEntries (B : List Byte) : Nat → Nat → CodeTable → Except ErrorCause CodeTable
  | 0, _, T => .ok T
  | n + 1, e, T => do
    let T' ← addEntry T (byteAt B e) (byteAt B (e + 1)) (readBe16 B (e + 2))
    addEntries B n (e + 4) T'

/-- `parse_table(B, p)` (R157): the table and its entry count; the first byte after it is `p + 2 + 4 * n`. -/
def parseTable (B : List Byte) (p : Nat) : Except ErrorCause (CodeTable × Nat) :=
  if B.length < p + 2 then .error .hdrTrunc
  else
    let n := (readBe16 B p).toNat
    if Config.symcountMax < n then .error .countRange
    else if B.length < p + 2 + 4 * n then .error .tableTrunc
    else do
      let T ← addEntries B n (p + 2) CodeTable.empty
      if T.prefixFree then .ok (T, n) else .error .notPrefixFree

/-- TDES (R158). -/
def execTdes (s : State) : Result :=
  s.finish { codeTable := true, consumed := true } do
    let B ← s.requireInput
    let (T, n) ← parseTable B 0
    .ok { s.setCodeTable T n with consumed := BitVec.ofNat 32 (2 + 4 * n) }

end Sys2Proof.Machine
end

