-- ==== Sys2Proof/Machine/Frequency.lean ====
section
/-! DEFINITION. The frequency model of unit U1: FREQ (R120 to R123). -/

namespace Sys2Proof.Machine

/-- `freq_count(D)` (R120): `F[s]` is the number of positions that hold `s`. -/
def freqCount (D : List Byte) : FreqTable := tabulate 256 fun s => BitVec.ofNat 32 (D.count (BitVec.ofNat 8 s))

/-- The body of FREQ (R120) on the input `D`: the counters, then the tree and the code table cleared. -/
def freqBody (D : List Byte) (s : State) : State :=
  { s.clearCodeTable with freq := freqCount D, root := Config.nodeNull, nnodes := 0 }

/-- FREQ (R120). -/
def execFreq (s : State) : Result :=
  s.finish { freq := true, tree := true, codeTable := true } do
    let D ← s.requireInput
    .ok (freqBody D s)

end Sys2Proof.Machine
end

