-- ==== Sys2Proof/Machine/TreeBuilder.lean ====
section
/-! DEFINITION. The Huffman tree builder of unit U1 and its priority queue: TBUILD (R130 to R138). -/

namespace Sys2Proof.Machine

/-- A Leaf (R130). -/
def Node.ofSymbol (sym : Byte) (frq : Word) : Node := ⟨.leaf, sym, frq, Config.nodeNull, Config.nodeNull⟩

/-- An Internal node with LEFT `a` and RIGHT `b` (R134, R135). -/
def Node.ofChildren (frq : Word) (a b : Nat) : Node := ⟨.internal, 0, frq, BitVec.ofNat 9 a, BitVec.ofNat 9 b⟩

/-- The leaves (R130): one per present symbol, in ascending order of symbol. -/
def treeLeaves (F : FreqTable) : List Node :=
  F.toList.zipIdx.filterMap fun (c, s) => if 0 < c.toNat then some (Node.ofSymbol (BitVec.ofNat 8 s) c) else none

/-- `NODE[k].FRQ` of the nodes built so far; PQ holds indices of such nodes only (R34). -/
def frqAt (nodes : List Node) (k : Nat) : Word := ((nodes[k]?).map Node.frq).getD 0

/-- The arbitration order (R131): `key(a) < key(b)` for `key(k) = (NODE[k].FRQ, k)`. -/
def keyBefore (nodes : List Node) (a b : Nat) : Bool :=
  decide ((frqAt nodes a).toNat < (frqAt nodes b).toNat)
    || ((frqAt nodes a == frqAt nodes b) && decide (a < b))

/-- The member of a non-empty queue `k :: pq` that comes before every other (R132). -/
def pqMin (nodes : List Node) (k : Nat) (pq : List Nat) : Nat :=
  pq.foldl (fun m x => if keyBefore nodes x m then x else m) k

/-- `PQ.extract_min()` (R132): the member and the queue without it. -/
def extractMin (nodes : List Node) : List Nat → Option (Nat × List Nat)
  | [] => none
  | k :: pq => some (pqMin nodes k pq, (k :: pq).erase (pqMin nodes k pq))

/-- The merge loop of R134: while two members are left, extract twice, merge, insert. One member is lost per turn, so as
many turns as there are leaves suffice (R133). -/
def mergeLoop : Nat → List Node → List Nat → List Node × List Nat
  | 0, nodes, pq => (nodes, pq)
  | fuel + 1, nodes, pq =>
    match extractMin nodes pq with
    | none => (nodes, pq)
    | some (a, pq1) =>
      match extractMin nodes pq1 with
      | none => (nodes, pq)
      | some (b, pq2) =>
        mergeLoop fuel (nodes ++ [Node.ofChildren (frqAt nodes a + frqAt nodes b) a b]) (pq2 ++ [nodes.length])

/-- The last extraction of R134: ROOT, or NODE_NULL when there is no node. -/
def treeRoot (nodes : List Node) (pq : List Nat) : NodeIndex :=
  match extractMin nodes pq with
  | none => Config.nodeNull
  | some (r, _) => BitVec.ofNat 9 r

/-- `build_tree(F)` (R134): the nodes and the root. -/
def buildTree (F : FreqTable) : List Node × NodeIndex :=
  let leaves := treeLeaves F
  let built := mergeLoop leaves.length leaves (List.range leaves.length)
  (built.1, treeRoot built.1 built.2)

/-- `NODE[k] <- nodes[k]` for every node built; the entries above keep what they hold (R33). -/
def storeNodes (N : NodeStore) (nodes : List Node) : NodeStore :=
  tabulate 511 fun k => (nodes[k]?).getD (N.at (BitVec.ofNat 9 k))

/-- The body of TBUILD (R134): the tree, then the code table cleared. -/
def tbuildBody (s : State) : State :=
  { s.clearCodeTable with
    node := storeNodes s.node (buildTree s.freq).1
    nnodes := BitVec.ofNat 10 (buildTree s.freq).1.length
    root := (buildTree s.freq).2
    pq := [] }

/-- TBUILD (R134): it cannot fail. -/
def execTbuild (s : State) : Result :=
  s.finish { tree := true, codeTable := true } (.ok (tbuildBody s))

end Sys2Proof.Machine
end

