-- ==== Sys2Proof/Machine/HuffmanCodec.lean ====
section
/-! DEFINITION. Unit U3 and the whole-block commands: HPACK (R175 to R178), HWALK (R179 to R182), HCOMP (R185 to R187),
HDECOMP (R189, R190). -/

namespace Sys2Proof.Machine

/-! ### The bit-packer -/

/-- The code stream of `D` (R175). -/
def codeStream (T : CodeTable) (D : List Byte) : Bits := D.flatMap fun s => (T.at s).code

/-- `pad` (R175) for a stream of `t` bits. -/
def padCount (t : Nat) : Nat := (8 - t % 8) % 8

/-- `pack(T, D)` (R175): the payload bytes and the padding count. -/
def pack (T : CodeTable) (D : List Byte) : List Byte × Nat :=
  let S := codeStream T D
  let pad := padCount S.length
  (bytesOfBits ((S.length + pad) / 8) (S ++ List.replicate pad false), pad)

/-- The flush loop of R176: `while ACC.CNT >= 8`. CNT is at most 31, so three turns end it. -/
def accFlush (cap : Nat) : Nat → Acc → List Byte → Except ErrorCause (Acc × List Byte)
  | 0, a, out => .ok (a, out)
  | fuel + 1, a, out =>
    if 8 ≤ a.cnt.toNat then do
      let out' ← emit cap out ((a.val >>> (a.cnt.toNat - 8)).setWidth 8)
      let cnt := a.cnt - 8
      accFlush cap fuel ⟨a.val &&& BitVec.ofNat 23 (2 ^ cnt.toNat - 1), cnt⟩ out'
    else .ok (a, out)

/-- One input byte of R176: its code enters ACC below the bits already there, then full bytes leave. -/
def packByte (cap : Nat) (T : CodeTable) (a : Acc) (out : List Byte) (s : Byte) :
    Except ErrorCause (Acc × List Byte) :=
  if (T.at s).valid then
    accFlush cap 3
      ⟨(a.val <<< (T.at s).len.toNat) ||| (T.at s).bits.setWidth 23, a.cnt + (T.at s).len⟩ out
  else .error .missingCode

/-- The loop of R176 over the input. -/
def packLoop (cap : Nat) (T : CodeTable) : List Byte → Acc → List Byte → Except ErrorCause (Acc × List Byte)
  | [], a, out => .ok (a, out)
  | s :: D, a, out => do
    let (a', out') ← packByte cap T a out s
    packLoop cap T D a' out'

/-- The last partial byte of R176, left-aligned and zero-filled, and the padding count. -/
def packTail (cap : Nat) (a : Acc) (out : List Byte) : Except ErrorCause (List Byte × BitVec 3) :=
  if 0 < a.cnt.toNat then do
    let pad := 8 - a.cnt.toNat
    let out' ← emit cap out ((a.val <<< pad).setWidth 8)
    .ok (out', BitVec.ofNat 3 pad)
  else .ok (out, 0)

/-- HPACK (R176). -/
def execHpack (s : State) : Result :=
  s.finish { pad := true } do
    let D ← s.requireInput
    let (a, out) ← packLoop s.obufBytes s.ct D ⟨0, 0⟩ []
    let (out', pad) ← packTail s.obufBytes a out
    .ok { s.setOutput out' with acc := ⟨0, 0⟩, pad := pad }

/-! ### The tree-walker -/

/-- The symbol whose code is `path` (R181); a prefix-free table has at most one. -/
def codeSymbol (T : CodeTable) (path : Bits) : Option Byte :=
  (T.entries.find? fun e => decide (e.2.code = path)).map Prod.fst

/-- Whether `path` is a proper prefix of some code (R181). -/
def properPrefix (T : CodeTable) (path : Bits) : Bool :=
  T.entries.any fun e => decide (path.length < e.2.code.length) && path.isPrefixOf e.2.code

/-- `walk(T, S)` (R181) from the path so far, each symbol emitted with the capacity check of R276. -/
def walk (cap : Nat) (T : CodeTable) : Bits → Bits → List Byte → Except ErrorCause (List Byte)
  | [], path, out => if path = [] then .ok out else .error .midPath
  | b :: S, path, out =>
    match codeSymbol T (path ++ [b]) with
    | some s => do
      let out' ← emit cap out s
      walk cap T S [] out'
    | none => if properPrefix T (path ++ [b]) then walk cap T S (path ++ [b]) out else .error .deadPath

/-- The entry HWALK looks for: LEN = WALK.LEN and BITS = WALK.PATH (R182). -/
def walkSymbol (T : CodeTable) (w : Walk) : Option Byte :=
  (T.entries.find? fun e => e.2.len == w.len && e.2.bits == w.path).map Prod.fst

/-- The other test of R182: some entry is longer than WALK.LEN and starts with WALK.PATH. -/
def walkExtends (T : CodeTable) (w : Walk) : Bool :=
  T.entries.any fun e => decide (w.len < e.2.len) && e.2.bits >>> (e.2.len.toNat - w.len.toNat) == w.path

/-- The loop of R182 on the registers WALK.PATH and WALK.LEN. -/
def walkLoop (cap : Nat) (T : CodeTable) : Bits → Walk → List Byte → Except ErrorCause (Walk × List Byte)
  | [], w, out => .ok (w, out)
  | b :: S, w, out =>
    let w' : Walk := ⟨(w.path <<< 1) ||| (BitVec.ofBool b).setWidth 16, w.len + 1⟩
    match walkSymbol T w' with
    | some s => do
      let out' ← emit cap out s
      walkLoop cap T S ⟨0, 0⟩ out'
    | none => if walkExtends T w' then walkLoop cap T S w' out else .error .deadPath

/-- HWALK (R182). -/
def execHwalk (s : State) : Result :=
  s.finish Writes.none do
    let P ← s.requireInput
    if 8 * P.length < s.pad.toNat then .error .padExceeds
    else do
      let (w, out) ← walkLoop s.obufBytes s.ct (payloadBits P s.pad.toNat) ⟨0, 0⟩ []
      if w.len = 0 then .ok { s.setOutput out with walk := w } else .error .midPath

/-! ### Whole blocks -/

/-- `huff_block(D)` (R185) once the table `T` of `n` entries is derived. -/
def huffBlock (T : CodeTable) (n : Nat) (D : List Byte) : List Byte :=
  if n = 0 then [0x00, 0x00, 0x00]
  else if n = 1 then [0x00] ++ serTable T ++ be32 (BitVec.ofNat 32 D.length)
  else [BitVec.ofNat 8 (pack T D).2] ++ serTable T ++ (pack T D).1

/-- HCOMP (R186): the bodies of FREQ, TBUILD and DERIVE, then the block. -/
def execHcomp (s : State) : Result :=
  s.finish { freq := true, tree := true, codeTable := true, pad := true } do
    let D ← s.requireInput
    let t ← deriveBody (tbuildBody (freqBody D s))
    let block := huffBlock t.ct t.nsym.toNat D
    if s.obufBytes < block.length then .error .outFull
    else .ok { t.setOutput block with acc := ⟨0, 0⟩, pad := (byteAt block 0).setWidth 3 }

/-- The header checks of a block (R91, R189). -/
def headerError (padding : Byte) (count : BitVec 16) : Option ErrorCause :=
  if Config.padMax < padding.toNat then some .padRange
  else if Config.symcountMax < count.toNat then some .countRange
  else none

/-- The one symbol of a one-entry table (R189). For a table that has not exactly one entry the spec names no symbol: a free
value (log 11). -/
def soleSymbol (T : CodeTable) (draw : Nat) : Byte :=
  match T.entries with
  | [(s, _)] => s
  | _ => Config.freeBits 8 .soleSymbol draw 0

/-- `rep(s, N)` with its capacity check (R189). -/
def repeatSymbol (cap : Nat) (s : Byte) (N : Word) : Except ErrorCause (List Byte) :=
  if cap < N.toNat then .error .outFull else .ok (List.replicate N.toNat s)

/-- `huff_unblock(B)` (R189): the table, its entry count, and the output. -/
def huffUnblock (cap draw : Nat) (B : List Byte) : Except ErrorCause (CodeTable × Nat × List Byte) :=
  if B.length < 3 then .error .hdrTrunc
  else if Config.padMax < (byteAt B 0).toNat then .error .padRange
  else do
    let (T, n) ← parseTable B 1
    let q := 3 + 4 * n
    if n = 0 then .ok (T, n, [])
    else if n = 1 then
      if B.length - q ≠ 4 then .error .countField
      else do
        let out ← repeatSymbol cap (soleSymbol T draw) (readBe32 B q)
        .ok (T, n, out)
    else
      let P := B.drop q
      let pad := (byteAt B 0).toNat
      if 8 * P.length < pad then .error .padExceeds
      else do
        let out ← walk cap T (payloadBits P pad) [] []
        .ok (T, n, out)

/-- HDECOMP (R190). -/
def execHdecomp (s : State) : Result :=
  s.finish { codeTable := true, pad := true, consumed := true } do
    let B ← s.requireInput
    let (T, n, out) ← huffUnblock s.obufBytes s.draws B
    .ok { (s.setCodeTable T n).setOutput out with
          walk := ⟨0, 0⟩
          pad := (byteAt B 0).setWidth 3
          consumed := BitVec.ofNat 32 (3 + 4 * n) }

end Sys2Proof.Machine
end

