-- ==== Sys2Proof/Machine/Lz77.lean ====
section
/-! DEFINITION. Units U4 and U5: LZFIND (R211 to R215), LZREPLAY (R218 to R220), LZCOMP (R216, R225), LZDECOMP (R228). -/

namespace Sys2Proof.Machine

/-! ### The match finder -/

/-- How many leading bytes two sequences share. -/
def commonPrefix : List Byte → List Byte → Nat
  | a :: A, b :: B => if a = b then commonPrefix A B + 1 else 0
  | _, _ => 0

/-- `run(D, j, i)` (R211): bounded by the end of the data only; the source may reach and pass `i`. -/
def runLength (D : List Byte) (j i : Nat) : Nat := commonPrefix (D.drop j) (D.drop i)

/-- One turn of the scan of R212: a longer run replaces the kept one, an equal one does not (R213). -/
def keepLonger (D : List Byte) (i : Nat) (best : Nat × Nat) (j : Nat) : Nat × Nat :=
  if best.2 < runLength D j i then (i - j, runLength D j i) else best

/-- `lz_find(D, i, w)` (R212): (off, len), the window positions scanned in increasing order. -/
def lzFind (D : List Byte) (i w : Nat) : Nat × Nat :=
  (List.range' (i - w) (i - (i - w))).foldl (keepLonger D i) (0, 0)

/-- The else-branch of LZFIND (R215) for `i < |D|`: the token and the new position. -/
def lzStep (D : List Byte) (w i : Nat) : Token × Nat :=
  let m := lzFind D i w
  if 1 ≤ m.2 ∧ i + m.2 < D.length then
    (⟨BitVec.ofNat 32 m.1, BitVec.ofNat 32 m.2, byteAt D (i + m.2), true⟩, i + m.2 + 1)
  else if 1 ≤ m.2 then (⟨BitVec.ofNat 32 m.1, BitVec.ofNat 32 m.2, 0, false⟩, i + m.2)
  else (⟨0, 0, byteAt D i, true⟩, i + 1)

/-- LZFIND (R215). -/
def execLzfind (s : State) : Result :=
  s.finish { token := true, lzPos := true } do
    let D ← s.requireInput
    let i := s.lzPos.toNat
    if D.length ≤ i then .ok (s.setToken Token.null)
    else
      .ok { s.setToken (lzStep D s.windowSize.toNat i).1 with
            lzPos := BitVec.ofNat 32 (lzStep D s.windowSize.toNat i).2 }

/-- The tokens of `D` from position `i` on; every token consumes a byte, so `|D|` turns suffice (R216). -/
def lzTokensFrom (D : List Byte) (w : Nat) : Nat → Nat → List Token
  | 0, _ => []
  | fuel + 1, i =>
    if D.length ≤ i then [] else (lzStep D w i).1 :: lzTokensFrom D w fuel (lzStep D w i).2

/-- `lz_tokens(D, w)` (R216). -/
def lzTokens (D : List Byte) (w : Nat) : List Token := lzTokensFrom D w D.length 0

/-- The last token of a list, or the one the registers hold (R225). -/
def lastToken (t : Token) (ts : List Token) : Token := ts.getLastD t

/-- LZCOMP (R225): the records of the tokens in order, each byte emitted. -/
def execLzcomp (s : State) : Result :=
  s.finish { token := true, lzPos := true } do
    let D ← s.requireInput
    let ts := lzTokens D s.windowSize.toNat
    let out ← emitAll s.obufBytes [] (ts.flatMap Token.ser)
    .ok { (s.setToken (lastToken s.token ts)).setOutput out with lzPos := s.inLen }

/-! ### The reconstructor -/

/-- The copy of R218: `m` bytes, each read `off` bytes before the end of the output as it then stands. -/
def copyBytes (cap off : Nat) : Nat → List Byte → Except ErrorCause (List Byte)
  | 0, out => .ok out
  | m + 1, out => do
    let out' ← emit cap out (byteAt out (out.length - off))
    copyBytes cap off m out'

/-- `lz_apply(O, t)` (R218), each appended byte an `emit` (R276). -/
def lzApply (cap : Nat) (out : List Byte) (t : Token) : Except ErrorCause (List Byte) :=
  if t.offset = 0 ∧ t.length ≠ 0 then .error .lenNoOffset
  else if t.offset ≠ 0 ∧ t.length = 0 then .error .zeroLength
  else if out.length < t.offset.toNat then .error .offsetRange
  else do
    let out' ← copyBytes cap t.offset.toNat t.length.toNat out
    if t.litv then emit cap out' t.lit else .ok out'

/-- LZREPLAY (R220). -/
def execLzreplay (s : State) : Result :=
  s.finish Writes.none do
    let out ← lzApply s.obufBytes s.output s.token
    .ok (s.setOutput out)

/-- The record loop of R228: `n` records from index `a` on, and the token and output they leave. -/
def replayRecords (cap : Nat) (B : List Byte) : Nat → Nat → Token → List Byte → Except ErrorCause (Token × List Byte)
  | 0, _, t, out => .ok (t, out)
  | n + 1, a, _, out => do
    let t ← Token.parse ((B.drop a).take Config.tokenBytes)
    let out' ← lzApply cap out t
    replayRecords cap B n (a + Config.tokenBytes) t out'

/-- LZDECOMP (R228). -/
def execLzdecomp (s : State) : Result :=
  s.finish { token := true } do
    let B ← s.requireInput
    if B.length % Config.tokenBytes ≠ 0 then .error .tokenTrunc
    else do
      let (t, out) ← replayRecords s.obufBytes B (B.length / Config.tokenBytes) 0 s.token []
      .ok ((s.setToken t).setOutput out)

end Sys2Proof.Machine
end

