-- ==== Sys2Proof/Machine/Records.lean ====
section
/-! DEFINITION. The record rows of spec/opcode_table.json: what one record does inside the decode command that consumes it
(HDECOMP for HBLOCK, LZDECOMP for TOKEN). A record leaves the command running (STATUS stays) unless it raises (log 10). -/

namespace Sys2Proof.Machine

/-- What a failed HDECOMP leaves unspecified (R190, R270). -/
def hblockWrites : Writes := { codeTable := true, pad := true, consumed := true }

/-- What a failed LZDECOMP leaves unspecified (R228, R270). -/
def tokenWrites : Writes := { token := true }

/-- HBLOCK.HEADER (R91, R189, R190): the range checks, then PAD, an empty table, and 3 bytes consumed. -/
def execHblockHeader (padding : Byte) (count : BitVec 16) (s : State) : Result :=
  s.finishRecord hblockWrites
    (match headerError padding count with
     | some e => .error e
     | none => .ok { s.clearCodeTable with pad := padding.setWidth 3, consumed := 3 })

/-- HBLOCK.ENTRY (R92, R157): one entry added to the table, 4 more bytes consumed. -/
def execHblockEntry (sym len : Byte) (bits : BitVec 16) (s : State) : Result :=
  s.finishRecord hblockWrites do
    let T ← addEntry s.ct sym len bits
    .ok { s with ct := T, nsym := s.nsym + 1, consumed := s.consumed + 4 }

/-- HBLOCK.COUNT (R93, R189): the one symbol of the table, `n` times. -/
def execHblockCount (n : Word) (s : State) : Result :=
  s.finishRecord hblockWrites do
    let out ← repeatSymbol s.obufBytes (soleSymbol s.ct s.draws) n
    .ok (s.setOutput out)

/-- One turn of LZDECOMP's loop (R228): the token registers, then the replay of R218 on the output so far. -/
def replayToken (t : Token) (s : State) : Result :=
  s.finishRecord tokenWrites do
    let out ← lzApply s.obufBytes s.output t
    .ok ((s.setToken t).setOutput out)

/-- TOKEN.LIT (R99): append the literal. -/
def execTokenLit (lit : Byte) (s : State) : Result := replayToken ⟨0, 0, lit, true⟩ s

/-- TOKEN.MATCH (R99): copy, then append the literal. -/
def execTokenMatch (off len : Word) (lit : Byte) (s : State) : Result := replayToken ⟨off, len, lit, true⟩ s

/-- TOKEN.MATCHEND (R99): copy; the literal byte is ignored (R101). -/
def execTokenMatchend (off len : Word) (_x : Byte) (s : State) : Result := replayToken ⟨off, len, 0, false⟩ s

/-- TOKEN.NULL (R99): nothing is appended; the literal byte is ignored (R101). -/
def execTokenNull (_x : Byte) (s : State) : Result := replayToken ⟨0, 0, 0, false⟩ s

/-- The literal byte as `tok_parse` reads it: 0 when LITV = 0 (R217). -/
def literalIf (litv : Bool) (x : Byte) : Byte := if litv then x else 0

/-- TOKEN.INVALID_LEN_NO_OFFSET (R99): INVALID_TOKEN(LEN_NO_OFFSET), raised by the checks of R218. -/
def execTokenInvalidLenNoOffset (len : Word) (litv : Bool) (x : Byte) (s : State) : Result :=
  replayToken ⟨0, len, literalIf litv x, litv⟩ s

/-- TOKEN.INVALID_ZERO_LENGTH (R99): INVALID_TOKEN(ZERO_LENGTH), raised by the checks of R218. -/
def execTokenInvalidZeroLength (off : Word) (litv : Bool) (x : Byte) (s : State) : Result :=
  replayToken ⟨off, 0, literalIf litv x, litv⟩ s

end Sys2Proof.Machine
end

