-- ==== Sys2Proof/Machine/Dispatch.lean ====
section
/-! DEFINITION. Dispatch: one arm per constructor of Instr. -/

namespace Sys2Proof.Machine

def exec (i : Instr) (s : State) : Host.Outcome State Fault Refusal :=
  match i with
  -- control
  | .nop => Sys2Proof.Machine.execNop s
  | .clr => Sys2Proof.Machine.execClr s
  -- Huffman unit commands
  | .freq => Sys2Proof.Machine.execFreq s
  | .tbuild => Sys2Proof.Machine.execTbuild s
  | .derive => Sys2Proof.Machine.execDerive s
  | .tser => Sys2Proof.Machine.execTser s
  | .tdes => Sys2Proof.Machine.execTdes s
  | .hpack => Sys2Proof.Machine.execHpack s
  | .hwalk => Sys2Proof.Machine.execHwalk s
  -- Huffman whole blocks
  | .hcomp => Sys2Proof.Machine.execHcomp s
  | .hdecomp => Sys2Proof.Machine.execHdecomp s
  -- LZ77
  | .lzfind => Sys2Proof.Machine.execLzfind s
  | .lzreplay => Sys2Proof.Machine.execLzreplay s
  | .lzcomp => Sys2Proof.Machine.execLzcomp s
  | .lzdecomp => Sys2Proof.Machine.execLzdecomp s
  -- records
  | .hblockHeader padding count => Sys2Proof.Machine.execHblockHeader padding count s
  | .hblockEntry sym len bits => Sys2Proof.Machine.execHblockEntry sym len bits s
  | .hblockCount n => Sys2Proof.Machine.execHblockCount n s
  | .tokenLit lit => Sys2Proof.Machine.execTokenLit lit s
  | .tokenMatch off len lit => Sys2Proof.Machine.execTokenMatch off len lit s
  | .tokenMatchend off len x => Sys2Proof.Machine.execTokenMatchend off len x s
  | .tokenNull x => Sys2Proof.Machine.execTokenNull x s
  | .tokenInvalidLenNoOffset len litv x => Sys2Proof.Machine.execTokenInvalidLenNoOffset len litv x s
  | .tokenInvalidZeroLength off litv x => Sys2Proof.Machine.execTokenInvalidZeroLength off litv x s

end Sys2Proof.Machine
end

