-- ==== Sys2Proof/Machine/HostInterface.lean ====
section
/-! DEFINITION. The host's moves (R62, R72, R73, R75, R300): what each does in IDLE, DONE, BUSY and ERROR. -/

namespace Sys2Proof.Machine

/-- A host read returns `v`; it changes nothing in the block (R73). -/
def State.returnRead (s : State) (v : ReadValue) : State := { s with lastRead := some v }

/-- A host read of anything but STATUS while BUSY returns an unspecified value (R72, U4): `v` of a fresh draw. -/
def State.returnFree (s : State) (v : Nat → ReadValue) : State :=
  { s with lastRead := some (v s.draws), draws := s.draws + 1 }

/-- An unspecified register value (U4). -/
def freeWordRead (draw : Nat) : ReadValue := .word (Config.freeBits 32 .busyRead draw 0)

/-- An unspecified byte (U4). -/
def freeByteRead (draw : Nat) : ReadValue := .byte (Config.freeBits 8 .busyRead draw 0)

/-- An unspecified NODE entry (U4). -/
def freeNodeRead (draw : Nat) : ReadValue := .node (freeNode draw 0)

/-- An unspecified CT entry (U4): any value of each field's width, LEN 17 to 31 too. -/
def freeCodeRead (draw : Nat) : ReadValue :=
  .code ⟨Config.freeBits 1 .busyRead draw 0 = 1, Config.freeBits 5 .busyRead draw 1, Config.freeBits 16 .busyRead draw 2⟩

/-- host_write_reg(n, v) in the states of R72: in IDLE and DONE a RW register is stored and a write to CMD issues a command
(R23, R250); in BUSY every write is ignored; in ERROR every write but the CLR word to CMD is ignored. -/
def hostWriteReg (n : Nat) (v : Word) (s : State) : Result :=
  if n < 16 then
    .next
      (match s.status with
       | .busy => s
       | .error => if n = 0 ∧ v = clrWord then s.issue v else s
       | .idle | .done => if n = 0 then s.issue v else s.writeRw n v)
  else .refused .registerNumber

/-- host_read_reg(n): in BUSY a read of STATUS returns BUSY and a read of anything else an unspecified value (R72). -/
def hostReadReg (n : Nat) (s : State) : Result :=
  match s.readReg n with
  | none => .refused .registerNumber
  | some v =>
    .next (if s.status = .busy ∧ n ≠ 1 then s.returnFree freeWordRead else s.returnRead (.word v))

/-- host_write_ibuf(a, b): stored in IDLE and DONE, ignored in BUSY and ERROR (R72). -/
def hostWriteIbuf (a : Nat) (b : Byte) (s : State) : Result :=
  if a < s.ibufBytes then
    .next
      (match s.status with
       | .busy | .error => s
       | .idle | .done => { s with ibuf := Memory.write s.ibuf a b })
  else .refused .bufferAddress

/-- host_read_obuf(a). -/
def hostReadObuf (a : Nat) (s : State) : Result :=
  if a < s.obufBytes then
    .next (if s.status = .busy then s.returnFree freeByteRead else s.returnRead (.byte (s.obufAt a)))
  else .refused .bufferAddress

/-- host_read_freq(s). -/
def hostReadFreq (sym : Nat) (s : State) : Result :=
  if h : sym < 256 then
    .next (if s.status = .busy then s.returnFree freeWordRead else s.returnRead (.word s.freq[sym]))
  else .refused .tableIndex

/-- host_read_node(k), for k < NNODES (R33, U5); while BUSY NNODES is itself unspecified and so is what is read. -/
def hostReadNode (k : Nat) (s : State) : Result :=
  if h : k < 511 then
    if s.status = .busy then .next (s.returnFree freeNodeRead)
    else if k < s.nnodes.toNat then .next (s.returnRead (.node s.node[k]))
    else .refused .nodeNotInUse
  else .refused .tableIndex

/-- host_read_ct(s). -/
def hostReadCt (sym : Nat) (s : State) : Result :=
  if h : sym < 256 then
    .next (if s.status = .busy then s.returnFree freeCodeRead else s.returnRead (.code s.ct[sym]))
  else .refused .tableIndex

/-- WAIT (R106) once the engine is not BUSY: the read of STATUS that ends the polling. -/
def hostWait (s : State) : Result := .next (s.returnRead (.word s.status.number))

/-- One host move. -/
def hostMove (m : HostMove) (s : State) : Result :=
  match m with
  | .writeReg n v => hostWriteReg n v s
  | .readReg n => hostReadReg n s
  | .writeIbuf a b => hostWriteIbuf a b s
  | .readObuf a => hostReadObuf a s
  | .readFreq sym => hostReadFreq sym s
  | .readNode k => hostReadNode k s
  | .readCt sym => hostReadCt sym s
  | .reset => .next s.resetMove
  | .wait => hostWait s

end Sys2Proof.Machine
end

