-- ==== Sys2Proof/Machine/Engine.lean ====
section
/-! DEFINITION. What moves next: the engine while BUSY, unless the host's next move is an access (R15, R72, R250; log 1). -/

namespace Sys2Proof.Machine

/-- What the engine fetches: the record its decoder holds, else the command word in CMD (R250, log 10). -/
def State.fetched (s : State) : Fetched :=
  match s.record with
  | some r => .record r
  | none => .command s.cmd

/-- The record, once fetched, is consumed. -/
def State.consume (s : State) : State := { s with record := none }

/-- What a rejected fetch leaves unspecified: nothing for an illegal command word, LZDECOMP's destinations for a token record
with a reserved flag bit set (R101, R228, R270). -/
def rejectWrites : Reject → Writes
  | .reservedBits | .badOpcode => Writes.none
  | .tokenFlags => tokenWrites

/-- The engine's step (R250, R251): decode, then execute and complete in the same step. A word that names no command completes
with ILLEGAL_COMMAND (R87). -/
def engineStep (s : State) : Result :=
  match decode s.fetched with
  | .ok i => exec i s.consume
  | .error r => .next (s.consume.fail (rejectWrites r) (rejectCause r))

/-- While BUSY the engine moves when the host has nothing to do or is waiting. -/
def State.engineTurn (s : State) : Bool :=
  match s.host with
  | [] => true
  | .wait :: _ => true
  | _ => false

/-- The host's step: its first pending move; with none, nothing happens (R285). -/
def hostStep (s : State) : Result :=
  match s.host with
  | [] => .next s
  | m :: rest => hostMove m { s with host := rest }

/-- The next step of the machine. -/
def advance (s : State) : Result :=
  if s.status = .busy ∧ s.engineTurn = true then engineStep s else hostStep s

/-- The state in which the very next step fetches `f`: CMD holds the word (for a record, the word of the command that
consumes it), STATE is BUSY, and the host makes no access first. -/
def State.placeFetch (s : State) (f : Fetched) : State :=
  match f with
  | .command w => { s with cmd := w, status := .busy, record := none, host := [] }
  | .record (.token w) => { s with cmd := 0x00000029, status := .busy, record := some (.token w), host := [] }
  | .record r => { s with cmd := 0x00000019, status := .busy, record := some r, host := [] }

end Sys2Proof.Machine
end

