-- ==== Sys2Proof/Machine/Step.lean ====
section
/-! DEFINITION. One step of the machine, and the state in which a given word is the next one fetched. -/

namespace Sys2Proof.Machine

/-- One step: the engine's while BUSY, else the host's (Machine/Engine.lean). -/
def step (s : State) : Host.Outcome State Fault Refusal := advance s

/-- `s` with the table word `w` of `nbits` bits where the next step fetches (log 13). -/
def State.withFetchWord (s : State) (nbits w : Nat) : State :=
  match fetchedOfTable nbits w with
  | some f => s.placeFetch f
  | none => s

end Sys2Proof.Machine
end

