-- ==== Sys2Proof/Safety.lean ====
section
/-! DEFINITION. What a good state is, in the terms the statements use: the invariants the spec states about the whole machine,
which destinations a command lists (R41), and which nodes a path reaches (R150). -/

namespace Sys2Proof.Machine

/-- The fifteen commands, as against the record rows of the opcode table. -/
def isCommand : Instr → Bool
  | .nop | .clr | .freq | .tbuild | .derive | .tser | .tdes | .hpack | .hwalk | .hcomp | .hdecomp => true
  | .lzfind | .lzreplay | .lzcomp | .lzdecomp => true
  | _ => false

/-- The commands that read IBUF (R61, R252). -/
def readsInput : Instr → Bool
  | .freq | .tdes | .hpack | .hwalk | .hcomp | .hdecomp | .lzfind | .lzcomp | .lzdecomp => true
  | _ => false

/-- The commands and records that do not write OBUF (R26, R41). -/
def keepsOutput : Instr → Bool
  | .nop | .freq | .tbuild | .derive | .tdes | .lzfind => true
  | .hblockHeader _ _ | .hblockEntry _ _ _ => true
  | _ => false

/-- The table of R41: what each command's rule lists under "Writes", besides OBUF and OUT_LEN; for a record, what the rule of
the command that consumes it lists (log 10). -/
def listedWrites : Instr → Writes
  | .freq => { freq := true, tree := true, codeTable := true }
  | .tbuild => { tree := true, codeTable := true }
  | .derive => { codeTable := true }
  | .tdes => { codeTable := true, consumed := true }
  | .hpack => { pad := true }
  | .hcomp => { freq := true, tree := true, codeTable := true, pad := true }
  | .hdecomp => { codeTable := true, pad := true, consumed := true }
  | .lzfind => { token := true, lzPos := true }
  | .lzcomp => { token := true, lzPos := true }
  | .lzdecomp => { token := true }
  | .hblockHeader _ _ | .hblockEntry _ _ _ | .hblockCount _ => { codeTable := true, pad := true, consumed := true }
  | .tokenLit _ | .tokenMatch _ _ _ | .tokenMatchend _ _ _ | .tokenNull _ => { token := true }
  | .tokenInvalidLenNoOffset _ _ _ | .tokenInvalidZeroLength _ _ _ => { token := true }
  | .nop | .clr | .tser | .hwalk | .lzreplay => Writes.none

/-- The ERR values that an instruction's own rule lets it end with, as R266 numbers them (R120, R134, R152, R156, R158, R176, R182,
R186, R190, R215, R220, R225, R228, R254, R255); for a record, the checks that its turn makes (log 10). -/
def errorsOf : Instr → List Word
  | .nop | .clr | .tbuild => []
  | .freq | .lzfind => [0x0306]
  | .derive => [0x0103, 0x0004]
  | .tser => [0x0105]
  | .tdes => [0x0306, 0x0101, 0x0301, 0x0401, 0x0501, 0x0601, 0x0701, 0x0801]
  | .hpack => [0x0306, 0x0203, 0x0105]
  | .hwalk => [0x0306, 0x0A01, 0x0105, 0x0B01, 0x0C01]
  | .hcomp => [0x0306, 0x0004, 0x0105]
  | .hdecomp =>
    [0x0306, 0x0101, 0x0201, 0x0301, 0x0401, 0x0501, 0x0601, 0x0701, 0x0801, 0x0901, 0x0A01, 0x0B01, 0x0C01, 0x0105]
  | .lzreplay => [0x0102, 0x0202, 0x0302, 0x0105]
  | .lzcomp => [0x0306, 0x0105]
  | .lzdecomp => [0x0306, 0x0D01, 0x0E01, 0x0102, 0x0202, 0x0302, 0x0105]
  | .hblockHeader _ _ => [0x0201, 0x0301]
  | .hblockEntry _ _ _ => [0x0501, 0x0601, 0x0701]
  | .hblockCount _ | .tokenLit _ => [0x0105]
  | .tokenMatch _ _ _ | .tokenMatchend _ _ _ => [0x0302, 0x0105]
  | .tokenNull _ => []
  | .tokenInvalidLenNoOffset _ _ _ => [0x0102]
  | .tokenInvalidZeroLength _ _ _ => [0x0202]

/-- Every register and array outside `w` is as before (R41, R270). -/
structure KeepsUnlisted (w : Writes) (s t : State) : Prop where
  freq : w.freq = false → t.freq = s.freq
  node : w.tree = false → t.node = s.node
  root : w.tree = false → t.root = s.root
  nnodes : w.tree = false → t.nnodes = s.nnodes
  ct : w.codeTable = false → t.ct = s.ct
  nsym : w.codeTable = false → t.nsym = s.nsym
  pad : w.pad = false → t.pad = s.pad
  consumed : w.consumed = false → t.consumed = s.consumed
  tokOffset : w.token = false → t.tokOffset = s.tokOffset
  tokLength : w.token = false → t.tokLength = s.tokLength
  tokLit : w.token = false → t.tokLit = s.tokLit
  tokLitv : w.token = false → t.tokLitv = s.tokLitv
  lzPos : w.lzPos = false → t.lzPos = s.lzPos

/-- What no instruction changes: CMD, IN_LEN, WINDOW_SIZE, every byte of IBUF, the capacities, and the host's side. -/
structure KeepsInputSide (s t : State) : Prop where
  cmd : t.cmd = s.cmd
  inLen : t.inLen = s.inLen
  windowSize : t.windowSize = s.windowSize
  ibufAt : ∀ a, t.ibufAt a = s.ibufAt a
  cfg : t.cfg = s.cfg
  host : t.host = s.host
  lastRead : t.lastRead = s.lastRead

/-- A valid entry has LEN 1 to 16 and BITS < 2^LEN; any other entry is all 0 (R35). -/
def CtEntry.legal (e : CtEntry) : Prop :=
  if e.valid then 1 ≤ e.len.toNat ∧ e.len.toNat ≤ 16 ∧ e.bits.toNat < 2 ^ e.len.toNat else e = CtEntry.invalid

/-- R35: every entry is legal and the valid codes are prefix-free. -/
structure CodeTable.Good (T : CodeTable) : Prop where
  legal : ∀ s, (T.at s).legal
  prefixFree : T.prefixFree = true

/-- The states in which R35's and R33's invariants are claimed: IDLE and DONE, and BUSY on any command but CLR, which is
accepted in IDLE and DONE only (R23). In ERROR, and in BUSY on the CLR that leaves it, the tables may hold anything. -/
def State.tablesLive (s : State) : Prop :=
  s.status = .idle ∨ s.status = .done ∨ (s.status = .busy ∧ s.cmd ≠ clrWord)

/-- IBUF is in canonical form and lists addresses below IBUF_BYTES only (R38). -/
structure State.IbufOk (s : State) : Prop where
  rising : Memory.wf s.ibuf
  bounded : ∀ c ∈ s.ibuf, c.1 < s.ibufBytes

/-- OBUF lists exactly `OBUF[0..OUT_LEN)`, and OUT_LEN <= OBUF_BYTES (R26, R39). -/
structure State.OutputOk (s : State) : Prop where
  cells : s.obuf.map Prod.fst = List.range s.outLen.toNat
  fits : s.outLen.toNat ≤ s.obufBytes

/-- Between commands PQ is empty and ACC and WALK are 0 (R34, R36, R37), and no record is held. -/
structure State.UnitsClear (s : State) : Prop where
  pq : s.pq = []
  acc : s.acc = ⟨0, 0⟩
  walk : s.walk = ⟨0, 0⟩
  record : s.record = none

/-- R25, R26: ERR is 0 in IDLE and DONE; in ERROR its CODE is 1 to 6 and OUT_LEN is 0. -/
structure State.ErrOk (s : State) : Prop where
  clean : s.status = .idle ∨ s.status = .done → s.err = ErrReg.none
  coded : s.status = .error → 1 ≤ s.err.code.toNat ∧ s.err.code.toNat ≤ 6 ∧ s.outLen = 0

/-- Node `c` is the LEFT or the RIGHT child of node `k`. -/
def isChild (N : NodeStore) (k c : Nat) : Prop :=
  k < 511 ∧ (N.at (BitVec.ofNat 9 k)).kind = .internal
    ∧ ((N.at (BitVec.ofNat 9 k)).left.toNat = c ∨ (N.at (BitVec.ofNat 9 k)).right.toNat = c)

/-- The tree of the node store (R33, R133, R141): with no node ROOT is NODE_NULL; else ROOT is the last node, an Internal
node has two different children of smaller index, every node but ROOT is the child of exactly one node, and two leaves hold
different symbols. -/
structure TreeOk (N : NodeStore) (nnodes : Nat) (root : NodeIndex) : Prop where
  small : nnodes ≤ 511
  empty : nnodes = 0 → root = Config.nodeNull
  last : nnodes ≠ 0 → root.toNat = nnodes - 1
  children : ∀ k < nnodes, (N.at (BitVec.ofNat 9 k)).kind = .internal →
    (N.at (BitVec.ofNat 9 k)).left.toNat < k ∧ (N.at (BitVec.ofNat 9 k)).right.toNat < k ∧
      (N.at (BitVec.ofNat 9 k)).left ≠ (N.at (BitVec.ofNat 9 k)).right
  owned : ∀ c < nnodes - 1, ∃ k < nnodes, isChild N k c ∧ ∀ j < nnodes, isChild N j c → j = k
  symbols : ∀ j < nnodes, ∀ k < nnodes, (N.at (BitVec.ofNat 9 j)).kind = .leaf → (N.at (BitVec.ofNat 9 k)).kind = .leaf →
    (N.at (BitVec.ofNat 9 j)).sym = (N.at (BitVec.ofNat 9 k)).sym → j = k

/-- The code table of a state in which it is live. -/
def State.CodeTableOk (s : State) : Prop := s.tablesLive → s.ct.Good

/-- The tree of a state in which it is live. -/
def State.TreeShape (s : State) : Prop := s.tablesLive → TreeOk s.node s.nnodes.toNat s.root

/-- NSYM is the number of valid entries (R31, R35). -/
def State.CountOk (s : State) : Prop := s.tablesLive → s.nsym.toNat = s.ct.count

/-- The whole invariant of the machine. -/
structure State.Inv (s : State) : Prop where
  ibuf : s.IbufOk
  output : s.OutputOk
  units : s.UnitsClear
  err : s.ErrOk
  codeTable : s.CodeTableOk
  tree : s.TreeShape
  count : s.CountOk

/-- `reaches N k p j`: from node `k` the path `p` of edge labels (left 0, right 1) leads to node `j` (R150). -/
def reaches (N : NodeStore) : NodeIndex → Bits → NodeIndex → Prop
  | k, [], j => k = j
  | k, false :: p, j => (N.at k).kind = .internal ∧ reaches N (N.at k).left p j
  | k, true :: p, j => (N.at k).kind = .internal ∧ reaches N (N.at k).right p j

/-- A command ended in DONE with ERR 0 (R253). -/
def State.completed (t : State) : Prop := t.status = .done ∧ t.err = ErrReg.none

/-- A command or record ended in the error whose ERR reads `v`: STATE is ERROR and OUT_LEN is 0 (R270). -/
def State.failedWith (t : State) (v : Word) : Prop := t.status = .error ∧ t.err.number = v ∧ t.outLen = 0

/-- Running instructions one after another, each from the state the one before leaves. -/
def execAll : List Instr → State → Result
  | [], s => .next s
  | i :: is, s =>
    match exec i s with
    | .next t => execAll is t
    | .fault f => .fault f
    | .refused r => .refused r

/-- The records of a token stream, first one first. -/
def recordsOf : Nat → List Byte → List (List Byte)
  | 0, _ => []
  | n + 1, B => B.take Config.tokenBytes :: recordsOf n (B.drop Config.tokenBytes)

/-- How many bytes a list of valid tokens gives: each its length, and one more for a literal (R218). -/
def producedLength (ts : List Token) : Nat := (ts.map fun t => t.length.toNat + t.litv.toNat).sum

/-- The tokens that LZFIND leaves, run again and again from `s` until LZ_POS reaches IN_LEN (R215, R216). -/
def lzfindLeaves (s : State) : List Token → Prop
  | [] => s.inLen.toNat ≤ s.lzPos.toNat
  | t :: ts => s.lzPos.toNat < s.inLen.toNat ∧ ∃ u, exec .lzfind s = .next u ∧ u.token = t ∧ lzfindLeaves u ts

/-- A CT that has a code for every byte of `D` (R303). -/
def covers (T : CodeTable) (D : List Byte) : Prop := ∀ b ∈ D, (T.at b).valid = true

/-- How a command that walked the bits `S` with table `T` into `cap` bytes ended (R181, R182, R189, R273): with the data whose code
stream `S` is; with OUT_FULL when `S` begins with the codes of more bytes than fit; with MID_PATH when it ends inside a code; with
DEAD_PATH when after some codes come bits `q` that no code starts with and that start with no code. -/
structure State.decodes (t : State) (cap : Nat) (T : CodeTable) (S : Bits) : Prop where
  data : ∀ D, covers T D → S = codeStream T D → D.length ≤ cap → t.completed ∧ t.output = D ∧ t.outLen.toNat = D.length
  full : ∀ D rest, covers T D → S = codeStream T D ++ rest → cap < D.length → t.failedWith 0x0105
  midPath : ∀ D q b, covers T D → S = codeStream T D ++ q → D.length ≤ cap → q ≠ [] → (T.at b).valid = true →
    q <+: (T.at b).code → q ≠ (T.at b).code → t.failedWith 0x0C01
  deadPath : ∀ D q rest, covers T D → S = codeStream T D ++ q ++ rest → D.length ≤ cap → q ≠ [] →
    (∀ b, (T.at b).valid = true → ¬ q <+: (T.at b).code ∧ ¬ (T.at b).code <+: q) → t.failedWith 0x0B01

/-! ### The entries of a serialized table that starts at index `p` of `B` (R92, R157) -/

/-- symbol of entry `j`. -/
def entrySym (B : List Byte) (p j : Nat) : Byte := byteAt B (p + 2 + 4 * j)

/-- code_length of entry `j`. -/
def entryLen (B : List Byte) (p j : Nat) : Byte := byteAt B (p + 3 + 4 * j)

/-- code_bits of entry `j`. -/
def entryBits (B : List Byte) (p j : Nat) : BitVec 16 := readBe16 B (p + 4 + 4 * j)

/-- The code of entry `j`. -/
def entryCode (B : List Byte) (p j : Nat) : Bits := bitsOf (entryBits B p j).toNat (entryLen B p j).toNat

/-- Entry `j` passes the two range checks. -/
def entryInRange (B : List Byte) (p j : Nat) : Prop :=
  1 ≤ (entryLen B p j).toNat ∧ (entryLen B p j).toNat ≤ 16 ∧ (entryBits B p j).toNat < 2 ^ (entryLen B p j).toNat

/-- The first `j` entries pass the range checks and repeat no symbol. -/
def entriesFit (B : List Byte) (p j : Nat) : Prop :=
  ∀ k < j, entryInRange B p k ∧ ∀ i < k, entrySym B p i ≠ entrySym B p k

end Sys2Proof.Machine
end

