-- ==== Sys2Proof/Certificates/Slice0/Obligations.lean ====
section
/-! DEFINITION. The statements for the provers. OBLIGATIONS.json lists them with the rules they formalise. -/

open Sys2Proof Sys2Proof.Machine

/-! ### Encoding -/

/-- A few words written out from the spec's encodings (R86, R91, R92, R98) decode to what they stand for. -/
def Obligations.SampleWordsDecode : Prop :=
  decode (.command 0x00000000) = .ok .nop ∧
  decode (.command 0x00000011) = .ok .tbuild ∧
  decode (.command 0x00000019) = .ok .hdecomp ∧
  decode (.command 0x00000028) = .ok .lzcomp ∧
  decode (.record (.header 0x010005)) = .ok (.hblockHeader 1 5) ∧
  decode (.record (.entry 0x6104000C)) = .ok (.hblockEntry 0x61 4 0x000C) ∧
  decode (.record (.token 0x00000000000000000161)) = .ok (.tokenLit 0x61) ∧
  decode (.record (.token 0x00000001000000070000)) = .ok (.tokenMatchend 1 7 0)

/-- R86: a command word decodes to a command exactly when the pair stands in the opcode map; the whole word is matched. -/
def Obligations.CommandDecodesExactlyItsWord : Prop :=
  ∀ (w : Word) (i : Instr), decode (.command w) = .ok i ↔
    (w, i) ∈ ([(0x00, .nop), (0x01, .clr), (0x10, .freq), (0x11, .tbuild), (0x12, .derive), (0x13, .tser), (0x14, .tdes),
      (0x15, .hpack), (0x16, .hwalk), (0x18, .hcomp), (0x19, .hdecomp), (0x20, .lzfind), (0x21, .lzreplay),
      (0x28, .lzcomp), (0x29, .lzdecomp)] : List (Word × Instr))

/-- Decode and encode agree, on every word and every well-formed instruction with every operand. -/
def Obligations.DecodeEncodeAgree : Prop :=
  (∀ i : Instr, i.wf = true → decode (encode i) = .ok i) ∧
  (∀ (f : Fetched) (i : Instr), decode f = .ok i → i.wf = true ∧ encode i = f)

/-- R87: an illegal word accepted into CMD completes with ERROR, with the sub-cause that names what is wrong with it; CMD, IBUF and
every register and array a command could list are as before, and so are PQ, ACC and WALK, which are clear before a command. That the
error clears the three as well, and that all of OBUF is unspecified at OUT_LEN 0, is the model's reading (log 18). -/
def Obligations.IllegalWordCompletesWithError : Prop :=
  ∀ s : State, s.status = .busy → s.host = [] → s.record = none →
    (s.cmd.extractLsb' 8 24 ≠ 0 →
      ∃ t, step s = .next t ∧ t.failedWith 0x0206 ∧ KeepsUnlisted Writes.none s t ∧ KeepsInputSide s t ∧
        (s.UnitsClear → t.pq = s.pq ∧ t.acc = s.acc ∧ t.walk = s.walk)) ∧
    (s.cmd.extractLsb' 8 24 = 0 →
      s.cmd.toNat ∉ [0x00, 0x01, 0x10, 0x11, 0x12, 0x13, 0x14, 0x15, 0x16, 0x18, 0x19, 0x20, 0x21, 0x28, 0x29] →
      ∃ t, step s = .next t ∧ t.failedWith 0x0106 ∧ KeepsUnlisted Writes.none s t ∧ KeepsInputSide s t ∧
        (s.UnitsClear → t.pq = s.pq ∧ t.acc = s.acc ∧ t.walk = s.walk))

/-! ### The step -/

/-- While BUSY, when the host makes no access, the step is `exec` of the decoded instruction, with the record consumed. The
state `withFetchWord` builds is one whose very next step runs exactly that word's instruction. -/
def Obligations.StepRunsDecodedInstruction : Prop :=
  (∀ (s : State) (i : Instr), s.status = .busy → (s.host = [] ∨ ∃ rest, s.host = .wait :: rest) →
    decode s.fetched = .ok i → step s = exec i { s with record := none }) ∧
  (∀ (s : State) (nbits w : Nat) (i : Instr), decodeTableWord nbits w = some i →
    step (s.withFetchWord nbits w) = exec i { s.withFetchWord nbits w with record := none } ∧
    { s.withFetchWord nbits w with cmd := s.cmd, status := s.status, record := s.record, host := s.host } = s)

/-- Otherwise the step is the host's next move; with no move pending nothing changes (R285). -/
def Obligations.StepMakesTheHostsMove : Prop :=
  (∀ (s : State) (m : HostMove) (rest : List HostMove), s.host = m :: rest → (s.status ≠ .busy ∨ m ≠ .wait) →
    step s = hostMove m { s with host := rest }) ∧
  (∀ s : State, s.status ≠ .busy → s.host = [] → step s = .next s)

/-- R23: which writes to CMD are accepted, and what CMD reads back. -/
def Obligations.CmdWriteAcceptance : Prop :=
  ∀ (s : State) (w : Word), ∃ t, hostMove (.writeReg 0 w) s = .next t ∧
    (s.status = .idle ∨ s.status = .done → t = { s with cmd := w, status := .busy } ∧ t.readReg 0 = some w) ∧
    (s.status = .busy → t = s) ∧
    (s.status = .error → w ≠ 0x00000001 → t = s) ∧
    (s.status = .error → w = 0x00000001 → t = { s with cmd := w, status := .busy } ∧ t.readReg 0 = some w)

/-- R72, R316: while BUSY no write has an effect, a read of STATUS returns BUSY, and no read changes the block; in ERROR every
write but the CLR word to CMD is ignored. -/
def Obligations.BusyAndErrorIgnoreWrites : Prop :=
  ∀ s : State,
    (s.status = .busy →
      (∀ n v, n < 16 → hostMove (.writeReg n v) s = .next s) ∧
      (∀ a b, a < s.ibufBytes → hostMove (.writeIbuf a b) s = .next s) ∧
      (∃ t, hostMove (.readReg 1) s = .next t ∧ t.lastRead = some (.word 1)) ∧
      (∀ n m t, m ∈ [HostMove.readReg n, .readObuf n, .readFreq n, .readNode n, .readCt n] →
        hostMove m s = .next t → t = { s with lastRead := t.lastRead, draws := t.draws })) ∧
    (s.status = .error →
      (∀ n v, n < 16 → (n ≠ 0 ∨ v ≠ 0x00000001) → hostMove (.writeReg n v) s = .next s) ∧
      (∀ a b, a < s.ibufBytes → hostMove (.writeIbuf a b) s = .next s))

/-- R21, R29, R30, R38: what a host write in IDLE or DONE leaves to be read. A RW register keeps its own bits, a read-only one
its value, and no other register and no byte changes; a byte of IBUF holds what was written, and every other byte and register
what it held. -/
def Obligations.HostWriteStoresWhatItNames : Prop :=
  ∀ s : State, s.status = .idle ∨ s.status = .done →
    (∀ (n : Nat) (v : Word), 0 < n → n < 16 →
      ∃ t, hostMove (.writeReg n v) s = .next t ∧
        (n ∈ [3, 5, 6, 7, 8] → t.readReg n = some v) ∧
        (n = 9 → t.readReg n = some (v &&& 0xFF)) ∧
        (n = 10 → t.readReg n = some (v &&& 1)) ∧
        (n = 11 → t.readReg n = some (v &&& 7)) ∧
        (n ∈ [1, 2, 4, 12, 13, 14, 15] → t = s) ∧
        (∀ m, m ≠ n → t.readReg m = s.readReg m) ∧
        t.freq = s.freq ∧ t.node = s.node ∧ t.ct = s.ct ∧
        (∀ a, t.ibufAt a = s.ibufAt a) ∧ (∀ a, t.obufAt a = s.obufAt a)) ∧
    (∀ (a : Nat) (b : Byte), a < s.ibufBytes →
      ∃ t, hostMove (.writeIbuf a b) s = .next t ∧ t.ibufAt a = b ∧ (∀ a', a' ≠ a → t.ibufAt a' = s.ibufAt a') ∧
        t = { s with ibuf := t.ibuf })

/-- R21, R24, R25, R72, R73: what a host read returns when the engine is not BUSY: a register's value, a byte of OBUF, an entry of
FREQ, NODE or CT, and STATUS at the end of WAIT. It changes nothing but what the host has read, so the same read again returns the
same value. -/
def Obligations.HostReadsReturnWhatIsHeld : Prop :=
  ∀ s : State, s.status ≠ .busy →
    (∀ (n : Nat) (v : Word),
      (n, v) ∈ [(0, s.cmd), (1, match s.status with | .idle => 0 | .busy => 1 | .done => 2 | .error => 3),
        (2, (0 : BitVec 16) ++ s.err.sub ++ s.err.code), (3, s.inLen), (4, s.outLen), (5, s.windowSize), (6, s.lzPos),
        (7, s.tokOffset), (8, s.tokLength), (9, s.tokLit.setWidth 32), (10, if s.tokLitv then 1 else 0),
        (11, s.pad.setWidth 32), (12, s.nsym.setWidth 32), (13, s.root.setWidth 32), (14, s.nnodes.setWidth 32),
        (15, s.consumed)] →
      s.readReg n = some v ∧ hostMove (.readReg n) s = .next { s with lastRead := some (.word v) }) ∧
    (∀ a < s.obufBytes, hostMove (.readObuf a) s = .next { s with lastRead := some (.byte (s.obufAt a)) }) ∧
    (∀ b : Byte, hostMove (.readFreq b.toNat) s = .next { s with lastRead := some (.word (s.freq.at b)) }) ∧
    (∀ k < 511, k < s.nnodes.toNat →
      hostMove (.readNode k) s = .next { s with lastRead := some (.node (s.node.at (BitVec.ofNat 9 k))) }) ∧
    (∀ b : Byte, hostMove (.readCt b.toNat) s = .next { s with lastRead := some (.code (s.ct.at b)) }) ∧
    (∃ v, s.readReg 1 = some v ∧ hostMove .wait s = .next { s with lastRead := some (.word v) }) ∧
    (∀ (t : State) (m : HostMove) (k : Nat),
      m ∈ [HostMove.readReg k, .readObuf k, .readFreq k, .readNode k, .readCt k, .wait] → hostMove m s = .next t →
      t = { s with lastRead := t.lastRead } ∧ ∃ u, hostMove m t = .next u ∧ u.lastRead = t.lastRead)

/-- R62, U5, U6: a host access is refused exactly when it is no operation of the hardware. That one is refused in BUSY and ERROR too
is the model's reading (log 16, DEDUCED); that a NODE read at or above NNODES is not refused while BUSY, where R72 gives a read of
anything but STATUS an unspecified value, is the model's choice (log 9, DESIGN CHOICE). -/
def Obligations.RefusesExactlyNonOperations : Prop :=
  ∀ (s : State) (m : HostMove), (∃ r, hostMove m s = .refused r) ↔
    (m.wf s.cfg = false ∨ ∃ k, m = .readNode k ∧ s.status ≠ .busy ∧ s.nnodes.toNat ≤ k)

/-- R42, R300: the reset move, in any state, BUSY and ERROR too. -/
def Obligations.ResetFromAnyState : Prop :=
  ∀ s : State, ∃ t, hostMove .reset s = .next t ∧
    t.cmd = 0 ∧ t.status = .idle ∧ t.err.number = 0 ∧ t.inLen = 0 ∧ t.outLen = 0 ∧ t.windowSize = 20 ∧ t.lzPos = 0 ∧
    t.tokOffset = 0 ∧ t.tokLength = 0 ∧ t.tokLit = 0 ∧ t.tokLitv = false ∧ t.pad = 0 ∧ t.nsym = 0 ∧ t.root = 511 ∧
    t.nnodes = 0 ∧ t.consumed = 0 ∧ (∀ b, t.freq.at b = 0) ∧ (∀ b, t.ct.at b = ⟨false, 0, 0⟩) ∧ t.pq = [] ∧
    t.acc = ⟨0, 0⟩ ∧ t.walk = ⟨0, 0⟩

/-! ### Whole-machine rules -/

/-- R253, R256, R265 to R267: every instruction ends in a next state; a command but CLR ends in DONE with ERR 0 or in ERROR, CLR in
IDLE with ERR 0. One that ends in ERROR has one of the errors that its own rule names, all of a class from 1 to 6; NOP, CLR and
TBUILD never fail, FREQ and LZFIND only with PARAM_IN_LEN, and no encoder with CORRUPT_DATA or INVALID_TOKEN. (What a record row can
end with rests on log 10.) -/
def Obligations.EveryCommandCompletes : Prop :=
  ∀ (i : Instr) (s : State), ∃ t, exec i s = .next t ∧
    (i = .clr → t.status = .idle ∧ t.err = ErrReg.none) ∧
    (isCommand i = true → i ≠ .clr →
      t.completed ∨ (t.status = .error ∧ 1 ≤ t.err.code.toNat ∧ t.err.code.toNat ≤ 6)) ∧
    (i.wf = true → isCommand i = true ∨ s.status = .busy → t.status = .error → t.err.number ∈ errorsOf i) ∧
    (i ∈ [Instr.nop, .clr, .tbuild] → t.status ≠ .error) ∧
    (i ∈ [Instr.freq, .lzfind] → t.status = .error → t.err.number = 0x0306) ∧
    (i ∈ [Instr.freq, .tbuild, .derive, .tser, .hpack, .hcomp, .lzfind, .lzcomp] → t.err.code ≠ 1 ∧ t.err.code ≠ 2)

/-- R278: from ERROR only an accepted CLR word or a reset leads out. -/
def Obligations.OnlyClrOrResetLeavesError : Prop :=
  ∀ s t : State, s.status = .error → step s = .next t → t.status ≠ .error →
    (∃ rest, s.host = .writeReg 0 0x00000001 :: rest) ∨ (∃ rest, s.host = .reset :: rest)

/-- The frame every instruction keeps: CMD, IN_LEN, WINDOW_SIZE, every byte of IBUF (R26, R27, R38). -/
def Obligations.InstructionsKeepInputSide : Prop :=
  ∀ (i : Instr) (s t : State), exec i s = .next t → KeepsInputSide s t

/-- The frame of an instruction that does not fail (R41): every destination its rule does not list is kept, FREQ and CT and the
tree among them; PQ, ACC and WALK are kept or cleared; one that does not write OBUF keeps every byte of it and OUT_LEN. CLR is
not one of these: its rule is R255. -/
def Obligations.CompletedInstructionFrame : Prop :=
  ∀ (i : Instr) (s t : State), i ≠ .clr → s.status = .busy → exec i s = .next t → t.status ≠ .error →
    KeepsUnlisted (listedWrites i) s t ∧
    (t.pq = s.pq ∨ t.pq = []) ∧ (t.acc = s.acc ∨ t.acc = ⟨0, 0⟩) ∧ (t.walk = s.walk ∨ t.walk = ⟨0, 0⟩) ∧
    (keepsOutput i = true → t.outLen = s.outLen ∧ ∀ a, t.obufAt a = s.obufAt a) ∧
    (isCommand i = false → t.status = .busy ∧ t.err = s.err)

/-- The frame of an instruction that fails (R270): OUT_LEN 0, ACC, WALK and PQ cleared, and every register and array the rule
does not list is kept; an ILLEGAL_COMMAND error keeps the listed ones too. That an ILLEGAL_COMMAND error clears ACC, WALK and PQ as
well is the model's reading (log 18, DEDUCED), and what a record row lists is its choice (log 10). -/
def Obligations.FailedInstructionFrame : Prop :=
  ∀ (i : Instr) (s t : State), s.status = .busy → exec i s = .next t → t.status = .error →
    t.outLen = 0 ∧ t.pq = [] ∧ t.acc = ⟨0, 0⟩ ∧ t.walk = ⟨0, 0⟩ ∧ KeepsUnlisted (listedWrites i) s t ∧
    (t.err.code = 6 → KeepsUnlisted Writes.none s t)

/-- R252: a command that reads IBUF checks IN_LEN first; one that does not ignores it. -/
def Obligations.InputLengthCheckedFirst : Prop :=
  (∀ (i : Instr) (s : State), readsInput i = true → s.ibufBytes < s.inLen.toNat →
    ∃ t, exec i s = .next t ∧ t.failedWith 0x0306 ∧ KeepsUnlisted Writes.none s t) ∧
  (∀ (i : Instr) (s t : State) (n : Word), isCommand i = true → readsInput i = false → exec i s = .next t →
    exec i { s with inLen := n } = .next { t with inLen := n })

/-- R26, R61: bytes of IBUF at or above IN_LEN never matter to any instruction. -/
def Obligations.InputBeyondLengthNeverMatters : Prop :=
  ∀ (i : Instr) (s t : State) (a : Nat) (b : Byte), s.inLen.toNat ≤ a → exec i s = .next t →
    exec i { s with ibuf := Memory.write s.ibuf a b } = .next { t with ibuf := Memory.write s.ibuf a b }

/-! ### Control commands -/

/-- R254, R255: NOP changes ERR and STATE only; CLR puts every piece of state at its reset value but IBUF, IN_LEN, WINDOW_SIZE
and CMD, and ends in IDLE. -/
def Obligations.NopKeepsAndClrReinitialises : Prop :=
  ∀ s : State, exec .nop s = .next { s with err := ⟨0, 0⟩, status := .done } ∧
    ∃ t, exec .clr s = .next t ∧ t.status = .idle ∧ t.err = ⟨0, 0⟩ ∧ t.outLen = 0 ∧ t.lzPos = 0 ∧
      t.tokOffset = 0 ∧ t.tokLength = 0 ∧ t.tokLit = 0 ∧ t.tokLitv = false ∧ t.pad = 0 ∧ t.nsym = 0 ∧ t.root = 511 ∧
      t.nnodes = 0 ∧ t.consumed = 0 ∧ (∀ b, t.freq.at b = 0) ∧ (∀ b, (t.ct.at b).valid = false) ∧ t.pq = [] ∧
      t.acc = ⟨0, 0⟩ ∧ t.walk = ⟨0, 0⟩ ∧ KeepsInputSide s t

/-! ### Unit U1 -/

/-- R120: FREQ counts the positions of the input that hold each symbol and clears the tree and the code table. -/
def Obligations.FreqCountsPositions : Prop :=
  ∀ s : State, s.inLen.toNat ≤ s.ibufBytes → ∃ t, exec .freq s = .next t ∧ t.completed ∧
    (∀ b, (t.freq.at b).toNat = ((List.range s.inLen.toNat).filter fun a => s.ibufAt a == b).length) ∧
    t.root = 511 ∧ t.nnodes = 0 ∧ (∀ b, t.ct.at b = ⟨false, 0, 0⟩) ∧ t.nsym = 0

/-- R132: `extract_min` of a queue with a member hands one out, the member that comes before every other in the order of R131, and
removes it. -/
def Obligations.ExtractMinIsFirst : Prop :=
  ∀ (nodes : List Node) (pq : List Nat),
    (pq ≠ [] → ∃ k rest, extractMin nodes pq = some (k, rest)) ∧
    ∀ (k : Nat) (rest : List Nat), extractMin nodes pq = some (k, rest) →
      k ∈ pq ∧ rest = pq.erase k ∧
      ∀ x ∈ pq, x ≠ k → (frqAt nodes k).toNat < (frqAt nodes x).toNat ∨ (frqAt nodes k = frqAt nodes x ∧ k < x)

/-- R130, R133, R136, R137: TBUILD's leaves are the present symbols in ascending order with their counts; `n` present symbols
give `2n - 1` nodes and the last one as ROOT; no present symbol gives no tree. -/
def Obligations.TbuildLeavesAndCounts : Prop :=
  ∀ (s : State) (present : List Nat),
    present = (List.range 256).filter (fun b => decide (0 < (s.freq.at (BitVec.ofNat 8 b)).toNat)) →
    ∃ t, exec .tbuild s = .next t ∧ t.completed ∧
      (∀ k, ∀ h : k < present.length, t.node.at (BitVec.ofNat 9 k) =
        ⟨.leaf, BitVec.ofNat 8 present[k], s.freq.at (BitVec.ofNat 8 present[k]), 511, 511⟩) ∧
      (present = [] → t.nnodes = 0 ∧ t.root = 511) ∧
      (present ≠ [] → t.nnodes.toNat = 2 * present.length - 1 ∧ t.root.toNat = 2 * present.length - 2) ∧
      (∀ b, t.ct.at b = ⟨false, 0, 0⟩) ∧ t.nsym = 0

/-- R135, R138: in every Internal node TBUILD makes, the LEFT child comes before the RIGHT one in the order of R131, and the
frequency is the sum of the children's. -/
def Obligations.TbuildLeftComesFirst : Prop :=
  ∀ (s t : State) (k : Nat) (n l r : Node), exec .tbuild s = .next t → k < t.nnodes.toNat →
    n = t.node.at (BitVec.ofNat 9 k) → n.kind = .internal → l = t.node.at n.left → r = t.node.at n.right →
    n.sym = 0 ∧ n.frq = l.frq + r.frq ∧
    (l.frq.toNat < r.frq.toNat ∨ (l.frq = r.frq ∧ n.left.toNat < n.right.toNat))

/-! ### Unit U2 -/

/-- R150, R152: when ROOT is an Internal node and no leaf is deeper than 16, DERIVE gives each leaf's symbol the path from ROOT
to the leaf as its code, gives no other symbol a code, and NSYM is the number of codes. -/
def Obligations.DeriveCodesArePaths : Prop :=
  ∀ s : State, TreeOk s.node s.nnodes.toNat s.root → s.nnodes ≠ 0 → (s.node.at s.root).kind = .internal →
    (∀ p k, reaches s.node s.root p k → (s.node.at k).kind = .leaf → p.length ≤ 16) →
    ∃ t, exec .derive s = .next t ∧ t.completed ∧
      (∀ p k, reaches s.node s.root p k → (s.node.at k).kind = .leaf →
        (t.ct.at (s.node.at k).sym).valid = true ∧ (t.ct.at (s.node.at k).sym).code = p) ∧
      (∀ b, (t.ct.at b).valid = true →
        ∃ p k, reaches s.node s.root p k ∧ (s.node.at k).kind = .leaf ∧ (s.node.at k).sym = b) ∧
      t.nsym.toNat = ((List.range 256).filter fun b => (t.ct.at (BitVec.ofNat 8 b)).valid).length

/-- R153: a leaf deeper than 16 edges makes DERIVE raise CODE_TOO_LONG. -/
def Obligations.DeriveRejectsDeepLeaf : Prop :=
  ∀ (s : State) (p : Bits) (k : NodeIndex), s.root ≠ 511 → reaches s.node s.root p k → (s.node.at k).kind = .leaf →
    16 < p.length → ∃ t, exec .derive s = .next t ∧ t.failedWith 0x0004

/-- R151, R154: a root that is a Leaf gives its symbol the code "0"; with no tree DERIVE raises INVALID_TREE(NULL_ROOT) when a
symbol is present and gives the empty table when none is. -/
def Obligations.DeriveWithoutInternalRoot : Prop :=
  ∀ s : State,
    (s.root ≠ 511 → (s.node.at s.root).kind = .leaf → ∃ t, exec .derive s = .next t ∧ t.completed ∧ t.nsym = 1 ∧
      t.ct.at (s.node.at s.root).sym = ⟨true, 1, 0⟩ ∧ (∀ b, b ≠ (s.node.at s.root).sym → t.ct.at b = ⟨false, 0, 0⟩)) ∧
    (s.root = 511 → (∃ b, 0 < (s.freq.at b).toNat) → ∃ t, exec .derive s = .next t ∧ t.failedWith 0x0103) ∧
    (s.root = 511 → (∀ b, s.freq.at b = 0) → ∃ t, exec .derive s = .next t ∧ t.completed ∧ t.nsym = 0 ∧
      ∀ b, t.ct.at b = ⟨false, 0, 0⟩)

/-- R92, R156: TSER writes symbol_count and the valid entries in ascending order of symbol, each as symbol, LEN and big-endian
BITS, when they fit; else it raises CAPACITY(OUT_FULL). -/
def Obligations.TserWritesTable : Prop :=
  ∀ s : State, s.nsym.toNat = s.ct.count →
    (2 + 4 * s.nsym.toNat ≤ s.obufBytes → ∃ t, exec .tser s = .next t ∧ t.completed ∧
      t.outLen.toNat = 2 + 4 * s.nsym.toNat ∧
      t.output = [BitVec.ofNat 8 (s.nsym.toNat / 256), BitVec.ofNat 8 s.nsym.toNat] ++
        ((List.range 256).filter fun b => (s.ct.at (BitVec.ofNat 8 b)).valid).flatMap fun b =>
          [BitVec.ofNat 8 b, (s.ct.at (BitVec.ofNat 8 b)).len.setWidth 8,
           (s.ct.at (BitVec.ofNat 8 b)).bits.extractLsb' 8 8, (s.ct.at (BitVec.ofNat 8 b)).bits.extractLsb' 0 8]) ∧
    (s.obufBytes < 2 + 4 * s.nsym.toNat → ∃ t, exec .tser s = .next t ∧ t.failedWith 0x0105)

/-- R159: parsing a serialized table gives the table back, the empty and the one-entry table too. -/
def Obligations.TableRoundTrip : Prop :=
  ∀ (T : CodeTable) (rest : List Byte), T.Good → parseTable (serTable T ++ rest) 0 = .ok (T, T.count)

/-- R157, R158: TDES accepts the entries in any order, followed by any bytes, and loads exactly them. -/
def Obligations.TdesLoadsEntriesInAnyOrder : Prop :=
  ∀ (s : State) (L : List (Byte × CtEntry)) (rest : List Byte), s.inLen.toNat ≤ s.ibufBytes → L.length ≤ 256 →
    (L.map Prod.fst).Nodup → (∀ x ∈ L, x.2.valid = true ∧ x.2.legal) →
    (∀ x ∈ L, ∀ y ∈ L, x.1 ≠ y.1 → ¬ x.2.code <+: y.2.code) →
    s.input = be16 (BitVec.ofNat 16 L.length) ++ L.flatMap (fun x => entryBytes x.1 x.2) ++ rest →
    ∃ t, exec .tdes s = .next t ∧ t.completed ∧ (∀ x ∈ L, t.ct.at x.1 = x.2) ∧
      (∀ b, b ∉ L.map Prod.fst → t.ct.at b = ⟨false, 0, 0⟩) ∧ t.nsym.toNat = L.length ∧
      t.consumed.toNat = 2 + 4 * L.length

/-- R157, R189, R272: the checks that TDES and HDECOMP make on a table, in their order: the header, then each entry in stored order
(code_length, code_bits, a repeated symbol), then the codes of the whole table. -/
def Obligations.TableChecksInOrder : Prop :=
  ∀ (s : State) (B : List Byte), s.inLen.toNat ≤ s.ibufBytes → s.input = B →
    (∃ t, exec .tdes s = .next t ∧
      (B.length < 2 → t.failedWith 0x0101) ∧
      (2 ≤ B.length → 256 < (readBe16 B 0).toNat → t.failedWith 0x0301) ∧
      (2 ≤ B.length → (readBe16 B 0).toNat ≤ 256 → B.length < 2 + 4 * (readBe16 B 0).toNat → t.failedWith 0x0401)) ∧
    (∃ t, exec .hdecomp s = .next t ∧
      (B.length < 3 → t.failedWith 0x0101) ∧
      (3 ≤ B.length → 7 < (byteAt B 0).toNat → t.failedWith 0x0201) ∧
      (3 ≤ B.length → (byteAt B 0).toNat ≤ 7 → 256 < (readBe16 B 1).toNat → t.failedWith 0x0301) ∧
      (3 ≤ B.length → (byteAt B 0).toNat ≤ 7 → (readBe16 B 1).toNat ≤ 256 →
        B.length < 3 + 4 * (readBe16 B 1).toNat → t.failedWith 0x0401)) ∧
    (∀ (i : Instr) (p n : Nat), (i = .tdes ∧ p = 0) ∨ (i = .hdecomp ∧ p = 1 ∧ (byteAt B 0).toNat ≤ 7) →
      n = (readBe16 B p).toNat → n ≤ 256 → p + 2 + 4 * n ≤ B.length →
      ∃ t, exec i s = .next t ∧
        (∀ j < n, entriesFit B p j →
          (entryLen B p j = 0 ∨ 16 < (entryLen B p j).toNat → t.failedWith 0x0501) ∧
          (1 ≤ (entryLen B p j).toNat → (entryLen B p j).toNat ≤ 16 →
            2 ^ (entryLen B p j).toNat ≤ (entryBits B p j).toNat → t.failedWith 0x0601) ∧
          (entryInRange B p j → (∃ k < j, entrySym B p k = entrySym B p j) → t.failedWith 0x0701)) ∧
        (entriesFit B p n → (∃ j < n, ∃ k < n, j ≠ k ∧ entryCode B p j <+: entryCode B p k) → t.failedWith 0x0801))

/-! ### Unit U3 -/

/-- R66, R175: `pack` puts bit `k` of the code stream at bit `7 - k mod 8` of byte `k div 8`, pads with 0 bits on the right, and
`bits` reads the stream back. -/
def Obligations.PackIsMsbFirst : Prop :=
  ∀ (T : CodeTable) (D P : List Byte) (pad : Nat), pack T D = (P, pad) →
    pad < 8 ∧ 8 * P.length = (codeStream T D).length + pad ∧
    (∀ k, ∀ h : k < (codeStream T D).length, (byteAt P (k / 8)).getLsbD (7 - k % 8) = (codeStream T D)[k]) ∧
    (∀ k, (codeStream T D).length ≤ k → k < 8 * P.length → (byteAt P (k / 8)).getLsbD (7 - k % 8) = false) ∧
    payloadBits P pad = codeStream T D

/-- R176 to R178: the accumulator loop of HPACK gives the bytes and the padding count of `pack`, or CAPACITY(OUT_FULL) when they
do not fit; a byte without a valid entry makes it raise INVALID_TREE(MISSING_CODE), unless the output ran full before. -/
def Obligations.HpackAgreesWithPack : Prop :=
  ∀ s : State, s.inLen.toNat ≤ s.ibufBytes → (∀ b, (s.ct.at b).legal) →
    (covers s.ct s.input → (pack s.ct s.input).1.length ≤ s.obufBytes → ∃ t, exec .hpack s = .next t ∧ t.completed ∧
      t.output = (pack s.ct s.input).1 ∧ t.outLen.toNat = (pack s.ct s.input).1.length ∧
      t.pad.toNat = (pack s.ct s.input).2) ∧
    (covers s.ct s.input → s.obufBytes < (pack s.ct s.input).1.length →
      ∃ t, exec .hpack s = .next t ∧ t.failedWith 0x0105) ∧
    (∀ (D D' : List Byte) (b : Byte), s.input = D ++ b :: D' → covers s.ct D → (s.ct.at b).valid = false →
      2 * D.length ≤ s.obufBytes → ∃ t, exec .hpack s = .next t ∧ t.failedWith 0x0203)

/-- R181, R182: for a legal prefix-free table the register loop of HWALK does what `walk` does on the payload's bits, output and
error alike. -/
def Obligations.HwalkAgreesWithWalk : Prop :=
  ∀ s : State, s.inLen.toNat ≤ s.ibufBytes → s.ct.Good → s.pad.toNat ≤ 8 * s.inLen.toNat →
    (∀ out, walk s.obufBytes s.ct (payloadBits s.input s.pad.toNat) [] [] = .ok out →
      ∃ t, exec .hwalk s = .next t ∧ t.completed ∧ t.output = out ∧ t.outLen.toNat = out.length) ∧
    (∀ e, walk s.obufBytes s.ct (payloadBits s.input s.pad.toNat) [] [] = .error e →
      ∃ t, exec .hwalk s = .next t ∧ t.status = .error ∧ t.err = e.reg ∧ t.outLen = 0)

/-- R182: what HWALK makes of the payload's bits: the data of a code stream, CAPACITY(OUT_FULL), MID_PATH or DEAD_PATH; and
PAD_EXCEEDS when there are fewer bits than padding. -/
def Obligations.HwalkDecodesCodeStream : Prop :=
  ∀ s : State, s.inLen.toNat ≤ s.ibufBytes → s.ct.Good →
    ∃ t, exec .hwalk s = .next t ∧
      (s.pad.toNat ≤ 8 * s.inLen.toNat → t.decodes s.obufBytes s.ct (payloadBits s.input s.pad.toNat)) ∧
      (8 * s.inLen.toNat < s.pad.toNat → t.failedWith 0x0A01)

/-- R186: HCOMP leaves FREQ, the tree, CT and NSYM as the sequence FREQ; TBUILD; DERIVE leaves them, and its output is the block
of R185 for that table, when the block fits. -/
def Obligations.HcompMatchesUnitCommands : Prop :=
  ∀ s a b c : State, s.inLen.toNat ≤ s.ibufBytes → exec .freq s = .next a → exec .tbuild a = .next b →
    exec .derive b = .next c →
    (c.completed → ∀ block, block = huffBlock c.ct c.ct.count s.input →
      (block.length ≤ s.obufBytes → ∃ t, exec .hcomp s = .next t ∧ t.completed ∧ t.freq = c.freq ∧ t.node = c.node ∧
        t.nnodes = c.nnodes ∧ t.root = c.root ∧ t.ct = c.ct ∧ t.nsym = c.nsym ∧ t.output = block ∧
        t.outLen.toNat = block.length ∧ t.pad.toNat = (byteAt block 0).toNat) ∧
      (s.obufBytes < block.length → ∃ t, exec .hcomp s = .next t ∧ t.failedWith 0x0105)) ∧
    (c.status = .error → ∃ t, exec .hcomp s = .next t ∧ t.failedWith 0x0004)

/-- R187: HCOMP on empty input and on input that is one symbol repeated. -/
def Obligations.HcompShortCircuits : Prop :=
  ∀ s : State, s.inLen.toNat ≤ s.ibufBytes →
    (s.inLen = 0 → 3 ≤ s.obufBytes →
      ∃ t, exec .hcomp s = .next t ∧ t.completed ∧ t.output = [0x00, 0x00, 0x00] ∧ t.outLen = 3 ∧ t.pad = 0) ∧
    (∀ b, s.inLen ≠ 0 → (∀ a < s.inLen.toNat, s.ibufAt a = b) → 11 ≤ s.obufBytes →
      ∃ t, exec .hcomp s = .next t ∧ t.completed ∧ t.outLen = 11 ∧ t.pad = 0 ∧
        t.output = [0x00, 0x00, 0x01, b, 0x01, 0x00, 0x00, s.inLen.extractLsb' 24 8, s.inLen.extractLsb' 16 8,
          s.inLen.extractLsb' 8 8, s.inLen.extractLsb' 0 8])

/-- R141, R153, R186: HCOMP completes on every input with at most 17 different symbols when the output has room. -/
def Obligations.HcompCompletesOnFewSymbols : Prop :=
  ∀ s : State, s.inLen.toNat ≤ s.ibufBytes → (s.input.dedup).length ≤ 17 →
    71 + 2 * s.inLen.toNat ≤ s.obufBytes → ∃ t, exec .hcomp s = .next t ∧ t.completed

/-- R189, R190, R273: HDECOMP on a block whose table parses: nothing for an empty table, the symbol repeated for a one-entry table
with a 4-byte count, else the walk over the payload, with its data or the first of OUT_FULL, DEAD_PATH and MID_PATH to arise; CT,
NSYM, PAD and CONSUMED are loaded. -/
def Obligations.HdecompDecodesBlock : Prop :=
  ∀ (s : State) (T : CodeTable) (n : Nat) (B : List Byte), s.inLen.toNat ≤ s.ibufBytes → s.input = B → 3 ≤ B.length →
    (byteAt B 0).toNat ≤ 7 → parseTable B 1 = .ok (T, n) →
    ∃ t, exec .hdecomp s = .next t ∧
      (t.completed → t.ct = T ∧ t.nsym.toNat = n ∧ t.pad.toNat = (byteAt B 0).toNat ∧ t.consumed.toNat = 3 + 4 * n) ∧
      (n = 0 → t.completed ∧ t.output = []) ∧
      (n = 1 → B.length ≠ 11 → t.failedWith 0x0901) ∧
      (n = 1 → B.length = 11 → ∀ b, (T.at b).valid = true → (readBe32 B 7).toNat ≤ s.obufBytes →
        t.completed ∧ t.output = List.replicate (readBe32 B 7).toNat b) ∧
      (n = 1 → B.length = 11 → s.obufBytes < (readBe32 B 7).toNat → t.failedWith 0x0105) ∧
      (2 ≤ n → 8 * (B.length - (3 + 4 * n)) < (byteAt B 0).toNat → t.failedWith 0x0A01) ∧
      (2 ≤ n → (byteAt B 0).toNat ≤ 8 * (B.length - (3 + 4 * n)) →
        t.decodes s.obufBytes T (payloadBits (B.drop (3 + 4 * n)) (byteAt B 0).toNat))

/-- R193: decompressing a compressed input gives the input back. -/
def Obligations.HuffmanRoundTrip : Prop :=
  ∀ s t u : State, exec .hcomp s = .next t → t.completed → u.inLen = t.outLen → u.inLen.toNat ≤ u.ibufBytes →
    (∀ a < t.outLen.toNat, u.ibufAt a = t.obufAt a) → s.inLen.toNat ≤ u.obufBytes →
    ∃ v, exec .hdecomp u = .next v ∧ v.completed ∧ v.output = s.input

/-! ### Units U4 and U5 -/

/-- R211 to R213: `lz_find` gives a longest run of the window, the one at the lowest position, bounded by the end of the data
only; and none when no byte of the window equals the byte at `i`. -/
def Obligations.LzFindIsLongestAndFirst : Prop :=
  ∀ (D : List Byte) (i w off len : Nat), i < D.length → lzFind D i w = (off, len) →
    (len = 0 → off = 0 ∧ ∀ j < i, i ≤ j + w → byteAt D j ≠ byteAt D i) ∧
    (len ≠ 0 → 1 ≤ off ∧ off ≤ i ∧ off ≤ w ∧ i + len ≤ D.length ∧
      (∀ m < len, byteAt D (i - off + m) = byteAt D (i + m)) ∧
      (∀ j < i, i ≤ j + w → ¬ (i + len < D.length ∧ ∀ m ≤ len, byteAt D (j + m) = byteAt D (i + m))) ∧
      (∀ j < i - off, i ≤ j + w → ¬ ∀ m < len, byteAt D (j + m) = byteAt D (i + m)))

/-- R215: the token LZFIND leaves and where LZ_POS goes, for a match inside the input, a match that reaches its end, no match,
and an exhausted input. -/
def Obligations.LzfindWritesToken : Prop :=
  ∀ (s : State) (i off len : Nat), s.inLen.toNat ≤ s.ibufBytes → i = s.lzPos.toNat →
    (off, len) = lzFind s.input i s.windowSize.toNat →
    ∃ t, exec .lzfind s = .next t ∧ t.completed ∧
      (s.inLen.toNat ≤ i → t.token = ⟨0, 0, 0, false⟩ ∧ t.lzPos = s.lzPos) ∧
      (i < s.inLen.toNat → 1 ≤ len → i + len < s.inLen.toNat →
        t.tokOffset.toNat = off ∧ t.tokLength.toNat = len ∧ t.tokLit = s.ibufAt (i + len) ∧ t.tokLitv = true ∧
        t.lzPos.toNat = i + len + 1) ∧
      (i < s.inLen.toNat → 1 ≤ len → i + len = s.inLen.toNat →
        t.tokOffset.toNat = off ∧ t.tokLength.toNat = len ∧ t.tokLit = 0 ∧ t.tokLitv = false ∧ t.lzPos = s.inLen) ∧
      (i < s.inLen.toNat → len = 0 →
        t.token = ⟨0, 0, s.ibufAt i, true⟩ ∧ t.lzPos.toNat = i + 1)

/-- R218, R220, R313: LZREPLAY of a valid token keeps the output so far, then appends `len` bytes, each equal to the byte `off`
places before it as the output then stands, then the literal if there is one. -/
def Obligations.LzreplayCopies : Prop :=
  ∀ (s : State) (n : Nat), s.outLen.toNat = n → (s.tokOffset = 0 ↔ s.tokLength = 0) → s.tokOffset.toNat ≤ n →
    n + s.tokLength.toNat + s.tokLitv.toNat ≤ s.obufBytes →
    ∃ t, exec .lzreplay s = .next t ∧ t.completed ∧
      t.outLen.toNat = n + s.tokLength.toNat + s.tokLitv.toNat ∧
      (∀ a < n, t.obufAt a = s.obufAt a) ∧
      (∀ m < s.tokLength.toNat, t.obufAt (n + m) = t.obufAt (n + m - s.tokOffset.toNat)) ∧
      (s.tokLitv = true → t.obufAt (n + s.tokLength.toNat) = s.tokLit)

/-- R218, R219: the three invalid tokens, checked in order before any byte is written, and CAPACITY(OUT_FULL). -/
def Obligations.LzreplayRejects : Prop :=
  ∀ s : State, ∃ t, exec .lzreplay s = .next t ∧
    (s.tokOffset = 0 → s.tokLength ≠ 0 → t.failedWith 0x0102) ∧
    (s.tokOffset ≠ 0 → s.tokLength = 0 → t.failedWith 0x0202) ∧
    (s.tokOffset ≠ 0 → s.tokLength ≠ 0 → s.outLen.toNat < s.tokOffset.toNat → t.failedWith 0x0302) ∧
    ((s.tokOffset = 0 ↔ s.tokLength = 0) → s.tokOffset.toNat ≤ s.outLen.toNat → s.outLen.toNat ≤ s.obufBytes →
      s.obufBytes < s.outLen.toNat + s.tokLength.toNat + s.tokLitv.toNat → t.failedWith 0x0105)

/-- R216, R225: LZCOMP's tokens are the ones that LZFIND leaves when it is run from LZ_POS 0 until the input is used up. It writes
their records in order, leaves LZ_POS at IN_LEN and the last token in the registers; with no room it raises CAPACITY(OUT_FULL). -/
def Obligations.LzcompWritesRecords : Prop :=
  ∀ s : State, s.inLen.toNat ≤ s.ibufBytes →
    (∃ ts, lzfindLeaves { s with lzPos := 0 } ts) ∧
    ∀ ts : List Token, lzfindLeaves { s with lzPos := 0 } ts →
      (10 * ts.length ≤ s.obufBytes → ∃ t, exec .lzcomp s = .next t ∧ t.completed ∧ t.output = ts.flatMap Token.ser ∧
        t.outLen.toNat = 10 * ts.length ∧ t.lzPos = s.inLen ∧ t.token = ts.getLastD s.token) ∧
      (s.obufBytes < 10 * ts.length → ∃ t, exec .lzcomp s = .next t ∧ t.failedWith 0x0105)

/-- R217: a token record reads back as the token. -/
def Obligations.TokenRecordRoundTrip : Prop :=
  (∀ t : Token, (t.litv = false → t.lit = 0) → t.ser.length = 10 ∧ Token.parse t.ser = .ok t) ∧
  (∀ K : List Byte, byteAt K 8 &&& 0xFE ≠ 0 → Token.parse K = .error .tokenFlags)

/-- R217, R218, R228: LZDECOMP of the records of a list of valid tokens completes; after the bytes the tokens before it gave, each
token gives its match, every byte of it equal to the byte `off` places before it, and then its literal; the last token stands in the
registers. R101, R102: a stream whose length is no multiple of 10 is corrupt before any record is read, and so is one whose first
record has a reserved flag bit set. -/
def Obligations.LzdecompReplaysTokenStream : Prop :=
  ∀ s : State, s.inLen.toNat ≤ s.ibufBytes →
    (∀ ts : List Token, s.input = ts.flatMap Token.ser → (∀ t ∈ ts, t.litv = false → t.lit = 0) →
      (∀ pre t post, ts = pre ++ t :: post → (t.offset = 0 ↔ t.length = 0) ∧ t.offset.toNat ≤ producedLength pre) →
      producedLength ts ≤ s.obufBytes →
      ∃ u, exec .lzdecomp s = .next u ∧ u.completed ∧ u.outLen.toNat = producedLength ts ∧ u.token = ts.getLastD s.token ∧
        ∀ pre t post n, ts = pre ++ t :: post → n = producedLength pre →
          (∀ m < t.length.toNat, u.obufAt (n + m) = u.obufAt (n + m - t.offset.toNat)) ∧
          (t.litv = true → u.obufAt (n + t.length.toNat) = t.lit)) ∧
    (s.inLen.toNat % 10 ≠ 0 → ∃ u, exec .lzdecomp s = .next u ∧ u.failedWith 0x0D01) ∧
    (s.inLen.toNat % 10 = 0 → s.inLen ≠ 0 → s.ibufAt 8 &&& 0xFE ≠ 0 → ∃ u, exec .lzdecomp s = .next u ∧ u.failedWith 0x0E01)

/-- R228, D39: LZDECOMP does what its records do one by one from the empty output: same output, same token registers; and it
fails with the error of the first record that fails. -/
def Obligations.LzdecompRunsItsRecords : Prop :=
  ∀ (s u v : State) (n : Nat) (is : List Instr), s.inLen.toNat ≤ s.ibufBytes → s.inLen.toNat = 10 * n →
    s.status = .busy →
    (recordsOf n s.input).map (fun K => decode (.record (.token (tokenWordOf K)))) = is.map Except.ok →
    u = { s with obuf := [], outLen := 0 } →
    (execAll is u = .next v → (∀ pre post w, is = pre ++ post → execAll pre u = .next w → w.status = .busy) →
      ∃ t, exec .lzdecomp s = .next t ∧ t.completed ∧ t.output = v.output ∧ t.token = v.token) ∧
    (∀ pre i post w x, is = pre ++ i :: post → execAll pre u = .next w → exec i w = .next x → x.status = .error →
      (∀ pre' post' y, pre = pre' ++ post' → execAll pre' u = .next y → y.status = .busy) →
      ∃ t, exec .lzdecomp s = .next t ∧ t.status = .error ∧ t.err = x.err)

/-- R230: decompressing the token stream of an input gives the input back, for every window size. -/
def Obligations.LzRoundTrip : Prop :=
  ∀ s t u : State, exec .lzcomp s = .next t → t.completed → u.inLen = t.outLen → u.inLen.toNat ≤ u.ibufBytes →
    (∀ a < t.outLen.toNat, u.ibufAt a = t.obufAt a) → s.inLen.toNat ≤ u.obufBytes →
    ∃ v, exec .lzdecomp u = .next v ∧ v.completed ∧ v.output = s.input

/-! ### Records -/

/-- R91, R189 (log 11 for what a record does outside its command): a header record sets PAD and starts an empty table. -/
def Obligations.HeaderRecordStartsTable : Prop :=
  ∀ (s : State) (p : Byte) (n : BitVec 16), ∃ t, exec (.hblockHeader p n) s = .next t ∧
    (p.toNat ≤ 7 → n.toNat ≤ 256 → t.status = s.status ∧ t.pad.toNat = p.toNat ∧ (∀ b, t.ct.at b = ⟨false, 0, 0⟩) ∧
      t.nsym = 0 ∧ t.consumed = 3 ∧ KeepsUnlisted hblockWrites s t ∧ t.outLen = s.outLen ∧
      ∀ a, t.obufAt a = s.obufAt a) ∧
    (7 < p.toNat → t.failedWith 0x0201) ∧
    (p.toNat ≤ 7 → 256 < n.toNat → t.failedWith 0x0301)

/-- R92, R157 (log 11): an entry record puts one code into the table, or raises the first of its three checks that fails. -/
def Obligations.EntryRecordAddsCode : Prop :=
  ∀ (s : State) (b len : Byte) (v : BitVec 16), ∃ t, exec (.hblockEntry b len v) s = .next t ∧
    (1 ≤ len.toNat → len.toNat ≤ 16 → v.toNat < 2 ^ len.toNat → (s.ct.at b).valid = false →
      t.status = s.status ∧ t.ct.at b = ⟨true, len.setWidth 5, v⟩ ∧ (∀ c, c ≠ b → t.ct.at c = s.ct.at c) ∧
      t.nsym = s.nsym + 1 ∧ t.consumed = s.consumed + 4 ∧ t.pad = s.pad ∧ KeepsUnlisted hblockWrites s t ∧
      t.outLen = s.outLen ∧ ∀ a, t.obufAt a = s.obufAt a) ∧
    (len.toNat = 0 ∨ 16 < len.toNat → t.failedWith 0x0501) ∧
    (1 ≤ len.toNat → len.toNat ≤ 16 → 2 ^ len.toNat ≤ v.toNat → t.failedWith 0x0601) ∧
    (1 ≤ len.toNat → len.toNat ≤ 16 → v.toNat < 2 ^ len.toNat → (s.ct.at b).valid = true → t.failedWith 0x0701)

/-- R93, R189 (log 11): a count record gives the one symbol of the table that many times. -/
def Obligations.CountRecordRepeatsSymbol : Prop :=
  ∀ (s : State) (b : Byte) (n : Word), (∀ c, (s.ct.at c).valid = true ↔ c = b) →
    ∃ t, exec (.hblockCount n) s = .next t ∧
      (n.toNat ≤ s.obufBytes → t.status = s.status ∧ t.outLen = n ∧ t.output = List.replicate n.toNat b ∧
        KeepsUnlisted Writes.none s t) ∧
      (s.obufBytes < n.toNat → t.failedWith 0x0105)

/-- R99, R218 (log 10): the four valid kinds of token record, on every output so far, the empty one too: the token registers are
written, the output so far is kept, the match is copied byte by byte, the literal is appended; the command goes on. -/
def Obligations.TokenRecordsReplay : Prop :=
  ∀ (s : State) (x : Byte) (n : Nat), s.outLen.toNat = n →
    (n < s.obufBytes → ∃ t, exec (.tokenLit x) s = .next t ∧ t.status = s.status ∧ t.token = ⟨0, 0, x, true⟩ ∧
      t.output = s.output ++ [x] ∧ KeepsUnlisted tokenWrites s t) ∧
    (∃ t, exec (.tokenNull x) s = .next t ∧ t.status = s.status ∧ t.token = ⟨0, 0, 0, false⟩ ∧
      t.output = s.output ∧ KeepsUnlisted tokenWrites s t) ∧
    (∀ off len : Word, off ≠ 0 → len ≠ 0 → off.toNat ≤ n →
      (n + len.toNat < s.obufBytes → ∃ t, exec (.tokenMatch off len x) s = .next t ∧ t.status = s.status ∧
        t.token = ⟨off, len, x, true⟩ ∧ t.outLen.toNat = n + len.toNat + 1 ∧ (∀ a < n, t.obufAt a = s.obufAt a) ∧
        (∀ m < len.toNat, t.obufAt (n + m) = t.obufAt (n + m - off.toNat)) ∧ t.obufAt (n + len.toNat) = x ∧
        KeepsUnlisted tokenWrites s t) ∧
      (n + len.toNat ≤ s.obufBytes → ∃ t, exec (.tokenMatchend off len x) s = .next t ∧ t.status = s.status ∧
        t.token = ⟨off, len, 0, false⟩ ∧ t.outLen.toNat = n + len.toNat ∧ (∀ a < n, t.obufAt a = s.obufAt a) ∧
        (∀ m < len.toNat, t.obufAt (n + m) = t.obufAt (n + m - off.toNat)) ∧ KeepsUnlisted tokenWrites s t))

/-- R99, R218, R219: the two invalid kinds of token record, and a match that reaches before the start of the output. What a record
does and keeps when it is run alone is the model's choice (log 10). -/
def Obligations.InvalidTokenRecordsRaise : Prop :=
  ∀ (s : State) (off len : Word) (litv : Bool) (x : Byte), off ≠ 0 → len ≠ 0 →
    (∃ t, exec (.tokenInvalidLenNoOffset len litv x) s = .next t ∧ t.failedWith 0x0102 ∧ KeepsUnlisted tokenWrites s t) ∧
    (∃ t, exec (.tokenInvalidZeroLength off litv x) s = .next t ∧ t.failedWith 0x0202 ∧ KeepsUnlisted tokenWrites s t) ∧
    (s.outLen.toNat < off.toNat → ∃ t, exec (.tokenMatch off len x) s = .next t ∧ t.failedWith 0x0302) ∧
    (s.outLen.toNat < off.toNat → ∃ t, exec (.tokenMatchend off len x) s = .next t ∧ t.failedWith 0x0302)

/-! ### Invariants -/

/-- The state after reset meets every invariant. -/
def Obligations.ResetMeetsInvariant : Prop := State.reset.Inv

/-- R38: IBUF keeps its canonical form, within its size. -/
def Obligations.StepKeepsIbufCanonical : Prop := ∀ s t : State, s.IbufOk → step s = .next t → t.IbufOk

/-- R25, R34, R36, R37: between steps PQ is empty and ACC and WALK are 0, and ERR matches STATE. -/
def Obligations.StepKeepsUnitsClearAndErrMatching : Prop :=
  ∀ s t : State, s.UnitsClear → s.ErrOk → step s = .next t → t.UnitsClear ∧ t.ErrOk

/-- R35: outside ERROR the code table stays legal and prefix-free. -/
def Obligations.StepKeepsCodeTablePrefixFree : Prop :=
  ∀ s t : State, s.UnitsClear → s.CodeTableOk → step s = .next t → t.CodeTableOk

/-- R33, R141: outside ERROR the node store stays a tree. -/
def Obligations.StepKeepsTreeShape : Prop :=
  ∀ s t : State, s.UnitsClear → s.TreeShape → step s = .next t → t.TreeShape

/-- The whole invariant: also OUT_LEN <= OBUF_BYTES with exactly `OBUF[0..OUT_LEN)` defined (R26, R39), and NSYM the number of
valid entries (R31). -/
def Obligations.StepKeepsInvariant : Prop := ∀ s t : State, s.Inv → step s = .next t → t.Inv
end

