-- ==== Sys2Proof/Laws/Memory.lean ====
section
/-! SUPPORT. The byte arrays: reading after writing, the canonical form, and what `setOutput` leaves to be read. -/

namespace Sys2Proof.Machine

/-! ### Reading after writing -/

@[simp] theorem Memory.lookup_nil (a : Nat) : Memory.lookup [] a = none := rfl

/-- Reading the byte just written gives it, canonical form or not. -/
@[simp] theorem Memory.lookup_write_self (m : Memory) (a : Nat) (b : Byte) :
    Memory.lookup (Memory.write m a b) a = some b := by
  induction m with
  | nil => simp [Memory.write, Memory.lookup]
  | cons c m ih =>
    obtain ⟨k, x⟩ := c
    rcases lt_trichotomy a k with h | h | h
    · simp [Memory.write, Memory.lookup, h]
    · simp [Memory.write, Memory.lookup, h]
    · have h1 : ¬ a < k := by omega
      have h2 : a ≠ k := by omega
      simp [Memory.write, Memory.lookup, h1, h2, Ne.symm h2, ih]

/-- A write leaves every other address alone. -/
theorem Memory.lookup_write_ne (m : Memory) {a a' : Nat} (b : Byte) (h : a' ≠ a) :
    Memory.lookup (Memory.write m a b) a' = Memory.lookup m a' := by
  induction m with
  | nil => simp [Memory.write, Memory.lookup, h.symm]
  | cons c m ih =>
    obtain ⟨k, x⟩ := c
    rcases lt_trichotomy a k with h1 | h1 | h1
    · simp [Memory.write, Memory.lookup, h1, h.symm]
    · subst h1
      simp [Memory.write, Memory.lookup, h.symm]
    · have h2 : ¬ a < k := by omega
      have h3 : a ≠ k := by omega
      simp [Memory.write, Memory.lookup, h2, h3, ih]

/-- The byte an `ofBytes` array lists. -/
theorem Memory.lookup_ofBytes (B : List Byte) (a k : Nat) :
    Memory.lookup (Memory.ofBytes a B) (a + k) = B[k]? := by
  induction B generalizing a k with
  | nil => simp [Memory.ofBytes]
  | cons b B ih =>
    cases k with
    | zero => simp [Memory.ofBytes, Memory.lookup]
    | succ k =>
      have h : a + (k + 1) = a + 1 + k := by omega
      have h1 : a ≠ a + 1 + k := by omega
      simp [Memory.ofBytes, Memory.lookup, h, h1, ih]

@[simp] theorem Memory.lookup_ofBytes_zero (B : List Byte) (k : Nat) :
    Memory.lookup (Memory.ofBytes 0 B) k = B[k]? := by
  simpa using Memory.lookup_ofBytes B 0 k

/-! ### The canonical form -/

theorem Memory.wf_nil : Memory.wf [] := List.Pairwise.nil

/-- Every address a write lists was listed before or is the one written. -/
theorem Memory.mem_write {m : Memory} {a : Nat} {b : Byte} {c : Host.Cell} (h : c ∈ Memory.write m a b) :
    c = (a, b) ∨ c ∈ m := by
  induction m with
  | nil => simpa [Memory.write] using h
  | cons d m ih =>
    obtain ⟨k, x⟩ := d
    unfold Memory.write at h
    split at h
    · simpa using h
    · split at h
      · rcases List.mem_cons.1 h with h | h
        · exact .inl h
        · exact .inr (List.mem_cons_of_mem _ h)
      · rcases List.mem_cons.1 h with h | h
        · exact .inr (h ▸ List.mem_cons_self)
        · exact (ih h).imp id (List.mem_cons_of_mem _)

/-- A write keeps the canonical form. -/
theorem Memory.write_wf {m : Memory} (a : Nat) (b : Byte) (h : Memory.wf m) : Memory.wf (Memory.write m a b) := by
  induction m with
  | nil => simp [Memory.write, Memory.wf]
  | cons d m ih =>
    obtain ⟨k, x⟩ := d
    obtain ⟨hk, hm⟩ := List.pairwise_cons.1 h
    unfold Memory.write
    split
    · rename_i hlt
      refine List.pairwise_cons.2 ⟨fun c hc => ?_, h⟩
      rcases List.mem_cons.1 hc with rfl | hc
      · exact hlt
      · exact hlt.trans (hk c hc)
    · split
      · rename_i h1 h2
        subst h2
        exact List.pairwise_cons.2 ⟨hk, hm⟩
      · rename_i h1 h2
        refine List.pairwise_cons.2 ⟨fun c hc => ?_, ih hm⟩
        rcases Memory.mem_write hc with rfl | hc
        · have : k < a := by omega
          exact this
        · exact hk c hc

theorem Memory.map_fst_ofBytes (B : List Byte) (a : Nat) :
    (Memory.ofBytes a B).map Prod.fst = List.range' a B.length := by
  induction B generalizing a with
  | nil => rfl
  | cons b B ih => simp [Memory.ofBytes, ih, List.range'_succ]

/-- An `ofBytes` array is in canonical form. -/
theorem Memory.ofBytes_wf (B : List Byte) (a : Nat) : Memory.wf (Memory.ofBytes a B) := by
  have h : ((Memory.ofBytes a B).map Prod.fst).Pairwise (· < ·) := by
    rw [Memory.map_fst_ofBytes]
    exact List.pairwise_lt_range'
  exact List.pairwise_map.1 h

/-- Two arrays in canonical form that read alike are the same data. -/
theorem Memory.ext_of_lookup {m m' : Memory} (h : Memory.wf m) (h' : Memory.wf m')
    (hl : ∀ a, Memory.lookup m a = Memory.lookup m' a) : m = m' := by
  have absent : ∀ {k : Nat} {n : Memory}, (∀ c ∈ n, k < c.1) → Memory.lookup n k = none := by
    intro k n hn
    induction n with
    | nil => rfl
    | cons c n ih =>
      obtain ⟨j, x⟩ := c
      have h1 : k < j := hn (j, x) List.mem_cons_self
      have h2 : j ≠ k := by omega
      simp only [Memory.lookup, h2, if_false]
      exact ih fun c hc => hn c (List.mem_cons_of_mem _ hc)
  induction m generalizing m' with
  | nil =>
    cases m' with
    | nil => rfl
    | cons c m' => simpa [Memory.lookup] using hl c.1
  | cons c m ih =>
    obtain ⟨k, x⟩ := c
    cases m' with
    | nil => simpa [Memory.lookup] using hl k
    | cons c' m' =>
      obtain ⟨k', x'⟩ := c'
      obtain ⟨hk, hm⟩ := List.pairwise_cons.1 h
      obtain ⟨hk', hm'⟩ := List.pairwise_cons.1 h'
      rcases lt_trichotomy k k' with hlt | heq | hlt
      · have h1 := hl k
        have h2 : k' ≠ k := by omega
        rw [Memory.lookup, Memory.lookup, if_pos rfl, if_neg h2, absent fun c hc => hlt.trans (hk' c hc)] at h1
        cases h1
      · subst heq
        have hx : x = x' := by simpa [Memory.lookup] using hl k
        subst hx
        congr 1
        refine ih hm hm' fun a => ?_
        by_cases ha : k = a
        · subst ha
          rw [absent fun c hc => hk c hc, absent fun c hc => hk' c hc]
        · simpa [Memory.lookup, ha] using hl a
      · have h1 := hl k'
        have h2 : k ≠ k' := by omega
        rw [Memory.lookup, Memory.lookup, if_pos rfl, if_neg h2, absent fun c hc => hlt.trans (hk c hc)] at h1
        cases h1

/-- The byte arrays right after reset. -/
theorem State.reset_memory_wf : Memory.wf State.reset.ibuf ∧ Memory.wf State.reset.obuf :=
  ⟨Memory.wf_nil, Memory.wf_nil⟩

/-! ### Input and output -/

@[simp] theorem State.input_length (s : State) : s.input.length = s.inLen.toNat := by simp [State.input]

@[simp] theorem State.output_length (s : State) : s.output.length = s.outLen.toNat := by simp [State.output]

theorem State.byteAt_input (s : State) {a : Nat} (h : a < s.inLen.toNat) : byteAt s.input a = s.ibufAt a := by
  simp [byteAt, State.input, h]

theorem State.byteAt_output (s : State) {a : Nat} (h : a < s.outLen.toNat) : byteAt s.output a = s.obufAt a := by
  simp [byteAt, State.output, h]

/-- What a command wrote to OBUF, byte by byte. -/
theorem State.obufAt_setOutput (s : State) (out : List Byte) {a : Nat} (h : a < out.length) :
    (s.setOutput out).obufAt a = out[a] := by
  simp [State.obufAt, State.setOutput, h]

/-- OUT_LEN after a command that wrote `out`. -/
theorem State.outLen_setOutput (s : State) {out : List Byte} (h : out.length < 2 ^ 32) :
    (s.setOutput out).outLen.toNat = out.length := by
  simpa [State.setOutput] using h

/-- What a command wrote is what OBUF[0..OUT_LEN) holds. -/
theorem State.output_setOutput (s : State) {out : List Byte} (h : out.length < 2 ^ 32) :
    (s.setOutput out).output = out := by
  refine List.ext_getElem ?_ fun a h1 h2 => ?_
  · rw [State.output_length, State.outLen_setOutput s h]
  · simpa [State.output] using State.obufAt_setOutput s out h2

/-- OBUF lists exactly the output after a command that fits. -/
theorem State.setOutput_outputOk (s : State) {out : List Byte} (h : out.length ≤ s.obufBytes) :
    (s.setOutput out).OutputOk := by
  have h1 := State.outLen_setOutput s (lt_of_le_of_lt h s.cfg.obufBytes.isLt)
  refine ⟨?_, ?_⟩
  · rw [h1]
    simp [State.setOutput, Memory.map_fst_ofBytes, List.range_eq_range']
  · rw [h1]
    exact h

/-- A host write keeps IBUF in canonical form within its size. -/
theorem State.IbufOk.write {s : State} (h : s.IbufOk) {a : Nat} (ha : a < s.ibufBytes) (b : Byte) :
    State.IbufOk { s with ibuf := Memory.write s.ibuf a b } where
  rising := Memory.write_wf a b h.rising
  bounded := by
    intro c hc
    rcases Memory.mem_write hc with rfl | hc
    · exact ha
    · exact h.bounded c hc

end Sys2Proof.Machine
end

