-- ==== Sys2Proof/Laws/Emit.lean ====
section
/-! SUPPORT. What `emit` and the loops over it can do (R276, R218): the output grows at its end, never past the capacity, and
the only error they raise is CAPACITY(OUT_FULL). -/

namespace Sys2Proof.Machine

theorem emit_of_lt {cap : Nat} {out : List Byte} (b : Byte) (h : out.length < cap) :
    emit cap out b = .ok (out ++ [b]) := by
  simp [emit, h.ne]

/-- Everything `emit` can do. -/
theorem emit_cases (cap : Nat) (out : List Byte) (b : Byte) :
    (out.length ≠ cap ∧ emit cap out b = .ok (out ++ [b])) ∨ (out.length = cap ∧ emit cap out b = .error .outFull) := by
  by_cases h : out.length = cap
  · exact .inr ⟨h, by simp [emit, h]⟩
  · exact .inl ⟨h, by simp [emit, h]⟩

/-- `emitAll` on an output within the capacity: all the bytes are appended when they fit, else CAPACITY(OUT_FULL). -/
theorem emitAll_eq (cap : Nat) (out bs : List Byte) (h : out.length ≤ cap) :
    emitAll cap out bs = if out.length + bs.length ≤ cap then .ok (out ++ bs) else .error .outFull := by
  induction bs generalizing out with
  | nil => simp [emitAll, h]
  | cons b bs ih =>
    rcases emit_cases cap out b with ⟨hne, he⟩ | ⟨heq, he⟩
    · have hlt : (out ++ [b]).length ≤ cap := by
        simp
        omega
      have hb : ∀ x, (do let o ← (Except.ok (out ++ [b]) : Except ErrorCause _); emitAll cap o x) =
          emitAll cap (out ++ [b]) x := fun _ => rfl
      simp only [emitAll, he, hb, ih _ hlt]
      simp only [List.length_append, List.length_cons, List.length_nil, List.append_assoc, List.cons_append, List.nil_append]
      congr 1
      simp only [eq_iff_iff]
      omega
    · have hno : ¬ out.length + (b :: bs).length ≤ cap := by
        simp
        omega
      simp only [emitAll, he, if_neg hno]
      rfl

/-- The bytes a copy of R218 appends: each is the byte `off` places before the end as it then stands. -/
def copied (off : Nat) : Nat → List Byte → List Byte
  | 0, out => out
  | m + 1, out => copied off m (out ++ [byteAt out (out.length - off)])

@[simp] theorem copied_length (off m : Nat) (out : List Byte) : (copied off m out).length = out.length + m := by
  induction m generalizing out with
  | zero => simp [copied]
  | succ m ih =>
    simp [copied, ih]
    omega

/-- A copy keeps the output before it. -/
theorem copied_prefix (off m : Nat) (out : List Byte) : out <+: copied off m out := by
  induction m generalizing out with
  | zero => simp [copied]
  | succ m ih => exact (List.prefix_append out _).trans (ih _)

theorem byteAt_of_prefix {A B : List Byte} (h : A <+: B) {a : Nat} (ha : a < A.length) : byteAt B a = byteAt A a := by
  obtain ⟨C, rfl⟩ := h
  simp [byteAt, List.getElem?_append_left ha, ha]

/-- Byte `k` of a copy is the byte `off` places before it, the copied bytes among them (R313). -/
theorem byteAt_copied (off m : Nat) (out : List Byte) (h1 : 1 ≤ off) (h2 : off ≤ out.length) {k : Nat} (hk : k < m) :
    byteAt (copied off m out) (out.length + k) = byteAt (copied off m out) (out.length + k - off) := by
  induction m generalizing out k with
  | zero => omega
  | succ m ih =>
    have hpre := copied_prefix off m (out ++ [byteAt out (out.length - off)])
    cases k with
    | zero =>
      have e1 : byteAt (copied off (m + 1) out) out.length = byteAt out (out.length - off) := by
        rw [copied, byteAt_of_prefix hpre (by simp)]
        simp [byteAt]
      have e2 : byteAt (copied off (m + 1) out) (out.length - off) = byteAt out (out.length - off) :=
        byteAt_of_prefix (copied_prefix off (m + 1) out) (by omega)
      simp [e1, e2]
    | succ k =>
      have hl : (out ++ [byteAt out (out.length - off)]).length = out.length + 1 := by simp
      have h3 := ih (out ++ [byteAt out (out.length - off)]) (by omega) (k := k) (by omega)
      rw [hl] at h3
      have e : out.length + (k + 1) = out.length + 1 + k := by omega
      rw [e]
      exact h3

/-- The copy loop: all the bytes when they fit, else CAPACITY(OUT_FULL). -/
theorem copyBytes_eq (cap off m : Nat) (out : List Byte) (h : out.length ≤ cap) :
    copyBytes cap off m out = if out.length + m ≤ cap then .ok (copied off m out) else .error .outFull := by
  induction m generalizing out with
  | zero => simp [copyBytes, copied, h]
  | succ m ih =>
    rcases emit_cases cap out (byteAt out (out.length - off)) with ⟨hne, he⟩ | ⟨heq, he⟩
    · have hlt : (out ++ [byteAt out (out.length - off)]).length ≤ cap := by
        simp
        omega
      have hb : ∀ o, (do let o ← (Except.ok o : Except ErrorCause _); copyBytes cap off m o) =
          copyBytes cap off m o := fun _ => rfl
      simp only [copyBytes, he, hb, ih _ hlt, copied, List.length_append, List.length_cons, List.length_nil]
      congr 1
      simp only [eq_iff_iff]
      omega
    · have hno : ¬ out.length + (m + 1) ≤ cap := by omega
      simp only [copyBytes, he, if_neg hno]
      rfl

/-- A token R218 accepts on an output of `n` bytes. -/
def Token.validAt (t : Token) (n : Nat) : Prop := (t.offset = 0 ↔ t.length = 0) ∧ t.offset.toNat ≤ n

/-- `lz_apply` on a valid token: the copy and the literal when they fit, else CAPACITY(OUT_FULL). -/
theorem lzApply_valid {cap : Nat} {out : List Byte} {t : Token} (h : out.length ≤ cap) (ht : t.validAt out.length) :
    lzApply cap out t =
      if out.length + t.length.toNat + t.litv.toNat ≤ cap then
        .ok (copied t.offset.toNat t.length.toNat out ++ if t.litv then [t.lit] else [])
      else .error .outFull := by
  obtain ⟨hz, ho⟩ := ht
  have h1 : ¬ (t.offset = 0 ∧ t.length ≠ 0) := fun ⟨a, b⟩ => b (hz.1 a)
  have h2 : ¬ (t.offset ≠ 0 ∧ t.length = 0) := fun ⟨a, b⟩ => a (hz.2 b)
  have h3 : ¬ out.length < t.offset.toNat := by omega
  rw [lzApply, if_neg h1, if_neg h2, if_neg h3, copyBytes_eq cap _ _ out h]
  by_cases hm : out.length + t.length.toNat ≤ cap
  · rw [if_pos hm]
    have hb : ∀ (o : List Byte) (f : List Byte → Except ErrorCause (List Byte)),
        (do let o' ← (Except.ok o : Except ErrorCause _); f o') = f o := fun _ _ => rfl
    rw [hb]
    cases hl : t.litv
    · simp [hm]
    · rcases emit_cases cap (copied t.offset.toNat t.length.toNat out) t.lit with ⟨hne, he⟩ | ⟨heq, he⟩
      · rw [copied_length] at hne
        have : out.length + t.length.toNat + 1 ≤ cap := by omega
        simp [he, this]
      · rw [copied_length] at heq
        have : ¬ out.length + t.length.toNat + 1 ≤ cap := by omega
        simp [he, this]
  · have : ¬ out.length + t.length.toNat + t.litv.toNat ≤ cap := by omega
    rw [if_neg hm, if_neg this]
    rfl

/-- `lz_apply` on a token it rejects, in the order of R218. -/
theorem lzApply_invalid (cap : Nat) (out : List Byte) (t : Token) :
    (t.offset = 0 → t.length ≠ 0 → lzApply cap out t = .error .lenNoOffset) ∧
    (t.offset ≠ 0 → t.length = 0 → lzApply cap out t = .error .zeroLength) ∧
    (t.offset ≠ 0 → t.length ≠ 0 → out.length < t.offset.toNat → lzApply cap out t = .error .offsetRange) := by
  refine ⟨fun h1 h2 => ?_, fun h1 h2 => ?_, fun h1 h2 h3 => ?_⟩
  · rw [lzApply, if_pos ⟨h1, h2⟩]
  · rw [lzApply, if_neg fun h => h1 h.1, if_pos ⟨h1, h2⟩]
  · rw [lzApply, if_neg fun h => h1 h.1, if_neg fun h => h2 h.2, if_pos h3]

/-- An output `lz_apply` gives is within the capacity and starts with the output before it. -/
theorem lzApply_ok {cap : Nat} {out out' : List Byte} {t : Token} (h : out.length ≤ cap)
    (hr : lzApply cap out t = .ok out') : out'.length ≤ cap ∧ out <+: out' := by
  by_cases hv : t.validAt out.length
  · rw [lzApply_valid h hv] at hr
    split at hr
    · rename_i hc
      cases hr
      refine ⟨?_, (copied_prefix _ _ out).trans (List.prefix_append _ _)⟩
      cases hl : t.litv <;> simp [hl] at hc ⊢ <;> omega
    · cases hr
  · exfalso
    obtain ⟨h1, h2, h3⟩ := lzApply_invalid cap out t
    by_cases a : t.offset = 0 <;> by_cases b : t.length = 0
    · refine hv ⟨by simp [a, b], by simp [a]⟩
    · simp [h1 a b] at hr
    · simp [h2 a b] at hr
    · have hlt : out.length < t.offset.toNat := by
        by_contra hc
        exact hv ⟨⟨fun c => absurd c a, fun c => absurd c b⟩, by omega⟩
      simp [h3 a b hlt] at hr

/-- `rep` with its capacity check (R189). -/
theorem repeatSymbol_cases (cap : Nat) (s : Byte) (N : Word) :
    (N.toNat ≤ cap ∧ repeatSymbol cap s N = .ok (List.replicate N.toNat s)) ∨
    (cap < N.toNat ∧ repeatSymbol cap s N = .error .outFull) := by
  by_cases h : cap < N.toNat
  · exact .inr ⟨h, by simp [repeatSymbol, h]⟩
  · exact .inl ⟨by omega, by simp [repeatSymbol, h]⟩

end Sys2Proof.Machine
end

