-- ==== Sys2Proof/Laws/Encoding.lean ====
section
/-! SUPPORT. The words of records: joining fields and taking them out again. -/

namespace Sys2Proof

/-- Joining bit vectors, in numbers. -/
theorem toNat_append_add {m n : Nat} (x : BitVec m) (y : BitVec n) : (x ++ y).toNat = x.toNat * 2 ^ n + y.toNat := by
  rw [BitVec.toNat_append, ← Nat.shiftLeft_add_eq_or_of_lt y.isLt, Nat.shiftLeft_eq]

/-- A token record's words as a number. -/
theorem tokenWord_toNat (off len : Word) (litv : Bool) (lit : Byte) : (tokenWord off len litv lit).toNat =
    ((off.toNat * 2 ^ 32 + len.toNat) * 2 ^ 8 + (flagsByte litv).toNat) * 2 ^ 8 + lit.toNat := by
  unfold tokenWord
  erw [toNat_append_add, toNat_append_add, toNat_append_add]

/-- The fields of a token record's words (R98). -/
theorem tokenWord_fields (off len : Word) (litv : Bool) (lit : Byte) :
    (tokenWord off len litv lit).extractLsb' 48 32 = off ∧ (tokenWord off len litv lit).extractLsb' 16 32 = len ∧
    (tokenWord off len litv lit).getLsbD 8 = litv ∧ (tokenWord off len litv lit).extractLsb' 0 8 = lit ∧
    (tokenWord off len litv lit).extractLsb' 9 7 = 0 := by
  have h := tokenWord_toNat off len litv lit
  have hf : (flagsByte litv).toNat = litv.toNat := by cases litv <;> rfl
  have h1 := off.isLt
  have h2 := len.isLt
  have h3 := lit.isLt
  have h4 : litv.toNat ≤ 1 := by cases litv <;> decide
  rw [hf] at h
  refine ⟨?_, ?_, ?_, ?_, ?_⟩
  · apply BitVec.eq_of_toNat_eq
    rw [BitVec.extractLsb'_toNat, h, Nat.shiftRight_eq_div_pow]
    omega
  · apply BitVec.eq_of_toNat_eq
    rw [BitVec.extractLsb'_toNat, h, Nat.shiftRight_eq_div_pow]
    omega
  · rw [BitVec.getLsbD, h, Nat.testBit_eq_decide_div_mod_eq]
    have : (((off.toNat * 2 ^ 32 + len.toNat) * 2 ^ 8 + litv.toNat) * 2 ^ 8 + lit.toNat) / 2 ^ 8 % 2 = litv.toNat := by
      omega
    rw [this]
    cases litv <;> rfl
  · apply BitVec.eq_of_toNat_eq
    rw [BitVec.extractLsb'_toNat, h, Nat.shiftRight_eq_div_pow]
    omega
  · apply BitVec.eq_of_toNat_eq
    rw [BitVec.extractLsb'_toNat, h, Nat.shiftRight_eq_div_pow]
    simp only [BitVec.ofNat_eq_ofNat, BitVec.toNat_ofNat]
    omega

/-- How the decoder takes a token record apart. -/
theorem decodeToken_tokenWord (off len : Word) (litv : Bool) (lit : Byte) : decodeToken (tokenWord off len litv lit) =
    if off = 0 then
      if len = 0 then .ok (if litv then .tokenLit lit else .tokenNull lit)
      else .ok (.tokenInvalidLenNoOffset len litv lit)
    else if len = 0 then .ok (.tokenInvalidZeroLength off litv lit)
    else .ok (if litv then .tokenMatch off len lit else .tokenMatchend off len lit) := by
  obtain ⟨h1, h2, h3, h4, h5⟩ := tokenWord_fields off len litv lit
  simp only [decodeToken, h1, h2, h3, h4, h5, ne_eq, not_true_eq_false, if_false]

/-- The last field of two joined ones. -/
theorem extract_low {m n : Nat} (x : BitVec m) (y : BitVec n) : (x ++ y).extractLsb' 0 n = y := by
  apply BitVec.eq_of_toNat_eq
  rw [BitVec.extractLsb'_toNat, toNat_append_add, Nat.shiftRight_zero, Nat.mul_add_mod', Nat.mod_eq_of_lt y.isLt]

/-- A field of the first of two joined ones. -/
theorem extract_high {m n : Nat} (x : BitVec m) (y : BitVec n) (k w : Nat) :
    (x ++ y).extractLsb' (n + k) w = x.extractLsb' k w := by
  apply BitVec.eq_of_toNat_eq
  rw [BitVec.extractLsb'_toNat, BitVec.extractLsb'_toNat, toNat_append_add, Nat.shiftRight_add,
    Nat.shiftRight_eq_div_pow _ n, Nat.mul_comm, Nat.mul_add_div (by positivity), Nat.div_eq_of_lt y.isLt, Nat.add_zero]

theorem extract_all {n : Nat} (x : BitVec n) : x.extractLsb' 0 n = x := by
  apply BitVec.eq_of_toNat_eq
  rw [BitVec.extractLsb'_toNat, Nat.shiftRight_zero, Nat.mod_eq_of_lt x.isLt]

end Sys2Proof
end

