-- ==== Sys2Proof/Laws/State.lean ====
section
/-! SUPPORT. One lemma per field and update of State, each true by definition, so that no later proof unfolds a record update.
`fail` has no lemma for the destinations a command lists: those are free values. -/

namespace Sys2Proof.Machine

/-! ### setOutput -/

@[simp] theorem State.setOutput_cmd (s : State) (out : List Byte) : (s.setOutput out).cmd = s.cmd := rfl
@[simp] theorem State.setOutput_status (s : State) (out : List Byte) : (s.setOutput out).status = s.status := rfl
@[simp] theorem State.setOutput_err (s : State) (out : List Byte) : (s.setOutput out).err = s.err := rfl
@[simp] theorem State.setOutput_inLen (s : State) (out : List Byte) : (s.setOutput out).inLen = s.inLen := rfl
@[simp] theorem State.setOutput_outLen (s : State) (out : List Byte) : (s.setOutput out).outLen = BitVec.ofNat 32 out.length := rfl
@[simp] theorem State.setOutput_windowSize (s : State) (out : List Byte) : (s.setOutput out).windowSize = s.windowSize := rfl
@[simp] theorem State.setOutput_lzPos (s : State) (out : List Byte) : (s.setOutput out).lzPos = s.lzPos := rfl
@[simp] theorem State.setOutput_tokOffset (s : State) (out : List Byte) : (s.setOutput out).tokOffset = s.tokOffset := rfl
@[simp] theorem State.setOutput_tokLength (s : State) (out : List Byte) : (s.setOutput out).tokLength = s.tokLength := rfl
@[simp] theorem State.setOutput_tokLit (s : State) (out : List Byte) : (s.setOutput out).tokLit = s.tokLit := rfl
@[simp] theorem State.setOutput_tokLitv (s : State) (out : List Byte) : (s.setOutput out).tokLitv = s.tokLitv := rfl
@[simp] theorem State.setOutput_pad (s : State) (out : List Byte) : (s.setOutput out).pad = s.pad := rfl
@[simp] theorem State.setOutput_nsym (s : State) (out : List Byte) : (s.setOutput out).nsym = s.nsym := rfl
@[simp] theorem State.setOutput_root (s : State) (out : List Byte) : (s.setOutput out).root = s.root := rfl
@[simp] theorem State.setOutput_nnodes (s : State) (out : List Byte) : (s.setOutput out).nnodes = s.nnodes := rfl
@[simp] theorem State.setOutput_consumed (s : State) (out : List Byte) : (s.setOutput out).consumed = s.consumed := rfl
@[simp] theorem State.setOutput_freq (s : State) (out : List Byte) : (s.setOutput out).freq = s.freq := rfl
@[simp] theorem State.setOutput_node (s : State) (out : List Byte) : (s.setOutput out).node = s.node := rfl
@[simp] theorem State.setOutput_pq (s : State) (out : List Byte) : (s.setOutput out).pq = s.pq := rfl
@[simp] theorem State.setOutput_ct (s : State) (out : List Byte) : (s.setOutput out).ct = s.ct := rfl
@[simp] theorem State.setOutput_acc (s : State) (out : List Byte) : (s.setOutput out).acc = s.acc := rfl
@[simp] theorem State.setOutput_walk (s : State) (out : List Byte) : (s.setOutput out).walk = s.walk := rfl
@[simp] theorem State.setOutput_ibuf (s : State) (out : List Byte) : (s.setOutput out).ibuf = s.ibuf := rfl
@[simp] theorem State.setOutput_obuf (s : State) (out : List Byte) : (s.setOutput out).obuf = Memory.ofBytes 0 out := rfl
@[simp] theorem State.setOutput_cfg (s : State) (out : List Byte) : (s.setOutput out).cfg = s.cfg := rfl
@[simp] theorem State.setOutput_record (s : State) (out : List Byte) : (s.setOutput out).record = s.record := rfl
@[simp] theorem State.setOutput_host (s : State) (out : List Byte) : (s.setOutput out).host = s.host := rfl
@[simp] theorem State.setOutput_lastRead (s : State) (out : List Byte) : (s.setOutput out).lastRead = s.lastRead := rfl
@[simp] theorem State.setOutput_draws (s : State) (out : List Byte) : (s.setOutput out).draws = s.draws + 1 := rfl
@[simp] theorem State.setOutput_ibufEra (s : State) (out : List Byte) : (s.setOutput out).ibufEra = s.ibufEra := rfl
@[simp] theorem State.setOutput_obufEra (s : State) (out : List Byte) : (s.setOutput out).obufEra = s.draws := rfl

/-! ### setToken -/

@[simp] theorem State.setToken_cmd (s : State) (t : Token) : (s.setToken t).cmd = s.cmd := rfl
@[simp] theorem State.setToken_status (s : State) (t : Token) : (s.setToken t).status = s.status := rfl
@[simp] theorem State.setToken_err (s : State) (t : Token) : (s.setToken t).err = s.err := rfl
@[simp] theorem State.setToken_inLen (s : State) (t : Token) : (s.setToken t).inLen = s.inLen := rfl
@[simp] theorem State.setToken_outLen (s : State) (t : Token) : (s.setToken t).outLen = s.outLen := rfl
@[simp] theorem State.setToken_windowSize (s : State) (t : Token) : (s.setToken t).windowSize = s.windowSize := rfl
@[simp] theorem State.setToken_lzPos (s : State) (t : Token) : (s.setToken t).lzPos = s.lzPos := rfl
@[simp] theorem State.setToken_tokOffset (s : State) (t : Token) : (s.setToken t).tokOffset = t.offset := rfl
@[simp] theorem State.setToken_tokLength (s : State) (t : Token) : (s.setToken t).tokLength = t.length := rfl
@[simp] theorem State.setToken_tokLit (s : State) (t : Token) : (s.setToken t).tokLit = t.lit := rfl
@[simp] theorem State.setToken_tokLitv (s : State) (t : Token) : (s.setToken t).tokLitv = t.litv := rfl
@[simp] theorem State.setToken_pad (s : State) (t : Token) : (s.setToken t).pad = s.pad := rfl
@[simp] theorem State.setToken_nsym (s : State) (t : Token) : (s.setToken t).nsym = s.nsym := rfl
@[simp] theorem State.setToken_root (s : State) (t : Token) : (s.setToken t).root = s.root := rfl
@[simp] theorem State.setToken_nnodes (s : State) (t : Token) : (s.setToken t).nnodes = s.nnodes := rfl
@[simp] theorem State.setToken_consumed (s : State) (t : Token) : (s.setToken t).consumed = s.consumed := rfl
@[simp] theorem State.setToken_freq (s : State) (t : Token) : (s.setToken t).freq = s.freq := rfl
@[simp] theorem State.setToken_node (s : State) (t : Token) : (s.setToken t).node = s.node := rfl
@[simp] theorem State.setToken_pq (s : State) (t : Token) : (s.setToken t).pq = s.pq := rfl
@[simp] theorem State.setToken_ct (s : State) (t : Token) : (s.setToken t).ct = s.ct := rfl
@[simp] theorem State.setToken_acc (s : State) (t : Token) : (s.setToken t).acc = s.acc := rfl
@[simp] theorem State.setToken_walk (s : State) (t : Token) : (s.setToken t).walk = s.walk := rfl
@[simp] theorem State.setToken_ibuf (s : State) (t : Token) : (s.setToken t).ibuf = s.ibuf := rfl
@[simp] theorem State.setToken_obuf (s : State) (t : Token) : (s.setToken t).obuf = s.obuf := rfl
@[simp] theorem State.setToken_cfg (s : State) (t : Token) : (s.setToken t).cfg = s.cfg := rfl
@[simp] theorem State.setToken_record (s : State) (t : Token) : (s.setToken t).record = s.record := rfl
@[simp] theorem State.setToken_host (s : State) (t : Token) : (s.setToken t).host = s.host := rfl
@[simp] theorem State.setToken_lastRead (s : State) (t : Token) : (s.setToken t).lastRead = s.lastRead := rfl
@[simp] theorem State.setToken_draws (s : State) (t : Token) : (s.setToken t).draws = s.draws := rfl
@[simp] theorem State.setToken_ibufEra (s : State) (t : Token) : (s.setToken t).ibufEra = s.ibufEra := rfl
@[simp] theorem State.setToken_obufEra (s : State) (t : Token) : (s.setToken t).obufEra = s.obufEra := rfl

/-! ### clearCodeTable -/

@[simp] theorem State.clearCodeTable_cmd (s : State) : (s.clearCodeTable).cmd = s.cmd := rfl
@[simp] theorem State.clearCodeTable_status (s : State) : (s.clearCodeTable).status = s.status := rfl
@[simp] theorem State.clearCodeTable_err (s : State) : (s.clearCodeTable).err = s.err := rfl
@[simp] theorem State.clearCodeTable_inLen (s : State) : (s.clearCodeTable).inLen = s.inLen := rfl
@[simp] theorem State.clearCodeTable_outLen (s : State) : (s.clearCodeTable).outLen = s.outLen := rfl
@[simp] theorem State.clearCodeTable_windowSize (s : State) : (s.clearCodeTable).windowSize = s.windowSize := rfl
@[simp] theorem State.clearCodeTable_lzPos (s : State) : (s.clearCodeTable).lzPos = s.lzPos := rfl
@[simp] theorem State.clearCodeTable_tokOffset (s : State) : (s.clearCodeTable).tokOffset = s.tokOffset := rfl
@[simp] theorem State.clearCodeTable_tokLength (s : State) : (s.clearCodeTable).tokLength = s.tokLength := rfl
@[simp] theorem State.clearCodeTable_tokLit (s : State) : (s.clearCodeTable).tokLit = s.tokLit := rfl
@[simp] theorem State.clearCodeTable_tokLitv (s : State) : (s.clearCodeTable).tokLitv = s.tokLitv := rfl
@[simp] theorem State.clearCodeTable_pad (s : State) : (s.clearCodeTable).pad = s.pad := rfl
@[simp] theorem State.clearCodeTable_nsym (s : State) : (s.clearCodeTable).nsym = 0 := rfl
@[simp] theorem State.clearCodeTable_root (s : State) : (s.clearCodeTable).root = s.root := rfl
@[simp] theorem State.clearCodeTable_nnodes (s : State) : (s.clearCodeTable).nnodes = s.nnodes := rfl
@[simp] theorem State.clearCodeTable_consumed (s : State) : (s.clearCodeTable).consumed = s.consumed := rfl
@[simp] theorem State.clearCodeTable_freq (s : State) : (s.clearCodeTable).freq = s.freq := rfl
@[simp] theorem State.clearCodeTable_node (s : State) : (s.clearCodeTable).node = s.node := rfl
@[simp] theorem State.clearCodeTable_pq (s : State) : (s.clearCodeTable).pq = s.pq := rfl
@[simp] theorem State.clearCodeTable_ct (s : State) : (s.clearCodeTable).ct = CodeTable.empty := rfl
@[simp] theorem State.clearCodeTable_acc (s : State) : (s.clearCodeTable).acc = s.acc := rfl
@[simp] theorem State.clearCodeTable_walk (s : State) : (s.clearCodeTable).walk = s.walk := rfl
@[simp] theorem State.clearCodeTable_ibuf (s : State) : (s.clearCodeTable).ibuf = s.ibuf := rfl
@[simp] theorem State.clearCodeTable_obuf (s : State) : (s.clearCodeTable).obuf = s.obuf := rfl
@[simp] theorem State.clearCodeTable_cfg (s : State) : (s.clearCodeTable).cfg = s.cfg := rfl
@[simp] theorem State.clearCodeTable_record (s : State) : (s.clearCodeTable).record = s.record := rfl
@[simp] theorem State.clearCodeTable_host (s : State) : (s.clearCodeTable).host = s.host := rfl
@[simp] theorem State.clearCodeTable_lastRead (s : State) : (s.clearCodeTable).lastRead = s.lastRead := rfl
@[simp] theorem State.clearCodeTable_draws (s : State) : (s.clearCodeTable).draws = s.draws := rfl
@[simp] theorem State.clearCodeTable_ibufEra (s : State) : (s.clearCodeTable).ibufEra = s.ibufEra := rfl
@[simp] theorem State.clearCodeTable_obufEra (s : State) : (s.clearCodeTable).obufEra = s.obufEra := rfl

/-! ### setCodeTable -/

@[simp] theorem State.setCodeTable_cmd (s : State) (T : CodeTable) (n : Nat) : (s.setCodeTable T n).cmd = s.cmd := rfl
@[simp] theorem State.setCodeTable_status (s : State) (T : CodeTable) (n : Nat) : (s.setCodeTable T n).status = s.status := rfl
@[simp] theorem State.setCodeTable_err (s : State) (T : CodeTable) (n : Nat) : (s.setCodeTable T n).err = s.err := rfl
@[simp] theorem State.setCodeTable_inLen (s : State) (T : CodeTable) (n : Nat) : (s.setCodeTable T n).inLen = s.inLen := rfl
@[simp] theorem State.setCodeTable_outLen (s : State) (T : CodeTable) (n : Nat) : (s.setCodeTable T n).outLen = s.outLen := rfl
@[simp] theorem State.setCodeTable_windowSize (s : State) (T : CodeTable) (n : Nat) : (s.setCodeTable T n).windowSize = s.windowSize := rfl
@[simp] theorem State.setCodeTable_lzPos (s : State) (T : CodeTable) (n : Nat) : (s.setCodeTable T n).lzPos = s.lzPos := rfl
@[simp] theorem State.setCodeTable_tokOffset (s : State) (T : CodeTable) (n : Nat) : (s.setCodeTable T n).tokOffset = s.tokOffset := rfl
@[simp] theorem State.setCodeTable_tokLength (s : State) (T : CodeTable) (n : Nat) : (s.setCodeTable T n).tokLength = s.tokLength := rfl
@[simp] theorem State.setCodeTable_tokLit (s : State) (T : CodeTable) (n : Nat) : (s.setCodeTable T n).tokLit = s.tokLit := rfl
@[simp] theorem State.setCodeTable_tokLitv (s : State) (T : CodeTable) (n : Nat) : (s.setCodeTable T n).tokLitv = s.tokLitv := rfl
@[simp] theorem State.setCodeTable_pad (s : State) (T : CodeTable) (n : Nat) : (s.setCodeTable T n).pad = s.pad := rfl
@[simp] theorem State.setCodeTable_nsym (s : State) (T : CodeTable) (n : Nat) : (s.setCodeTable T n).nsym = BitVec.ofNat 9 n := rfl
@[simp] theorem State.setCodeTable_root (s : State) (T : CodeTable) (n : Nat) : (s.setCodeTable T n).root = s.root := rfl
@[simp] theorem State.setCodeTable_nnodes (s : State) (T : CodeTable) (n : Nat) : (s.setCodeTable T n).nnodes = s.nnodes := rfl
@[simp] theorem State.setCodeTable_consumed (s : State) (T : CodeTable) (n : Nat) : (s.setCodeTable T n).consumed = s.consumed := rfl
@[simp] theorem State.setCodeTable_freq (s : State) (T : CodeTable) (n : Nat) : (s.setCodeTable T n).freq = s.freq := rfl
@[simp] theorem State.setCodeTable_node (s : State) (T : CodeTable) (n : Nat) : (s.setCodeTable T n).node = s.node := rfl
@[simp] theorem State.setCodeTable_pq (s : State) (T : CodeTable) (n : Nat) : (s.setCodeTable T n).pq = s.pq := rfl
@[simp] theorem State.setCodeTable_ct (s : State) (T : CodeTable) (n : Nat) : (s.setCodeTable T n).ct = T := rfl
@[simp] theorem State.setCodeTable_acc (s : State) (T : CodeTable) (n : Nat) : (s.setCodeTable T n).acc = s.acc := rfl
@[simp] theorem State.setCodeTable_walk (s : State) (T : CodeTable) (n : Nat) : (s.setCodeTable T n).walk = s.walk := rfl
@[simp] theorem State.setCodeTable_ibuf (s : State) (T : CodeTable) (n : Nat) : (s.setCodeTable T n).ibuf = s.ibuf := rfl
@[simp] theorem State.setCodeTable_obuf (s : State) (T : CodeTable) (n : Nat) : (s.setCodeTable T n).obuf = s.obuf := rfl
@[simp] theorem State.setCodeTable_cfg (s : State) (T : CodeTable) (n : Nat) : (s.setCodeTable T n).cfg = s.cfg := rfl
@[simp] theorem State.setCodeTable_record (s : State) (T : CodeTable) (n : Nat) : (s.setCodeTable T n).record = s.record := rfl
@[simp] theorem State.setCodeTable_host (s : State) (T : CodeTable) (n : Nat) : (s.setCodeTable T n).host = s.host := rfl
@[simp] theorem State.setCodeTable_lastRead (s : State) (T : CodeTable) (n : Nat) : (s.setCodeTable T n).lastRead = s.lastRead := rfl
@[simp] theorem State.setCodeTable_draws (s : State) (T : CodeTable) (n : Nat) : (s.setCodeTable T n).draws = s.draws := rfl
@[simp] theorem State.setCodeTable_ibufEra (s : State) (T : CodeTable) (n : Nat) : (s.setCodeTable T n).ibufEra = s.ibufEra := rfl
@[simp] theorem State.setCodeTable_obufEra (s : State) (T : CodeTable) (n : Nat) : (s.setCodeTable T n).obufEra = s.obufEra := rfl

/-! ### complete -/

@[simp] theorem State.complete_cmd (s : State) : (s.complete).cmd = s.cmd := rfl
@[simp] theorem State.complete_status (s : State) : (s.complete).status = .done := rfl
@[simp] theorem State.complete_err (s : State) : (s.complete).err = ErrReg.none := rfl
@[simp] theorem State.complete_inLen (s : State) : (s.complete).inLen = s.inLen := rfl
@[simp] theorem State.complete_outLen (s : State) : (s.complete).outLen = s.outLen := rfl
@[simp] theorem State.complete_windowSize (s : State) : (s.complete).windowSize = s.windowSize := rfl
@[simp] theorem State.complete_lzPos (s : State) : (s.complete).lzPos = s.lzPos := rfl
@[simp] theorem State.complete_tokOffset (s : State) : (s.complete).tokOffset = s.tokOffset := rfl
@[simp] theorem State.complete_tokLength (s : State) : (s.complete).tokLength = s.tokLength := rfl
@[simp] theorem State.complete_tokLit (s : State) : (s.complete).tokLit = s.tokLit := rfl
@[simp] theorem State.complete_tokLitv (s : State) : (s.complete).tokLitv = s.tokLitv := rfl
@[simp] theorem State.complete_pad (s : State) : (s.complete).pad = s.pad := rfl
@[simp] theorem State.complete_nsym (s : State) : (s.complete).nsym = s.nsym := rfl
@[simp] theorem State.complete_root (s : State) : (s.complete).root = s.root := rfl
@[simp] theorem State.complete_nnodes (s : State) : (s.complete).nnodes = s.nnodes := rfl
@[simp] theorem State.complete_consumed (s : State) : (s.complete).consumed = s.consumed := rfl
@[simp] theorem State.complete_freq (s : State) : (s.complete).freq = s.freq := rfl
@[simp] theorem State.complete_node (s : State) : (s.complete).node = s.node := rfl
@[simp] theorem State.complete_pq (s : State) : (s.complete).pq = s.pq := rfl
@[simp] theorem State.complete_ct (s : State) : (s.complete).ct = s.ct := rfl
@[simp] theorem State.complete_acc (s : State) : (s.complete).acc = s.acc := rfl
@[simp] theorem State.complete_walk (s : State) : (s.complete).walk = s.walk := rfl
@[simp] theorem State.complete_ibuf (s : State) : (s.complete).ibuf = s.ibuf := rfl
@[simp] theorem State.complete_obuf (s : State) : (s.complete).obuf = s.obuf := rfl
@[simp] theorem State.complete_cfg (s : State) : (s.complete).cfg = s.cfg := rfl
@[simp] theorem State.complete_record (s : State) : (s.complete).record = s.record := rfl
@[simp] theorem State.complete_host (s : State) : (s.complete).host = s.host := rfl
@[simp] theorem State.complete_lastRead (s : State) : (s.complete).lastRead = s.lastRead := rfl
@[simp] theorem State.complete_draws (s : State) : (s.complete).draws = s.draws := rfl
@[simp] theorem State.complete_ibufEra (s : State) : (s.complete).ibufEra = s.ibufEra := rfl
@[simp] theorem State.complete_obufEra (s : State) : (s.complete).obufEra = s.obufEra := rfl

/-! ### issue -/

@[simp] theorem State.issue_cmd (s : State) (w : Word) : (s.issue w).cmd = w := rfl
@[simp] theorem State.issue_status (s : State) (w : Word) : (s.issue w).status = .busy := rfl
@[simp] theorem State.issue_err (s : State) (w : Word) : (s.issue w).err = s.err := rfl
@[simp] theorem State.issue_inLen (s : State) (w : Word) : (s.issue w).inLen = s.inLen := rfl
@[simp] theorem State.issue_outLen (s : State) (w : Word) : (s.issue w).outLen = s.outLen := rfl
@[simp] theorem State.issue_windowSize (s : State) (w : Word) : (s.issue w).windowSize = s.windowSize := rfl
@[simp] theorem State.issue_lzPos (s : State) (w : Word) : (s.issue w).lzPos = s.lzPos := rfl
@[simp] theorem State.issue_tokOffset (s : State) (w : Word) : (s.issue w).tokOffset = s.tokOffset := rfl
@[simp] theorem State.issue_tokLength (s : State) (w : Word) : (s.issue w).tokLength = s.tokLength := rfl
@[simp] theorem State.issue_tokLit (s : State) (w : Word) : (s.issue w).tokLit = s.tokLit := rfl
@[simp] theorem State.issue_tokLitv (s : State) (w : Word) : (s.issue w).tokLitv = s.tokLitv := rfl
@[simp] theorem State.issue_pad (s : State) (w : Word) : (s.issue w).pad = s.pad := rfl
@[simp] theorem State.issue_nsym (s : State) (w : Word) : (s.issue w).nsym = s.nsym := rfl
@[simp] theorem State.issue_root (s : State) (w : Word) : (s.issue w).root = s.root := rfl
@[simp] theorem State.issue_nnodes (s : State) (w : Word) : (s.issue w).nnodes = s.nnodes := rfl
@[simp] theorem State.issue_consumed (s : State) (w : Word) : (s.issue w).consumed = s.consumed := rfl
@[simp] theorem State.issue_freq (s : State) (w : Word) : (s.issue w).freq = s.freq := rfl
@[simp] theorem State.issue_node (s : State) (w : Word) : (s.issue w).node = s.node := rfl
@[simp] theorem State.issue_pq (s : State) (w : Word) : (s.issue w).pq = s.pq := rfl
@[simp] theorem State.issue_ct (s : State) (w : Word) : (s.issue w).ct = s.ct := rfl
@[simp] theorem State.issue_acc (s : State) (w : Word) : (s.issue w).acc = s.acc := rfl
@[simp] theorem State.issue_walk (s : State) (w : Word) : (s.issue w).walk = s.walk := rfl
@[simp] theorem State.issue_ibuf (s : State) (w : Word) : (s.issue w).ibuf = s.ibuf := rfl
@[simp] theorem State.issue_obuf (s : State) (w : Word) : (s.issue w).obuf = s.obuf := rfl
@[simp] theorem State.issue_cfg (s : State) (w : Word) : (s.issue w).cfg = s.cfg := rfl
@[simp] theorem State.issue_record (s : State) (w : Word) : (s.issue w).record = s.record := rfl
@[simp] theorem State.issue_host (s : State) (w : Word) : (s.issue w).host = s.host := rfl
@[simp] theorem State.issue_lastRead (s : State) (w : Word) : (s.issue w).lastRead = s.lastRead := rfl
@[simp] theorem State.issue_draws (s : State) (w : Word) : (s.issue w).draws = s.draws := rfl
@[simp] theorem State.issue_ibufEra (s : State) (w : Word) : (s.issue w).ibufEra = s.ibufEra := rfl
@[simp] theorem State.issue_obufEra (s : State) (w : Word) : (s.issue w).obufEra = s.obufEra := rfl

/-! ### consume -/

@[simp] theorem State.consume_cmd (s : State) : (s.consume).cmd = s.cmd := rfl
@[simp] theorem State.consume_status (s : State) : (s.consume).status = s.status := rfl
@[simp] theorem State.consume_err (s : State) : (s.consume).err = s.err := rfl
@[simp] theorem State.consume_inLen (s : State) : (s.consume).inLen = s.inLen := rfl
@[simp] theorem State.consume_outLen (s : State) : (s.consume).outLen = s.outLen := rfl
@[simp] theorem State.consume_windowSize (s : State) : (s.consume).windowSize = s.windowSize := rfl
@[simp] theorem State.consume_lzPos (s : State) : (s.consume).lzPos = s.lzPos := rfl
@[simp] theorem State.consume_tokOffset (s : State) : (s.consume).tokOffset = s.tokOffset := rfl
@[simp] theorem State.consume_tokLength (s : State) : (s.consume).tokLength = s.tokLength := rfl
@[simp] theorem State.consume_tokLit (s : State) : (s.consume).tokLit = s.tokLit := rfl
@[simp] theorem State.consume_tokLitv (s : State) : (s.consume).tokLitv = s.tokLitv := rfl
@[simp] theorem State.consume_pad (s : State) : (s.consume).pad = s.pad := rfl
@[simp] theorem State.consume_nsym (s : State) : (s.consume).nsym = s.nsym := rfl
@[simp] theorem State.consume_root (s : State) : (s.consume).root = s.root := rfl
@[simp] theorem State.consume_nnodes (s : State) : (s.consume).nnodes = s.nnodes := rfl
@[simp] theorem State.consume_consumed (s : State) : (s.consume).consumed = s.consumed := rfl
@[simp] theorem State.consume_freq (s : State) : (s.consume).freq = s.freq := rfl
@[simp] theorem State.consume_node (s : State) : (s.consume).node = s.node := rfl
@[simp] theorem State.consume_pq (s : State) : (s.consume).pq = s.pq := rfl
@[simp] theorem State.consume_ct (s : State) : (s.consume).ct = s.ct := rfl
@[simp] theorem State.consume_acc (s : State) : (s.consume).acc = s.acc := rfl
@[simp] theorem State.consume_walk (s : State) : (s.consume).walk = s.walk := rfl
@[simp] theorem State.consume_ibuf (s : State) : (s.consume).ibuf = s.ibuf := rfl
@[simp] theorem State.consume_obuf (s : State) : (s.consume).obuf = s.obuf := rfl
@[simp] theorem State.consume_cfg (s : State) : (s.consume).cfg = s.cfg := rfl
@[simp] theorem State.consume_record (s : State) : (s.consume).record = none := rfl
@[simp] theorem State.consume_host (s : State) : (s.consume).host = s.host := rfl
@[simp] theorem State.consume_lastRead (s : State) : (s.consume).lastRead = s.lastRead := rfl
@[simp] theorem State.consume_draws (s : State) : (s.consume).draws = s.draws := rfl
@[simp] theorem State.consume_ibufEra (s : State) : (s.consume).ibufEra = s.ibufEra := rfl
@[simp] theorem State.consume_obufEra (s : State) : (s.consume).obufEra = s.obufEra := rfl

/-! ### returnRead -/

@[simp] theorem State.returnRead_cmd (s : State) (v : ReadValue) : (s.returnRead v).cmd = s.cmd := rfl
@[simp] theorem State.returnRead_status (s : State) (v : ReadValue) : (s.returnRead v).status = s.status := rfl
@[simp] theorem State.returnRead_err (s : State) (v : ReadValue) : (s.returnRead v).err = s.err := rfl
@[simp] theorem State.returnRead_inLen (s : State) (v : ReadValue) : (s.returnRead v).inLen = s.inLen := rfl
@[simp] theorem State.returnRead_outLen (s : State) (v : ReadValue) : (s.returnRead v).outLen = s.outLen := rfl
@[simp] theorem State.returnRead_windowSize (s : State) (v : ReadValue) : (s.returnRead v).windowSize = s.windowSize := rfl
@[simp] theorem State.returnRead_lzPos (s : State) (v : ReadValue) : (s.returnRead v).lzPos = s.lzPos := rfl
@[simp] theorem State.returnRead_tokOffset (s : State) (v : ReadValue) : (s.returnRead v).tokOffset = s.tokOffset := rfl
@[simp] theorem State.returnRead_tokLength (s : State) (v : ReadValue) : (s.returnRead v).tokLength = s.tokLength := rfl
@[simp] theorem State.returnRead_tokLit (s : State) (v : ReadValue) : (s.returnRead v).tokLit = s.tokLit := rfl
@[simp] theorem State.returnRead_tokLitv (s : State) (v : ReadValue) : (s.returnRead v).tokLitv = s.tokLitv := rfl
@[simp] theorem State.returnRead_pad (s : State) (v : ReadValue) : (s.returnRead v).pad = s.pad := rfl
@[simp] theorem State.returnRead_nsym (s : State) (v : ReadValue) : (s.returnRead v).nsym = s.nsym := rfl
@[simp] theorem State.returnRead_root (s : State) (v : ReadValue) : (s.returnRead v).root = s.root := rfl
@[simp] theorem State.returnRead_nnodes (s : State) (v : ReadValue) : (s.returnRead v).nnodes = s.nnodes := rfl
@[simp] theorem State.returnRead_consumed (s : State) (v : ReadValue) : (s.returnRead v).consumed = s.consumed := rfl
@[simp] theorem State.returnRead_freq (s : State) (v : ReadValue) : (s.returnRead v).freq = s.freq := rfl
@[simp] theorem State.returnRead_node (s : State) (v : ReadValue) : (s.returnRead v).node = s.node := rfl
@[simp] theorem State.returnRead_pq (s : State) (v : ReadValue) : (s.returnRead v).pq = s.pq := rfl
@[simp] theorem State.returnRead_ct (s : State) (v : ReadValue) : (s.returnRead v).ct = s.ct := rfl
@[simp] theorem State.returnRead_acc (s : State) (v : ReadValue) : (s.returnRead v).acc = s.acc := rfl
@[simp] theorem State.returnRead_walk (s : State) (v : ReadValue) : (s.returnRead v).walk = s.walk := rfl
@[simp] theorem State.returnRead_ibuf (s : State) (v : ReadValue) : (s.returnRead v).ibuf = s.ibuf := rfl
@[simp] theorem State.returnRead_obuf (s : State) (v : ReadValue) : (s.returnRead v).obuf = s.obuf := rfl
@[simp] theorem State.returnRead_cfg (s : State) (v : ReadValue) : (s.returnRead v).cfg = s.cfg := rfl
@[simp] theorem State.returnRead_record (s : State) (v : ReadValue) : (s.returnRead v).record = s.record := rfl
@[simp] theorem State.returnRead_host (s : State) (v : ReadValue) : (s.returnRead v).host = s.host := rfl
@[simp] theorem State.returnRead_lastRead (s : State) (v : ReadValue) : (s.returnRead v).lastRead = some v := rfl
@[simp] theorem State.returnRead_draws (s : State) (v : ReadValue) : (s.returnRead v).draws = s.draws := rfl
@[simp] theorem State.returnRead_ibufEra (s : State) (v : ReadValue) : (s.returnRead v).ibufEra = s.ibufEra := rfl
@[simp] theorem State.returnRead_obufEra (s : State) (v : ReadValue) : (s.returnRead v).obufEra = s.obufEra := rfl

/-! ### returnFree -/

@[simp] theorem State.returnFree_cmd (s : State) (v : Nat → ReadValue) : (s.returnFree v).cmd = s.cmd := rfl
@[simp] theorem State.returnFree_status (s : State) (v : Nat → ReadValue) : (s.returnFree v).status = s.status := rfl
@[simp] theorem State.returnFree_err (s : State) (v : Nat → ReadValue) : (s.returnFree v).err = s.err := rfl
@[simp] theorem State.returnFree_inLen (s : State) (v : Nat → ReadValue) : (s.returnFree v).inLen = s.inLen := rfl
@[simp] theorem State.returnFree_outLen (s : State) (v : Nat → ReadValue) : (s.returnFree v).outLen = s.outLen := rfl
@[simp] theorem State.returnFree_windowSize (s : State) (v : Nat → ReadValue) : (s.returnFree v).windowSize = s.windowSize := rfl
@[simp] theorem State.returnFree_lzPos (s : State) (v : Nat → ReadValue) : (s.returnFree v).lzPos = s.lzPos := rfl
@[simp] theorem State.returnFree_tokOffset (s : State) (v : Nat → ReadValue) : (s.returnFree v).tokOffset = s.tokOffset := rfl
@[simp] theorem State.returnFree_tokLength (s : State) (v : Nat → ReadValue) : (s.returnFree v).tokLength = s.tokLength := rfl
@[simp] theorem State.returnFree_tokLit (s : State) (v : Nat → ReadValue) : (s.returnFree v).tokLit = s.tokLit := rfl
@[simp] theorem State.returnFree_tokLitv (s : State) (v : Nat → ReadValue) : (s.returnFree v).tokLitv = s.tokLitv := rfl
@[simp] theorem State.returnFree_pad (s : State) (v : Nat → ReadValue) : (s.returnFree v).pad = s.pad := rfl
@[simp] theorem State.returnFree_nsym (s : State) (v : Nat → ReadValue) : (s.returnFree v).nsym = s.nsym := rfl
@[simp] theorem State.returnFree_root (s : State) (v : Nat → ReadValue) : (s.returnFree v).root = s.root := rfl
@[simp] theorem State.returnFree_nnodes (s : State) (v : Nat → ReadValue) : (s.returnFree v).nnodes = s.nnodes := rfl
@[simp] theorem State.returnFree_consumed (s : State) (v : Nat → ReadValue) : (s.returnFree v).consumed = s.consumed := rfl
@[simp] theorem State.returnFree_freq (s : State) (v : Nat → ReadValue) : (s.returnFree v).freq = s.freq := rfl
@[simp] theorem State.returnFree_node (s : State) (v : Nat → ReadValue) : (s.returnFree v).node = s.node := rfl
@[simp] theorem State.returnFree_pq (s : State) (v : Nat → ReadValue) : (s.returnFree v).pq = s.pq := rfl
@[simp] theorem State.returnFree_ct (s : State) (v : Nat → ReadValue) : (s.returnFree v).ct = s.ct := rfl
@[simp] theorem State.returnFree_acc (s : State) (v : Nat → ReadValue) : (s.returnFree v).acc = s.acc := rfl
@[simp] theorem State.returnFree_walk (s : State) (v : Nat → ReadValue) : (s.returnFree v).walk = s.walk := rfl
@[simp] theorem State.returnFree_ibuf (s : State) (v : Nat → ReadValue) : (s.returnFree v).ibuf = s.ibuf := rfl
@[simp] theorem State.returnFree_obuf (s : State) (v : Nat → ReadValue) : (s.returnFree v).obuf = s.obuf := rfl
@[simp] theorem State.returnFree_cfg (s : State) (v : Nat → ReadValue) : (s.returnFree v).cfg = s.cfg := rfl
@[simp] theorem State.returnFree_record (s : State) (v : Nat → ReadValue) : (s.returnFree v).record = s.record := rfl
@[simp] theorem State.returnFree_host (s : State) (v : Nat → ReadValue) : (s.returnFree v).host = s.host := rfl
@[simp] theorem State.returnFree_lastRead (s : State) (v : Nat → ReadValue) : (s.returnFree v).lastRead = some (v s.draws) := rfl
@[simp] theorem State.returnFree_draws (s : State) (v : Nat → ReadValue) : (s.returnFree v).draws = s.draws + 1 := rfl
@[simp] theorem State.returnFree_ibufEra (s : State) (v : Nat → ReadValue) : (s.returnFree v).ibufEra = s.ibufEra := rfl
@[simp] theorem State.returnFree_obufEra (s : State) (v : Nat → ReadValue) : (s.returnFree v).obufEra = s.obufEra := rfl

/-! ### clear -/

@[simp] theorem State.clear_cmd (s : State) : (s.clear).cmd = s.cmd := rfl
@[simp] theorem State.clear_status (s : State) : (s.clear).status = .idle := rfl
@[simp] theorem State.clear_err (s : State) : (s.clear).err = ⟨0, 0⟩ := rfl
@[simp] theorem State.clear_inLen (s : State) : (s.clear).inLen = s.inLen := rfl
@[simp] theorem State.clear_outLen (s : State) : (s.clear).outLen = 0 := rfl
@[simp] theorem State.clear_windowSize (s : State) : (s.clear).windowSize = s.windowSize := rfl
@[simp] theorem State.clear_lzPos (s : State) : (s.clear).lzPos = 0 := rfl
@[simp] theorem State.clear_tokOffset (s : State) : (s.clear).tokOffset = 0 := rfl
@[simp] theorem State.clear_tokLength (s : State) : (s.clear).tokLength = 0 := rfl
@[simp] theorem State.clear_tokLit (s : State) : (s.clear).tokLit = 0 := rfl
@[simp] theorem State.clear_tokLitv (s : State) : (s.clear).tokLitv = false := rfl
@[simp] theorem State.clear_pad (s : State) : (s.clear).pad = 0 := rfl
@[simp] theorem State.clear_nsym (s : State) : (s.clear).nsym = 0 := rfl
@[simp] theorem State.clear_root (s : State) : (s.clear).root = Config.nodeNull := rfl
@[simp] theorem State.clear_nnodes (s : State) : (s.clear).nnodes = 0 := rfl
@[simp] theorem State.clear_consumed (s : State) : (s.clear).consumed = 0 := rfl
@[simp] theorem State.clear_freq (s : State) : (s.clear).freq = FreqTable.zero := rfl
@[simp] theorem State.clear_node (s : State) : (s.clear).node = s.node := rfl
@[simp] theorem State.clear_pq (s : State) : (s.clear).pq = [] := rfl
@[simp] theorem State.clear_ct (s : State) : (s.clear).ct = CodeTable.empty := rfl
@[simp] theorem State.clear_acc (s : State) : (s.clear).acc = ⟨0, 0⟩ := rfl
@[simp] theorem State.clear_walk (s : State) : (s.clear).walk = ⟨0, 0⟩ := rfl
@[simp] theorem State.clear_ibuf (s : State) : (s.clear).ibuf = s.ibuf := rfl
@[simp] theorem State.clear_obuf (s : State) : (s.clear).obuf = [] := rfl
@[simp] theorem State.clear_cfg (s : State) : (s.clear).cfg = s.cfg := rfl
@[simp] theorem State.clear_record (s : State) : (s.clear).record = s.record := rfl
@[simp] theorem State.clear_host (s : State) : (s.clear).host = s.host := rfl
@[simp] theorem State.clear_lastRead (s : State) : (s.clear).lastRead = s.lastRead := rfl
@[simp] theorem State.clear_draws (s : State) : (s.clear).draws = s.draws + 1 := rfl
@[simp] theorem State.clear_ibufEra (s : State) : (s.clear).ibufEra = s.ibufEra := rfl
@[simp] theorem State.clear_obufEra (s : State) : (s.clear).obufEra = s.draws := rfl

/-! ### resetMove -/

@[simp] theorem State.resetMove_cmd (s : State) : (s.resetMove).cmd = 0 := rfl
@[simp] theorem State.resetMove_status (s : State) : (s.resetMove).status = .idle := rfl
@[simp] theorem State.resetMove_err (s : State) : (s.resetMove).err = ⟨0, 0⟩ := rfl
@[simp] theorem State.resetMove_inLen (s : State) : (s.resetMove).inLen = 0 := rfl
@[simp] theorem State.resetMove_outLen (s : State) : (s.resetMove).outLen = 0 := rfl
@[simp] theorem State.resetMove_windowSize (s : State) : (s.resetMove).windowSize = Config.windowDefault := rfl
@[simp] theorem State.resetMove_lzPos (s : State) : (s.resetMove).lzPos = 0 := rfl
@[simp] theorem State.resetMove_tokOffset (s : State) : (s.resetMove).tokOffset = 0 := rfl
@[simp] theorem State.resetMove_tokLength (s : State) : (s.resetMove).tokLength = 0 := rfl
@[simp] theorem State.resetMove_tokLit (s : State) : (s.resetMove).tokLit = 0 := rfl
@[simp] theorem State.resetMove_tokLitv (s : State) : (s.resetMove).tokLitv = false := rfl
@[simp] theorem State.resetMove_pad (s : State) : (s.resetMove).pad = 0 := rfl
@[simp] theorem State.resetMove_nsym (s : State) : (s.resetMove).nsym = 0 := rfl
@[simp] theorem State.resetMove_root (s : State) : (s.resetMove).root = Config.nodeNull := rfl
@[simp] theorem State.resetMove_nnodes (s : State) : (s.resetMove).nnodes = 0 := rfl
@[simp] theorem State.resetMove_consumed (s : State) : (s.resetMove).consumed = 0 := rfl
@[simp] theorem State.resetMove_freq (s : State) : (s.resetMove).freq = FreqTable.zero := rfl
@[simp] theorem State.resetMove_node (s : State) : (s.resetMove).node = freeNodes s.draws := rfl
@[simp] theorem State.resetMove_pq (s : State) : (s.resetMove).pq = [] := rfl
@[simp] theorem State.resetMove_ct (s : State) : (s.resetMove).ct = CodeTable.empty := rfl
@[simp] theorem State.resetMove_acc (s : State) : (s.resetMove).acc = ⟨0, 0⟩ := rfl
@[simp] theorem State.resetMove_walk (s : State) : (s.resetMove).walk = ⟨0, 0⟩ := rfl
@[simp] theorem State.resetMove_ibuf (s : State) : (s.resetMove).ibuf = [] := rfl
@[simp] theorem State.resetMove_obuf (s : State) : (s.resetMove).obuf = [] := rfl
@[simp] theorem State.resetMove_cfg (s : State) : (s.resetMove).cfg = s.cfg := rfl
@[simp] theorem State.resetMove_record (s : State) : (s.resetMove).record = none := rfl
@[simp] theorem State.resetMove_host (s : State) : (s.resetMove).host = s.host := rfl
@[simp] theorem State.resetMove_lastRead (s : State) : (s.resetMove).lastRead = s.lastRead := rfl
@[simp] theorem State.resetMove_draws (s : State) : (s.resetMove).draws = s.draws + 1 := rfl
@[simp] theorem State.resetMove_ibufEra (s : State) : (s.resetMove).ibufEra = s.draws := rfl
@[simp] theorem State.resetMove_obufEra (s : State) : (s.resetMove).obufEra = s.draws := rfl

/-! ### fail -/

@[simp] theorem State.fail_cmd (s : State) (w : Writes) (e : ErrorCause) : (s.fail w e).cmd = s.cmd := rfl
@[simp] theorem State.fail_status (s : State) (w : Writes) (e : ErrorCause) : (s.fail w e).status = .error := rfl
@[simp] theorem State.fail_err (s : State) (w : Writes) (e : ErrorCause) : (s.fail w e).err = e.reg := rfl
@[simp] theorem State.fail_inLen (s : State) (w : Writes) (e : ErrorCause) : (s.fail w e).inLen = s.inLen := rfl
@[simp] theorem State.fail_outLen (s : State) (w : Writes) (e : ErrorCause) : (s.fail w e).outLen = 0 := rfl
@[simp] theorem State.fail_windowSize (s : State) (w : Writes) (e : ErrorCause) : (s.fail w e).windowSize = s.windowSize := rfl
@[simp] theorem State.fail_pq (s : State) (w : Writes) (e : ErrorCause) : (s.fail w e).pq = [] := rfl
@[simp] theorem State.fail_acc (s : State) (w : Writes) (e : ErrorCause) : (s.fail w e).acc = ⟨0, 0⟩ := rfl
@[simp] theorem State.fail_walk (s : State) (w : Writes) (e : ErrorCause) : (s.fail w e).walk = ⟨0, 0⟩ := rfl
@[simp] theorem State.fail_ibuf (s : State) (w : Writes) (e : ErrorCause) : (s.fail w e).ibuf = s.ibuf := rfl
@[simp] theorem State.fail_obuf (s : State) (w : Writes) (e : ErrorCause) : (s.fail w e).obuf = [] := rfl
@[simp] theorem State.fail_cfg (s : State) (w : Writes) (e : ErrorCause) : (s.fail w e).cfg = s.cfg := rfl
@[simp] theorem State.fail_record (s : State) (w : Writes) (e : ErrorCause) : (s.fail w e).record = s.record := rfl
@[simp] theorem State.fail_host (s : State) (w : Writes) (e : ErrorCause) : (s.fail w e).host = s.host := rfl
@[simp] theorem State.fail_lastRead (s : State) (w : Writes) (e : ErrorCause) : (s.fail w e).lastRead = s.lastRead := rfl
@[simp] theorem State.fail_draws (s : State) (w : Writes) (e : ErrorCause) : (s.fail w e).draws = s.draws + 1 := rfl
@[simp] theorem State.fail_ibufEra (s : State) (w : Writes) (e : ErrorCause) : (s.fail w e).ibufEra = s.ibufEra := rfl
@[simp] theorem State.fail_obufEra (s : State) (w : Writes) (e : ErrorCause) : (s.fail w e).obufEra = s.draws := rfl

end Sys2Proof.Machine
end

