-- ==== Sys2Proof/Laws/Exec.lean ====
section
/-! SUPPORT. Everything an instruction can do, once: it completes with a body that keeps what its rule does not list, or it
takes one error (R253, R270). Later proofs cite `exec_cases` and unfold no meaning. -/

namespace Sys2Proof.Machine

/-! ### Sequencing -/

@[simp] theorem except_ok_bind {ε α β : Type} (a : α) (f : α → Except ε β) : (Except.ok a >>= f) = f a := rfl

@[simp] theorem except_error_bind {ε α β : Type} (e : ε) (f : α → Except ε β) : (Except.error e >>= f) = .error e := rfl

theorem except_bind_ok {ε α β : Type} {x : Except ε α} {f : α → Except ε β} {b : β} (h : x >>= f = .ok b) :
    ∃ a, x = .ok a ∧ f a = .ok b := by
  cases x with
  | error e => cases h
  | ok a => exact ⟨a, rfl, h⟩

theorem except_bind_error {ε α β : Type} {x : Except ε α} {f : α → Except ε β} {e : ε} (h : x >>= f = .error e) :
    x = .error e ∨ ∃ a, x = .ok a ∧ f a = .error e := by
  cases x with
  | error e' =>
    left
    cases h
    rfl
  | ok a => exact .inr ⟨a, rfl, h⟩

/-! ### The input check -/

theorem requireInput_of_le {s : State} (h : s.inLen.toNat ≤ s.ibufBytes) : s.requireInput = .ok s.input := by
  simp [State.requireInput, h]

theorem requireInput_of_lt {s : State} (h : s.ibufBytes < s.inLen.toNat) : s.requireInput = .error .paramInLen := by
  have : ¬ s.inLen.toNat ≤ s.ibufBytes := by omega
  simp [State.requireInput, this]

/-- Everything the input check can do (R252). -/
theorem requireInput_cases (s : State) :
    (s.inLen.toNat ≤ s.ibufBytes ∧ s.requireInput = .ok s.input) ∨
    (s.ibufBytes < s.inLen.toNat ∧ s.requireInput = .error .paramInLen) := by
  by_cases h : s.inLen.toNat ≤ s.ibufBytes
  · exact .inl ⟨h, requireInput_of_le h⟩
  · exact .inr ⟨by omega, requireInput_of_lt (by omega)⟩

/-! ### Taking an error -/

/-- What an error keeps (R270): every destination the command does not list, and with ILLEGAL_COMMAND the listed ones too. -/
theorem State.fail_keeps (s : State) (w : Writes) (e : ErrorCause) : KeepsUnlisted w s (s.fail w e) := by
  cases h : e.isIllegalCommand <;> constructor <;> intro hw <;> simp [State.fail, State.scramble, h, hw, Writes.none]

theorem State.fail_keeps_all (s : State) (w : Writes) {e : ErrorCause} (h : e.code = 6) :
    KeepsUnlisted Writes.none s (s.fail w e) := by
  have h' : e.isIllegalCommand = true := by simp [ErrorCause.isIllegalCommand, h]
  constructor <;> intro _ <;> simp [State.fail, State.scramble, h', Writes.none]

theorem State.fail_input (s : State) (w : Writes) (e : ErrorCause) : KeepsInputSide s (s.fail w e) where
  cmd := rfl
  inLen := rfl
  windowSize := rfl
  ibufAt _ := rfl
  cfg := rfl
  host := rfl
  lastRead := rfl

/-- Every error has a class from 1 to 6 (R265). -/
theorem ErrorCause.code_range (e : ErrorCause) : 1 ≤ e.code.toNat ∧ e.code.toNat ≤ 6 := by cases e <;> decide

/-- No two errors leave the same ERR (R266). -/
theorem ErrorCause.reg_injective {e e' : ErrorCause} (h : e.reg = e'.reg) : e = e' := by
  cases e <;> cases e' <;> first | rfl | exact absurd h (by decide)

theorem State.failedWith_fail (s : State) (w : Writes) (e : ErrorCause) :
    (s.fail w e).failedWith e.reg.number := ⟨rfl, rfl, rfl⟩

/-! ### What a body keeps -/

/-- What the body of instruction `i` leaves of the state it ran in (R41). -/
structure BodyFrame (i : Instr) (s u : State) : Prop where
  keeps : KeepsUnlisted (listedWrites i) s u
  input : KeepsInputSide s u
  status : u.status = s.status
  err : u.err = s.err
  record : u.record = s.record
  pq : u.pq = s.pq ∨ u.pq = []
  acc : u.acc = s.acc ∨ u.acc = ⟨0, 0⟩
  walk : u.walk = s.walk ∨ u.walk = ⟨0, 0⟩
  output : keepsOutput i = true → u.outLen = s.outLen ∧ u.obuf = s.obuf ∧ u.obufEra = s.obufEra

/-- No instruction raises an error outside these (R267); `errorsOf` is the narrower list of its own rule. -/
def mayRaise : Instr → ErrorCause → Bool
  | .nop, _ | .clr, _ | .tbuild, _ => false
  | .freq, e | .lzfind, e => e == .paramInLen
  | .derive, e => e == .nullRoot || e == .codeTooLong
  | .tser, e => e == .outFull
  | .tdes, e => e.code == 1 || e == .paramInLen
  | .hpack, e => e == .missingCode || e == .outFull || e == .paramInLen
  | .hwalk, e => e.code == 1 || e == .outFull || e == .paramInLen
  | .hcomp, e => e.code == 3 || e == .codeTooLong || e == .outFull || e == .paramInLen
  | .hdecomp, e => e.code == 1 || e == .outFull || e == .paramInLen
  | .lzreplay, e => e.code == 2 || e == .outFull
  | .lzcomp, e => e == .outFull || e == .paramInLen
  | .lzdecomp, e => e.code == 1 || e.code == 2 || e == .outFull || e == .paramInLen
  | .hblockHeader _ _, e | .hblockEntry _ _ _, e => e.code == 1
  | .hblockCount _, e => e == .outFull
  | .tokenLit _, e | .tokenMatch _ _ _, e | .tokenMatchend _ _ _, e | .tokenNull _, e => e.code == 2 || e == .outFull
  | .tokenInvalidLenNoOffset _ _ _, e | .tokenInvalidZeroLength _ _ _, e => e.code == 2 || e == .outFull

theorem emit_error {cap : Nat} {out : List Byte} {b : Byte} {e : ErrorCause} (h : emit cap out b = .error e) :
    e = .outFull := by
  rcases emit_cases cap out b with ⟨_, he⟩ | ⟨_, he⟩ <;> rw [he] at h <;> cases h
  rfl

theorem emitAll_error {cap : Nat} {bs out : List Byte} {e : ErrorCause} (h : emitAll cap out bs = .error e) :
    e = .outFull := by
  induction bs generalizing out with
  | nil => cases h
  | cons b bs ih =>
    rcases except_bind_error h with h | ⟨o, _, h⟩
    · exact emit_error h
    · exact ih h

theorem copyBytes_error {cap off m : Nat} {out : List Byte} {e : ErrorCause} (h : copyBytes cap off m out = .error e) :
    e = .outFull := by
  induction m generalizing out with
  | zero => cases h
  | succ m ih =>
    rcases except_bind_error h with h | ⟨o, _, h⟩
    · exact emit_error h
    · exact ih h

theorem lzApply_error {cap : Nat} {out : List Byte} {t : Token} {e : ErrorCause} (h : lzApply cap out t = .error e) :
    e.code = 2 ∨ e = .outFull := by
  unfold lzApply at h
  split at h
  · cases h
    exact .inl rfl
  · split at h
    · cases h
      exact .inl rfl
    · split at h
      · cases h
        exact .inl rfl
      · rcases except_bind_error h with h | ⟨o, _, h⟩
        · exact .inr (copyBytes_error h)
        · split at h
          · exact .inr (emit_error h)
          · cases h

theorem tokenParse_error {K : List Byte} {e : ErrorCause} (h : Token.parse K = .error e) : e = .tokenFlags := by
  unfold Token.parse at h
  split at h
  · cases h
    rfl
  · cases h

theorem replayRecords_error {cap : Nat} {B : List Byte} {n a : Nat} {t : Token} {out : List Byte} {e : ErrorCause}
    (h : replayRecords cap B n a t out = .error e) : e.code = 1 ∨ e.code = 2 ∨ e = .outFull := by
  induction n generalizing a t out with
  | zero => cases h
  | succ n ih =>
    rcases except_bind_error h with h | ⟨t', _, h⟩
    · exact .inl (by rw [tokenParse_error h]; rfl)
    · rcases except_bind_error h with h | ⟨o, _, h⟩
      · exact .inr (lzApply_error h)
      · exact ih h

theorem deriveLeaves_error {N : NodeStore} {fuel : Nat} {k : NodeIndex} {p : Bits} {e : ErrorCause}
    (h : deriveLeaves N fuel k p = .error e) : e = .codeTooLong := by
  induction fuel generalizing k p with
  | zero =>
    cases h
    rfl
  | succ fuel ih =>
    unfold deriveLeaves at h
    split at h
    · cases h
    · rcases except_bind_error h with h | ⟨l, _, h⟩
      · exact ih h
      · rcases except_bind_error h with h | ⟨r, _, h⟩
        · exact ih h
        · cases h

theorem deriveBody_error {s : State} {e : ErrorCause} (h : deriveBody s = .error e) : e = .nullRoot ∨ e = .codeTooLong := by
  rcases except_bind_error h with h | ⟨x, _, h⟩
  · unfold deriveTable at h
    split at h
    · split at h
      · cases h
        exact .inl rfl
      · cases h
    · split at h
      · cases h
      · rcases except_bind_error h with h | ⟨x, _, h⟩
        · exact .inr (deriveLeaves_error h)
        · cases h
  · cases h

theorem addEntry_error {T : CodeTable} {b len : Byte} {v : BitVec 16} {e : ErrorCause}
    (h : addEntry T b len v = .error e) : e.code = 1 := by
  unfold addEntry at h
  split at h
  · cases h
    rfl
  · split at h
    · cases h
      rfl
    · split at h
      · cases h
        rfl
      · cases h

theorem addEntries_error {B : List Byte} {n a : Nat} {T : CodeTable} {e : ErrorCause}
    (h : addEntries B n a T = .error e) : e.code = 1 := by
  induction n generalizing a T with
  | zero => cases h
  | succ n ih =>
    rcases except_bind_error h with h | ⟨T', _, h⟩
    · exact addEntry_error h
    · exact ih h

theorem parseTable_error {B : List Byte} {p : Nat} {e : ErrorCause} (h : parseTable B p = .error e) : e.code = 1 := by
  unfold parseTable at h
  split at h
  · cases h
    rfl
  · dsimp only at h
    split at h
    · cases h
      rfl
    · split at h
      · cases h
        rfl
      · rcases except_bind_error h with h | ⟨T, _, h⟩
        · exact addEntries_error h
        · split at h
          · cases h
          · cases h
            rfl

theorem accFlush_error {cap fuel : Nat} {a : Acc} {out : List Byte} {e : ErrorCause}
    (h : accFlush cap fuel a out = .error e) : e = .outFull := by
  induction fuel generalizing a out with
  | zero => cases h
  | succ fuel ih =>
    unfold accFlush at h
    split at h
    · rcases except_bind_error h with h | ⟨o, _, h⟩
      · exact emit_error h
      · exact ih h
    · cases h

theorem packLoop_error {cap : Nat} {T : CodeTable} {D : List Byte} {a : Acc} {out : List Byte} {e : ErrorCause}
    (h : packLoop cap T D a out = .error e) : e = .missingCode ∨ e = .outFull := by
  induction D generalizing a out with
  | nil => cases h
  | cons b D ih =>
    rcases except_bind_error h with h | ⟨x, _, h⟩
    · unfold packByte at h
      split at h
      · exact .inr (accFlush_error h)
      · cases h
        exact .inl rfl
    · exact ih h

theorem packTail_error {cap : Nat} {a : Acc} {out : List Byte} {e : ErrorCause} (h : packTail cap a out = .error e) :
    e = .outFull := by
  unfold packTail at h
  split at h
  · rcases except_bind_error h with h | ⟨x, _, h⟩
    · exact emit_error h
    · cases h
  · cases h

theorem walk_error {cap : Nat} {T : CodeTable} {S path : Bits} {out : List Byte} {e : ErrorCause}
    (h : walk cap T S path out = .error e) : e.code = 1 ∨ e = .outFull := by
  induction S generalizing path out with
  | nil =>
    unfold walk at h
    split at h
    · cases h
    · cases h
      exact .inl rfl
  | cons b S ih =>
    unfold walk at h
    split at h
    · rcases except_bind_error h with h | ⟨x, _, h⟩
      · exact .inr (emit_error h)
      · exact ih h
    · split at h
      · exact ih h
      · cases h
        exact .inl rfl

theorem walkLoop_error {cap : Nat} {T : CodeTable} {S : Bits} {w : Walk} {out : List Byte} {e : ErrorCause}
    (h : walkLoop cap T S w out = .error e) : e.code = 1 ∨ e = .outFull := by
  induction S generalizing w out with
  | nil => cases h
  | cons b S ih =>
    unfold walkLoop at h
    dsimp only at h
    split at h
    · rcases except_bind_error h with h | ⟨x, _, h⟩
      · exact .inr (emit_error h)
      · exact ih h
    · split at h
      · exact ih h
      · cases h
        exact .inl rfl

theorem repeatSymbol_error {cap : Nat} {b : Byte} {N : Word} {e : ErrorCause} (h : repeatSymbol cap b N = .error e) :
    e = .outFull := by
  rcases repeatSymbol_cases cap b N with ⟨_, he⟩ | ⟨_, he⟩ <;> rw [he] at h <;> cases h
  rfl

theorem huffUnblock_error {cap draw : Nat} {B : List Byte} {e : ErrorCause} (h : huffUnblock cap draw B = .error e) :
    e.code = 1 ∨ e = .outFull := by
  unfold huffUnblock at h
  split at h
  · cases h
    exact .inl rfl
  · split at h
    · cases h
      exact .inl rfl
    · rcases except_bind_error h with h | ⟨⟨T, n⟩, _, h⟩
      · exact .inl (parseTable_error h)
      · dsimp only at h
        split at h
        · cases h
        · split at h
          · split at h
            · cases h
              exact .inl rfl
            · rcases except_bind_error h with h | ⟨x, _, h⟩
              · exact .inr (repeatSymbol_error h)
              · cases h
          · split at h
            · cases h
              exact .inl rfl
            · rcases except_bind_error h with h | ⟨x, _, h⟩
              · exact walk_error h
              · cases h

/-- WALK.LEN never wraps on the way, so a walk that ends with LEN 0 ends with PATH 0. -/
theorem walkLoop_len_zero {cap : Nat} {T : CodeTable} {S : Bits} {w w' : Walk} {out out' : List Byte}
    (hw : w.len.toNat ≤ 30) (h0 : w.len = 0 → w.path = 0) (h : walkLoop cap T S w out = .ok (w', out'))
    (hz : w'.len = 0) : w' = ⟨0, 0⟩ := by
  induction S generalizing w out with
  | nil =>
    cases h
    cases w' with
    | mk p l =>
      simp only at hz h0 ⊢
      rw [h0 hz, hz]
  | cons b S ih =>
    unfold walkLoop at h
    dsimp only at h
    split at h
    · obtain ⟨o, _, h⟩ := except_bind_ok h
      exact ih (by decide) (fun _ => rfl) h
    · split at h
      · rename_i hx
        obtain ⟨e, _, he⟩ := List.any_eq_true.1 hx
        have hlt : (w.len + 1 : BitVec 5) < e.2.len := by simpa using (Bool.and_eq_true_iff.1 he).1
        have hb := e.2.len.isLt
        have hn : (w.len + 1 : BitVec 5).toNat = w.len.toNat + 1 := by
          rw [BitVec.toNat_add]
          have : w.len.toNat + 1 < 2 ^ 5 := by omega
          simpa using Nat.mod_eq_of_lt this
        have hlt' : (w.len + 1 : BitVec 5).toNat < e.2.len.toNat := BitVec.lt_def.1 hlt
        refine ih ?_ ?_ h
        · simp only
          omega
        · intro hzero
          simp only at hzero
          rw [hzero] at hn
          simp at hn
      · cases h

/-! ### Everything an instruction can do -/

/-- The two ways an instruction ends: its body ran, and a command is then complete; or one error was taken. -/
def Ends (i : Instr) (s : State) (r : Result) : Prop :=
  (∃ u, BodyFrame i s u ∧ r = .next (if isCommand i then u.complete else u)) ∨
  ∃ e, mayRaise i e = true ∧ r = .next (s.fail (listedWrites i) e)

theorem finish_ends {i : Instr} {s : State} {body : Except ErrorCause State} (hc : isCommand i = true)
    (hok : ∀ u, body = .ok u → BodyFrame i s u) (herr : ∀ e, body = .error e → mayRaise i e = true) :
    Ends i s (s.finish (listedWrites i) body) := by
  cases body with
  | ok u => exact .inl ⟨u, hok u rfl, by simp [State.finish, State.settle, hc]⟩
  | error e => exact .inr ⟨e, herr e rfl, rfl⟩

theorem finishRecord_ends {i : Instr} {s : State} {body : Except ErrorCause State} (hc : isCommand i = false)
    (hok : ∀ u, body = .ok u → BodyFrame i s u) (herr : ∀ e, body = .error e → mayRaise i e = true) :
    Ends i s (s.finishRecord (listedWrites i) body) := by
  cases body with
  | ok u => exact .inl ⟨u, hok u rfl, by simp [State.finishRecord, State.settleRecord, hc]⟩
  | error e => exact .inr ⟨e, herr e rfl, rfl⟩

theorem requireInput_error {s : State} {e : ErrorCause} (h : s.requireInput = .error e) : e = .paramInLen := by
  rcases requireInput_cases s with ⟨_, hr⟩ | ⟨_, hr⟩ <;> rw [hr] at h <;> cases h
  rfl

theorem KeepsUnlisted.refl (w : Writes) (s : State) : KeepsUnlisted w s s := by constructor <;> intro _ <;> rfl

theorem KeepsInputSide.refl (s : State) : KeepsInputSide s s := by constructor <;> intros <;> rfl

/-- A state that differs from `s` in listed destinations, OBUF, PQ, ACC and WALK only. -/
theorem bodyFrame_of {i : Instr} {s u : State} (hk : KeepsUnlisted (listedWrites i) s u) (hi : KeepsInputSide s u)
    (hs : u.status = s.status) (he : u.err = s.err) (hr : u.record = s.record) (hp : u.pq = s.pq ∨ u.pq = [])
    (ha : u.acc = s.acc ∨ u.acc = ⟨0, 0⟩) (hw : u.walk = s.walk ∨ u.walk = ⟨0, 0⟩)
    (ho : keepsOutput i = true → u.outLen = s.outLen ∧ u.obuf = s.obuf ∧ u.obufEra = s.obufEra) : BodyFrame i s u :=
  ⟨hk, hi, hs, he, hr, hp, ha, hw, ho⟩

theorem deriveBody_ok {s u : State} (h : deriveBody s = .ok u) :
    ∃ T n, deriveTable s.node s.root s.freq.anyPresent = .ok (T, n) ∧ u = s.setCodeTable T n := by
  obtain ⟨⟨T, n⟩, h1, h2⟩ := except_bind_ok h
  cases h2
  exact ⟨T, n, h1, rfl⟩

theorem replayToken_ends {i : Instr} (s : State) (t : Token) (hi : listedWrites i = tokenWrites) (hc : isCommand i = false)
    (hk : keepsOutput i = false) (hr : ∀ e, e.code = 2 ∨ e = .outFull → mayRaise i e = true) :
    Ends i s (replayToken t s) := by
  rw [replayToken, ← hi]
  refine finishRecord_ends hc ?_ ?_
  · intro u h
    obtain ⟨out, _, h⟩ := except_bind_ok h
    cases h
    refine bodyFrame_of ?_ ?_ rfl rfl rfl (.inl rfl) (.inl rfl) (.inl rfl) (by simp [hk])
    · rw [hi]
      constructor <;> intro hw <;> first | exact absurd hw.symm Bool.false_ne_true | rfl
    · constructor <;> intros <;> rfl
  · intro e h
    rcases except_bind_error h with h | ⟨o, _, h⟩
    · exact hr e (lzApply_error h)
    · cases h

theorem exec_nop (s : State) : Ends .nop s (exec .nop s) := by
  exact .inl ⟨s, by constructor <;> first | exact KeepsUnlisted.refl _ _ | exact KeepsInputSide.refl _ | simp, rfl⟩

theorem exec_freq (s : State) : Ends .freq s (exec .freq s) := by
  refine finish_ends rfl ?_ ?_
  · intro u h
    obtain ⟨D, _, h⟩ := except_bind_ok h
    cases h
    refine bodyFrame_of ?_ ?_ rfl rfl rfl (.inl rfl) (.inl rfl) (.inl rfl) (fun _ => ⟨rfl, rfl, rfl⟩)
    · constructor <;> intro hw <;> first | exact absurd hw.symm Bool.false_ne_true | rfl
    · constructor <;> intros <;> rfl
  · intro e h
    rcases except_bind_error h with h | ⟨D, _, h⟩
    · rw [requireInput_error h]
      rfl
    · cases h

theorem exec_tbuild (s : State) : Ends .tbuild s (exec .tbuild s) := by
  refine finish_ends rfl ?_ ?_
  · intro u h
    cases h
    refine bodyFrame_of ?_ ?_ rfl rfl rfl (.inr rfl) (.inl rfl) (.inl rfl) (fun _ => ⟨rfl, rfl, rfl⟩)
    · constructor <;> intro hw <;> first | exact absurd hw.symm Bool.false_ne_true | rfl
    · constructor <;> intros <;> rfl
  · intro e h
    cases h

theorem exec_derive (s : State) : Ends .derive s (exec .derive s) := by
  refine finish_ends rfl ?_ ?_
  · intro u h
    obtain ⟨T, n, _, rfl⟩ := deriveBody_ok h
    refine bodyFrame_of ?_ ?_ rfl rfl rfl (.inl rfl) (.inl rfl) (.inl rfl) (fun _ => ⟨rfl, rfl, rfl⟩)
    · constructor <;> intro hw <;> first | exact absurd hw.symm Bool.false_ne_true | rfl
    · constructor <;> intros <;> rfl
  · intro e h
    rcases deriveBody_error h with rfl | rfl <;> rfl

theorem exec_tser (s : State) : Ends .tser s (exec .tser s) := by
  refine finish_ends rfl ?_ ?_
  · intro u h
    split at h
    · cases h
    · cases h
      refine bodyFrame_of ?_ ?_ rfl rfl rfl (.inl rfl) (.inl rfl) (.inl rfl) (fun hk => by cases hk)
      · constructor <;> intro hw <;> rfl
      · constructor <;> intros <;> rfl
  · intro e h
    split at h
    · cases h
      rfl
    · cases h

theorem exec_tdes (s : State) : Ends .tdes s (exec .tdes s) := by
  refine finish_ends rfl ?_ ?_
  · intro u h
    obtain ⟨B, _, h⟩ := except_bind_ok h
    obtain ⟨⟨T, n⟩, _, h⟩ := except_bind_ok h
    cases h
    refine bodyFrame_of ?_ ?_ rfl rfl rfl (.inl rfl) (.inl rfl) (.inl rfl) (fun _ => ⟨rfl, rfl, rfl⟩)
    · constructor <;> intro hw <;> first | exact absurd hw.symm Bool.false_ne_true | rfl
    · constructor <;> intros <;> rfl
  · intro e h
    rcases except_bind_error h with h | ⟨D, _, h⟩
    · rw [requireInput_error h]
      rfl
    · rcases except_bind_error h with h | ⟨⟨T, n⟩, _, h⟩
      · simp [mayRaise, parseTable_error h]
      · cases h

theorem exec_hpack (s : State) : Ends .hpack s (exec .hpack s) := by
  refine finish_ends rfl ?_ ?_
  · intro u h
    obtain ⟨D, _, h⟩ := except_bind_ok h
    obtain ⟨⟨a, out⟩, _, h⟩ := except_bind_ok h
    obtain ⟨⟨out', pad⟩, _, h⟩ := except_bind_ok h
    cases h
    refine bodyFrame_of ?_ ?_ rfl rfl rfl (.inl rfl) (.inr rfl) (.inl rfl) (fun hk => by cases hk)
    · constructor <;> intro hw <;> first | exact absurd hw.symm Bool.false_ne_true | rfl
    · constructor <;> intros <;> rfl
  · intro e h
    rcases except_bind_error h with h | ⟨D, _, h⟩
    · rw [requireInput_error h]
      rfl
    · rcases except_bind_error h with h | ⟨⟨a, out⟩, _, h⟩
      · rcases packLoop_error h with rfl | rfl <;> rfl
      · rcases except_bind_error h with h | ⟨⟨out', pad⟩, _, h⟩
        · rw [packTail_error h]
          rfl
        · cases h

theorem exec_hwalk (s : State) : Ends .hwalk s (exec .hwalk s) := by
  refine finish_ends rfl ?_ ?_
  · intro u h
    obtain ⟨P, _, h⟩ := except_bind_ok h
    split at h
    · cases h
    · obtain ⟨⟨w, out⟩, hl, h⟩ := except_bind_ok h
      dsimp only at h
      split at h
      · rename_i hz
        cases h
        refine bodyFrame_of ?_ ?_ rfl rfl rfl (.inl rfl) (.inl rfl)
          (.inr (walkLoop_len_zero (by decide) (fun _ => rfl) hl hz)) (fun hk => by cases hk)
        · constructor <;> intro hw <;> rfl
        · constructor <;> intros <;> rfl
      · cases h
  · intro e h
    rcases except_bind_error h with h | ⟨D, _, h⟩
    · rw [requireInput_error h]
      rfl
    · split at h
      · cases h
        rfl
      · rcases except_bind_error h with h | ⟨⟨w, out⟩, _, h⟩
        · rcases walkLoop_error h with h | rfl
          · simp [mayRaise, h]
          · rfl
        · dsimp only at h
          split at h
          · cases h
          · cases h
            rfl

theorem hcomp_frame (D : List Byte) (T : CodeTable) (n : Nat) (s : State) (block : List Byte) (pad : BitVec 3) :
    BodyFrame .hcomp s
      { ((tbuildBody (freqBody D s)).setCodeTable T n).setOutput block with acc := ⟨0, 0⟩, pad := pad } := by
  refine bodyFrame_of ?_ ?_ ?_ ?_ ?_ (.inr ?_) (.inr ?_) (.inl ?_) (fun hk => by cases hk)
  · constructor <;> intro hw <;>
      first | exact absurd hw.symm Bool.false_ne_true | simp [tbuildBody, freqBody]
  · constructor <;> intros <;> simp [tbuildBody, freqBody, State.ibufAt]
  all_goals simp [tbuildBody, freqBody]

theorem exec_hcomp (s : State) : Ends .hcomp s (exec .hcomp s) := by
  refine finish_ends rfl ?_ ?_
  · intro u h
    obtain ⟨D, _, h⟩ := except_bind_ok h
    obtain ⟨t, hd, h⟩ := except_bind_ok h
    obtain ⟨T, n, _, rfl⟩ := deriveBody_ok hd
    dsimp only at h
    split at h
    · cases h
    · cases h
      exact hcomp_frame D T n s _ _
  · intro e h
    rcases except_bind_error h with h | ⟨D, _, h⟩
    · rw [requireInput_error h]
      rfl
    · rcases except_bind_error h with h | ⟨t, _, h⟩
      · rcases deriveBody_error h with rfl | rfl <;> rfl
      · dsimp only at h
        split at h
        · cases h
          rfl
        · cases h

theorem exec_hdecomp (s : State) : Ends .hdecomp s (exec .hdecomp s) := by
  refine finish_ends rfl ?_ ?_
  · intro u h
    obtain ⟨B, _, h⟩ := except_bind_ok h
    obtain ⟨⟨T, n, out⟩, _, h⟩ := except_bind_ok h
    cases h
    refine bodyFrame_of ?_ ?_ rfl rfl rfl (.inl rfl) (.inl rfl) (.inr rfl) (fun hk => by cases hk)
    · constructor <;> intro hw <;> first | exact absurd hw.symm Bool.false_ne_true | rfl
    · constructor <;> intros <;> rfl
  · intro e h
    rcases except_bind_error h with h | ⟨D, _, h⟩
    · rw [requireInput_error h]
      rfl
    · rcases except_bind_error h with h | ⟨⟨T, n, out⟩, _, h⟩
      · rcases huffUnblock_error h with h | rfl
        · simp [mayRaise, h]
        · rfl
      · cases h

theorem exec_lzfind (s : State) : Ends .lzfind s (exec .lzfind s) := by
  refine finish_ends rfl ?_ ?_
  · intro u h
    obtain ⟨D, _, h⟩ := except_bind_ok h
    dsimp only at h
    split at h
    · cases h
      refine bodyFrame_of ?_ ?_ rfl rfl rfl (.inl rfl) (.inl rfl) (.inl rfl) (fun _ => ⟨rfl, rfl, rfl⟩)
      · constructor <;> intro hw <;> first | exact absurd hw.symm Bool.false_ne_true | rfl
      · constructor <;> intros <;> rfl
    · cases h
      refine bodyFrame_of ?_ ?_ rfl rfl rfl (.inl rfl) (.inl rfl) (.inl rfl) (fun _ => ⟨rfl, rfl, rfl⟩)
      · constructor <;> intro hw <;> first | exact absurd hw.symm Bool.false_ne_true | rfl
      · constructor <;> intros <;> rfl
  · intro e h
    rcases except_bind_error h with h | ⟨D, _, h⟩
    · rw [requireInput_error h]
      rfl
    · dsimp only at h
      split at h <;> cases h

theorem exec_lzreplay (s : State) : Ends .lzreplay s (exec .lzreplay s) := by
  refine finish_ends rfl ?_ ?_
  · intro u h
    obtain ⟨out, _, h⟩ := except_bind_ok h
    cases h
    refine bodyFrame_of ?_ ?_ rfl rfl rfl (.inl rfl) (.inl rfl) (.inl rfl) (fun hk => by cases hk)
    · constructor <;> intro hw <;> rfl
    · constructor <;> intros <;> rfl
  · intro e h
    rcases except_bind_error h with h | ⟨o, _, h⟩
    · rcases lzApply_error h with h | rfl
      · simp [mayRaise, h]
      · rfl
    · cases h

theorem exec_lzcomp (s : State) : Ends .lzcomp s (exec .lzcomp s) := by
  refine finish_ends rfl ?_ ?_
  · intro u h
    obtain ⟨D, _, h⟩ := except_bind_ok h
    obtain ⟨out, _, h⟩ := except_bind_ok h
    cases h
    refine bodyFrame_of ?_ ?_ rfl rfl rfl (.inl rfl) (.inl rfl) (.inl rfl) (fun hk => by cases hk)
    · constructor <;> intro hw <;> first | exact absurd hw.symm Bool.false_ne_true | rfl
    · constructor <;> intros <;> rfl
  · intro e h
    rcases except_bind_error h with h | ⟨D, _, h⟩
    · rw [requireInput_error h]
      rfl
    · rcases except_bind_error h with h | ⟨o, _, h⟩
      · rw [emitAll_error h]
        rfl
      · cases h

theorem exec_lzdecomp (s : State) : Ends .lzdecomp s (exec .lzdecomp s) := by
  refine finish_ends rfl ?_ ?_
  · intro u h
    obtain ⟨B, _, h⟩ := except_bind_ok h
    split at h
    · cases h
    · obtain ⟨⟨t, out⟩, _, h⟩ := except_bind_ok h
      cases h
      refine bodyFrame_of ?_ ?_ rfl rfl rfl (.inl rfl) (.inl rfl) (.inl rfl) (fun hk => by cases hk)
      · constructor <;> intro hw <;> first | exact absurd hw.symm Bool.false_ne_true | rfl
      · constructor <;> intros <;> rfl
  · intro e h
    rcases except_bind_error h with h | ⟨D, _, h⟩
    · rw [requireInput_error h]
      rfl
    · split at h
      · cases h
        rfl
      · rcases except_bind_error h with h | ⟨⟨t, out⟩, _, h⟩
        · rcases replayRecords_error h with h | h | rfl
          · simp [mayRaise, h]
          · simp [mayRaise, h]
          · rfl
        · cases h

theorem exec_hblockHeader (s : State) (padding : Byte) (count : BitVec 16) : Ends (.hblockHeader padding count) s (exec (.hblockHeader padding count) s) := by
  refine finishRecord_ends rfl ?_ ?_
  · intro u h
    split at h
    · cases h
    · cases h
      refine bodyFrame_of ?_ ?_ rfl rfl rfl (.inl rfl) (.inl rfl) (.inl rfl) (fun _ => ⟨rfl, rfl, rfl⟩)
      · constructor <;> intro hw <;> first | exact absurd hw.symm Bool.false_ne_true | rfl
      · constructor <;> intros <;> rfl
  · intro e h
    split at h
    · rename_i he
      cases h
      unfold headerError at he
      split at he
      · cases he
        rfl
      · split at he
        · cases he
          rfl
        · cases he
    · cases h

theorem exec_hblockEntry (s : State) (sym : Byte) (len : Byte) (bits : BitVec 16) : Ends (.hblockEntry sym len bits) s (exec (.hblockEntry sym len bits) s) := by
  refine finishRecord_ends rfl ?_ ?_
  · intro u h
    obtain ⟨T, _, h⟩ := except_bind_ok h
    cases h
    refine bodyFrame_of ?_ ?_ rfl rfl rfl (.inl rfl) (.inl rfl) (.inl rfl) (fun _ => ⟨rfl, rfl, rfl⟩)
    · constructor <;> intro hw <;> first | exact absurd hw.symm Bool.false_ne_true | rfl
    · constructor <;> intros <;> rfl
  · intro e h
    rcases except_bind_error h with h | ⟨D, _, h⟩
    · simp [mayRaise, addEntry_error h]
    · cases h

theorem exec_hblockCount (s : State) (n : Word) : Ends (.hblockCount n) s (exec (.hblockCount n) s) := by
  refine finishRecord_ends rfl ?_ ?_
  · intro u h
    obtain ⟨out, _, h⟩ := except_bind_ok h
    cases h
    refine bodyFrame_of ?_ ?_ rfl rfl rfl (.inl rfl) (.inl rfl) (.inl rfl) (fun hk => by cases hk)
    · constructor <;> intro hw <;> rfl
    · constructor <;> intros <;> rfl
  · intro e h
    rcases except_bind_error h with h | ⟨D, _, h⟩
    · rw [repeatSymbol_error h]
      rfl
    · cases h

theorem exec_tokenLit (s : State) (lit : Byte) : Ends (.tokenLit lit) s (exec (.tokenLit lit) s) := by
  exact replayToken_ends s _ rfl rfl rfl fun e h => by rcases h with h | rfl <;> simp [mayRaise, *]

theorem exec_tokenMatch (s : State) (off : Word) (len : Word) (lit : Byte) : Ends (.tokenMatch off len lit) s (exec (.tokenMatch off len lit) s) := by
  exact replayToken_ends s _ rfl rfl rfl fun e h => by rcases h with h | rfl <;> simp [mayRaise, *]

theorem exec_tokenMatchend (s : State) (off : Word) (len : Word) (x : Byte) : Ends (.tokenMatchend off len x) s (exec (.tokenMatchend off len x) s) := by
  exact replayToken_ends s _ rfl rfl rfl fun e h => by rcases h with h | rfl <;> simp [mayRaise, *]

theorem exec_tokenNull (s : State) (x : Byte) : Ends (.tokenNull x) s (exec (.tokenNull x) s) := by
  exact replayToken_ends s _ rfl rfl rfl fun e h => by rcases h with h | rfl <;> simp [mayRaise, *]

theorem exec_tokenInvalidLenNoOffset (s : State) (len : Word) (litv : Bool) (x : Byte) : Ends (.tokenInvalidLenNoOffset len litv x) s (exec (.tokenInvalidLenNoOffset len litv x) s) := by
  exact replayToken_ends s _ rfl rfl rfl fun e h => by rcases h with h | rfl <;> simp [mayRaise, *]

theorem exec_tokenInvalidZeroLength (s : State) (off : Word) (litv : Bool) (x : Byte) : Ends (.tokenInvalidZeroLength off litv x) s (exec (.tokenInvalidZeroLength off litv x) s) := by
  exact replayToken_ends s _ rfl rfl rfl fun e h => by rcases h with h | rfl <;> simp [mayRaise, *]

/-- Everything an instruction but CLR can do. -/
theorem exec_cases (i : Instr) (s : State) (h : i ≠ .clr) : Ends i s (exec i s) := by
  cases i with
  | clr => exact absurd rfl h
  | nop => exact exec_nop s
  | freq => exact exec_freq s
  | tbuild => exact exec_tbuild s
  | derive => exact exec_derive s
  | tser => exact exec_tser s
  | tdes => exact exec_tdes s
  | hpack => exact exec_hpack s
  | hwalk => exact exec_hwalk s
  | hcomp => exact exec_hcomp s
  | hdecomp => exact exec_hdecomp s
  | lzfind => exact exec_lzfind s
  | lzreplay => exact exec_lzreplay s
  | lzcomp => exact exec_lzcomp s
  | lzdecomp => exact exec_lzdecomp s
  | hblockHeader padding count => exact exec_hblockHeader s padding count
  | hblockEntry sym len bits => exact exec_hblockEntry s sym len bits
  | hblockCount n => exact exec_hblockCount s n
  | tokenLit lit => exact exec_tokenLit s lit
  | tokenMatch off len lit => exact exec_tokenMatch s off len lit
  | tokenMatchend off len x => exact exec_tokenMatchend s off len x
  | tokenNull x => exact exec_tokenNull s x
  | tokenInvalidLenNoOffset len litv x => exact exec_tokenInvalidLenNoOffset s len litv x
  | tokenInvalidZeroLength off litv x => exact exec_tokenInvalidZeroLength s off litv x

/-- Every instruction ends in a next state (R256). -/
theorem exec_next (i : Instr) (s : State) : ∃ t, exec i s = .next t := by cases i <;> exact ⟨_, rfl⟩

end Sys2Proof.Machine
end

