-- ==== Sys2Proof/Laws/Operands.lean ====
section
/-! SUPPORT. The operand forms: bit-strings and numbers (R10), big-endian fields (R11), table entries (R35). -/

namespace Sys2Proof.Machine

/-! ### Bit-strings -/

@[simp] theorem bitsVal_nil : bitsVal [] = 0 := rfl

@[simp] theorem bitsVal_append_singleton (c : Bits) (b : Bool) : bitsVal (c ++ [b]) = 2 * bitsVal c + b.toNat := by
  simp [bitsVal, List.foldl_append]

/-- A string of `n` bits is a number below `2 ^ n`. -/
theorem bitsVal_lt (c : Bits) : bitsVal c < 2 ^ c.length := by
  induction c using List.reverseRecOn with
  | nil => simp
  | append_singleton c b ih =>
    have : b.toNat ≤ 1 := by cases b <;> decide
    simp only [bitsVal_append_singleton, List.length_append, List.length_cons, List.length_nil, Nat.pow_succ]
    omega

@[simp] theorem bitsOf_length (v n : Nat) : (bitsOf v n).length = n := by simp [bitsOf]

theorem bitsOf_succ (v n : Nat) : bitsOf v (n + 1) = bitsOf (v / 2) n ++ [v.testBit 0] := by
  refine List.ext_getElem (by simp) fun k h1 h2 => ?_
  simp only [bitsOf_length] at h1
  by_cases hk : k < n
  · rw [List.getElem_append_left (by simpa using hk)]
    simp only [bitsOf, List.getElem_map, List.getElem_range]
    have e : n + 1 - 1 - k = n - 1 - k + 1 := by omega
    rw [e, Nat.testBit_succ]
  · have e : k = n := by omega
    subst e
    simp [bitsOf, List.getElem_append_right]

/-- R10: `str` then `val`. -/
theorem bitsVal_bitsOf (v n : Nat) (h : v < 2 ^ n) : bitsVal (bitsOf v n) = v := by
  induction n generalizing v with
  | zero =>
    have : v = 0 := by simpa using h
    simp [bitsOf, this]
  | succ n ih =>
    rw [bitsOf_succ, bitsVal_append_singleton, ih (v / 2) (by omega)]
    have : (v.testBit 0).toNat = v % 2 := by
      rw [Nat.testBit_zero]
      rcases Nat.mod_two_eq_zero_or_one v with h | h <;> simp [h]
    omega

/-- R10: `val` then `str`. -/
theorem bitsOf_bitsVal (c : Bits) : bitsOf (bitsVal c) c.length = c := by
  induction c using List.reverseRecOn with
  | nil => rfl
  | append_singleton c b ih =>
    have h1 : (2 * bitsVal c + b.toNat) / 2 = bitsVal c := by
      cases b <;> (simp; try omega)
    have h2 : (2 * bitsVal c + b.toNat).testBit 0 = b := by
      rw [Nat.testBit_zero]
      cases b <;> simp [Nat.add_mod]
    rw [bitsVal_append_singleton, List.length_append, List.length_singleton, bitsOf_succ, h1, h2, ih]

/-- Two strings of one length that are one number are one string. -/
theorem bitsVal_injective {c d : Bits} (hl : c.length = d.length) (hv : bitsVal c = bitsVal d) : c = d := by
  rw [← bitsOf_bitsVal c, ← bitsOf_bitsVal d, hl, hv]

/-- The first bits of a string, as a number. -/
theorem bitsOf_take (v n k : Nat) (h : k ≤ n) : (bitsOf v n).take k = bitsOf (v >>> (n - k)) k := by
  refine List.ext_getElem (by simp [h]) fun j h1 h2 => ?_
  simp only [bitsOf_length] at h2
  simp only [bitsOf, List.getElem_take, List.getElem_map, List.getElem_range, Nat.testBit_shiftRight]
  congr 1
  omega

/-! ### Codes of entries -/

@[simp] theorem CtEntry.code_length (e : CtEntry) : e.code.length = e.len.toNat := by simp [CtEntry.code]

/-- An entry made of a code of at most 16 bits holds that code (R35, R152). -/
theorem CtEntry.code_ofCode {c : Bits} (h : c.length ≤ 16) : (CtEntry.ofCode c).code = c := by
  have h1 : (BitVec.ofNat 5 c.length).toNat = c.length := by
    rw [BitVec.toNat_ofNat]
    exact Nat.mod_eq_of_lt (by omega)
  have h2 : bitsVal c < 2 ^ 16 := lt_of_lt_of_le (bitsVal_lt c) (Nat.pow_le_pow_right (by omega) h)
  have h3 : (BitVec.ofNat 16 (bitsVal c)).toNat = bitsVal c := by
    rw [BitVec.toNat_ofNat]
    exact Nat.mod_eq_of_lt h2
  simp only [CtEntry.code, CtEntry.ofCode, h1, h3, bitsOf_bitsVal]

/-- For entries whose bits fit their lengths, the test of R157 in numbers is "is a prefix of". -/
theorem CtEntry.isPrefix_iff {a b : CtEntry} (ha : a.bits.toNat < 2 ^ a.len.toNat) (hb : b.bits.toNat < 2 ^ b.len.toNat) :
    a.isPrefix b = true ↔ a.code <+: b.code := by
  have hs : (b.bits >>> (b.len.toNat - a.len.toNat)).toNat = b.bits.toNat >>> (b.len.toNat - a.len.toNat) :=
    BitVec.toNat_ushiftRight _ _
  simp only [CtEntry.isPrefix, Bool.and_eq_true, decide_eq_true_eq, beq_iff_eq]
  constructor
  · rintro ⟨h1, h2⟩
    have hl : a.len.toNat ≤ b.len.toNat := BitVec.le_def.1 h1
    have e : b.code.take a.len.toNat = a.code := by
      rw [CtEntry.code, bitsOf_take _ _ _ hl, ← hs, h2]
      rfl
    rw [← e]
    exact List.take_prefix _ _
  · intro h
    have hl : a.len.toNat ≤ b.len.toNat := by simpa using h.length_le
    have e : bitsOf (b.bits.toNat >>> (b.len.toNat - a.len.toNat)) a.len.toNat = a.code := by
      rw [← bitsOf_take _ _ _ hl, List.prefix_iff_eq_take.1 h]
      simp [CtEntry.code]
    have hlt : b.bits.toNat >>> (b.len.toNat - a.len.toNat) < 2 ^ a.len.toNat := by
      rw [Nat.shiftRight_eq_div_pow, Nat.div_lt_iff_lt_mul (by positivity), ← Nat.pow_add]
      rwa [Nat.add_sub_cancel' hl]
    have hv := congrArg bitsVal e
    rw [bitsVal_bitsOf _ _ hlt, CtEntry.code, bitsVal_bitsOf _ _ ha] at hv
    exact ⟨BitVec.le_def.2 hl, BitVec.eq_of_toNat_eq (by rw [hs, hv])⟩

/-- A legal valid entry's bits fit its length (R35). -/
theorem CtEntry.legal_bits {e : CtEntry} (h : e.legal) (hv : e.valid = true) :
    1 ≤ e.len.toNat ∧ e.len.toNat ≤ 16 ∧ e.bits.toNat < 2 ^ e.len.toNat := by
  simpa [CtEntry.legal, hv] using h

/-! ### The code table -/

@[simp] theorem CodeTable.at_empty (s : Byte) : CodeTable.empty.at s = CtEntry.invalid := by
  simp [CodeTable.at, CodeTable.empty]

@[simp] theorem CodeTable.at_put_self (T : CodeTable) (s : Byte) (e : CtEntry) : (T.put s e).at s = e := by
  simp [CodeTable.at, CodeTable.put]

theorem CodeTable.at_put_ne (T : CodeTable) {s r : Byte} (e : CtEntry) (h : r ≠ s) : (T.put s e).at r = T.at r := by
  have h' : s.toNat ≠ r.toNat := fun hc => h (BitVec.eq_of_toNat_eq hc.symm)
  simp [CodeTable.at, CodeTable.put, h']

theorem CodeTable.at_put (T : CodeTable) (s r : Byte) (e : CtEntry) : (T.put s e).at r = if r = s then e else T.at r := by
  by_cases h : r = s
  · simp [h]
  · rw [CodeTable.at_put_ne T e h, if_neg h]

/-- Two tables with the same entries are one table. -/
theorem CodeTable.ext_at {T U : CodeTable} (h : ∀ s, T.at s = U.at s) : T = U := by
  refine Vector.ext fun k hk => ?_
  have e : (BitVec.ofNat 8 k).toNat = k := by
    rw [BitVec.toNat_ofNat]
    exact Nat.mod_eq_of_lt hk
  simpa [CodeTable.at, e] using h (BitVec.ofNat 8 k)

/-- The valid entries are the entries of the symbols, in ascending order, that are valid (R96). -/
theorem CodeTable.entries_eq (T : CodeTable) : T.entries =
    ((List.range 256).filter fun b => (T.at (BitVec.ofNat 8 b)).valid).map
      fun b => (BitVec.ofNat 8 b, T.at (BitVec.ofNat 8 b)) := by
  have e : ∀ b, b < 256 → (BitVec.ofNat 8 b).toNat = b := fun b hb => by
    rw [BitVec.toNat_ofNat]
    exact Nat.mod_eq_of_lt hb
  have hz : T.toList.zipIdx = (List.range 256).map fun b => (T.at (BitVec.ofNat 8 b), b) := by
    refine List.ext_getElem (by simp) fun k h1 h2 => ?_
    have hk : k < 256 := by simpa using h2
    simp [CodeTable.at, Nat.mod_eq_of_lt hk]
  rw [CodeTable.entries, hz]
  generalize List.range 256 = L
  induction L with
  | nil => rfl
  | cons b L ih =>
    rw [List.map_cons, List.filterMap_cons, ih, List.filter_cons]
    cases hv : (T.at (BitVec.ofNat 8 b)).valid <;> simp [hv]

/-- Which pairs stand among the valid entries. -/
theorem CodeTable.mem_entries {T : CodeTable} {s : Byte} {e : CtEntry} :
    (s, e) ∈ T.entries ↔ T.at s = e ∧ e.valid = true := by
  rw [CodeTable.entries_eq, List.mem_map]
  constructor
  · rintro ⟨b, hb, h⟩
    cases h
    exact ⟨rfl, (List.mem_filter.1 hb).2⟩
  · rintro ⟨rfl, hv⟩
    refine ⟨s.toNat, List.mem_filter.2 ⟨List.mem_range.2 s.isLt, ?_⟩, ?_⟩
    · simpa using hv
    · simp

/-- No symbol has two entries. -/
theorem CodeTable.entries_nodup (T : CodeTable) : (T.entries.map Prod.fst).Nodup := by
  rw [CodeTable.entries_eq, List.map_map]
  refine List.Nodup.map_on ?_ (List.nodup_range.filter _)
  intro x hx y hy h
  have hx := List.mem_range.1 (List.mem_filter.1 hx).1
  have hy := List.mem_range.1 (List.mem_filter.1 hy).1
  have := congrArg BitVec.toNat h
  simpa [Nat.mod_eq_of_lt hx, Nat.mod_eq_of_lt hy] using this

/-- The number of valid entries (R31). -/
theorem CodeTable.count_eq (T : CodeTable) :
    T.count = ((List.range 256).filter fun b => (T.at (BitVec.ofNat 8 b)).valid).length := by
  rw [CodeTable.count, CodeTable.entries_eq, List.length_map]

theorem CodeTable.count_le (T : CodeTable) : T.count ≤ 256 := by
  rw [CodeTable.count_eq]
  exact (List.length_filter_le _ _).trans (by simp)

/-- The prefix condition in numbers is the one on codes, for a table of legal entries (R35, R157). -/
theorem CodeTable.prefixFree_iff {T : CodeTable} (h : ∀ s, (T.at s).legal) : T.prefixFree = true ↔
    ∀ a b, a ≠ b → (T.at a).valid = true → (T.at b).valid = true → ¬ (T.at a).code <+: (T.at b).code := by
  have bits := fun s hv => (CtEntry.legal_bits (h s) hv).2.2
  simp only [CodeTable.prefixFree, List.all_eq_true]
  constructor
  · intro hp a b hab ha hb hc
    have h1 := hp (a, T.at a) (CodeTable.mem_entries.2 ⟨rfl, ha⟩) (b, T.at b) (CodeTable.mem_entries.2 ⟨rfl, hb⟩)
    have h2 := (CtEntry.isPrefix_iff (bits a ha) (bits b hb)).2 hc
    simp [hab, h2] at h1
  · rintro hp ⟨a, e⟩ ha ⟨b, e'⟩ hb
    obtain ⟨rfl, hva⟩ := CodeTable.mem_entries.1 ha
    obtain ⟨rfl, hvb⟩ := CodeTable.mem_entries.1 hb
    by_cases hab : a = b
    · simp [hab]
    · have h2 := hp a b hab hva hvb
      rw [← CtEntry.isPrefix_iff (bits a hva) (bits b hvb)] at h2
      simp [h2]

/-- The empty table is good (R35). -/
theorem CodeTable.good_empty : CodeTable.empty.Good where
  legal s := by simp [CtEntry.legal, CtEntry.invalid]
  prefixFree := by
    rw [CodeTable.prefixFree_iff fun s => by simp [CtEntry.legal, CtEntry.invalid]]
    intro a b _ ha
    simp [CtEntry.invalid] at ha

/-! ### Big-endian fields -/

theorem byteAt_cons_zero (b : Byte) (B : List Byte) : byteAt (b :: B) 0 = b := rfl

theorem byteAt_cons_succ (b : Byte) (B : List Byte) (k : Nat) : byteAt (b :: B) (k + 1) = byteAt B k := by
  simp [byteAt]

theorem append_extract16 (v : BitVec 16) : v.extractLsb' 8 8 ++ v.extractLsb' 0 8 = v := by
  apply BitVec.eq_of_toNat_eq
  rw [toNat_append_add, BitVec.extractLsb'_toNat, BitVec.extractLsb'_toNat, Nat.shiftRight_eq_div_pow]
  have := v.isLt
  omega

theorem append_extract32 (v : Word) : v.extractLsb' 16 16 ++ v.extractLsb' 0 16 = v := by
  apply BitVec.eq_of_toNat_eq
  rw [toNat_append_add, BitVec.extractLsb'_toNat, BitVec.extractLsb'_toNat, Nat.shiftRight_eq_div_pow]
  have := v.isLt
  omega

/-- R11: `be16` reads back. -/
theorem readBe16_be16 (v : BitVec 16) (B : List Byte) : readBe16 (be16 v ++ B) 0 = v := by
  simpa [readBe16, be16, byteAt] using append_extract16 v

/-- R11: `be32` reads back. -/
theorem readBe32_be32 (v : Word) (B : List Byte) : readBe32 (be32 v ++ B) 0 = v := by
  have h1 : readBe16 (be32 v ++ B) 0 = v.extractLsb' 16 16 := by
    rw [be32, List.append_assoc]
    exact readBe16_be16 _ _
  have h2 : readBe16 (be32 v ++ B) (0 + 2) = v.extractLsb' 0 16 := by
    have e : readBe16 (be32 v ++ B) (0 + 2) = readBe16 (be16 (v.extractLsb' 0 16) ++ B) 0 := by
      simp [readBe16, be32, be16, byteAt]
    rw [e]
    exact readBe16_be16 _ _
  rw [readBe32, h1, h2, append_extract32]

@[simp] theorem be16_length (v : BitVec 16) : (be16 v).length = 2 := rfl

@[simp] theorem be32_length (v : Word) : (be32 v).length = 4 := rfl

@[simp] theorem Token.ser_length (t : Token) : t.ser.length = 10 := rfl

end Sys2Proof.Machine
end

