-- ==== Sys2Proof/Laws/PerInstr.lean ====
section
/-! SUPPORT. Family Encoding of LAWS.json: a well-formed instruction decodes from its own words. -/

namespace Sys2Proof.Laws.Encoding

/-- Decoding the words of a well-formed instruction gives it back. -/
def Statement (i : Instr) : Prop := i.wf = true → decode (encode i) = .ok i

theorem nop : Statement .nop := fun _ => by decide
theorem clr : Statement .clr := fun _ => by decide
theorem freq : Statement .freq := fun _ => by decide
theorem tbuild : Statement .tbuild := fun _ => by decide
theorem derive : Statement .derive := fun _ => by decide
theorem tser : Statement .tser := fun _ => by decide
theorem tdes : Statement .tdes := fun _ => by decide
theorem hpack : Statement .hpack := fun _ => by decide
theorem hwalk : Statement .hwalk := fun _ => by decide
theorem hcomp : Statement .hcomp := fun _ => by decide
theorem hdecomp : Statement .hdecomp := fun _ => by decide
theorem lzfind : Statement .lzfind := fun _ => by decide
theorem lzreplay : Statement .lzreplay := fun _ => by decide
theorem lzcomp : Statement .lzcomp := fun _ => by decide
theorem lzdecomp : Statement .lzdecomp := fun _ => by decide

theorem hblockHeader (padding : Byte) (count : BitVec 16) : Statement (.hblockHeader padding count) := by
  intro _
  have h1 : (padding ++ count).extractLsb' 16 8 = padding := by rw [extract_high padding count 0 8, extract_all]
  have h2 : (padding ++ count).extractLsb' 0 16 = count := extract_low padding count
  simp only [encode, decode, decodeRecord]
  rw [h1, h2]

theorem hblockEntry (sym len : Byte) (bits : BitVec 16) : Statement (.hblockEntry sym len bits) := by
  intro _
  have h1 : (sym ++ len ++ bits).extractLsb' 24 8 = sym := by
    rw [extract_high (sym ++ len) bits 8 8, extract_high sym len 0 8, extract_all]
  have h2 : (sym ++ len ++ bits).extractLsb' 16 8 = len := by
    rw [extract_high (sym ++ len) bits 0 8, extract_low]
  have h3 : (sym ++ len ++ bits).extractLsb' 0 16 = bits := extract_low (sym ++ len) bits
  simp only [encode, decode, decodeRecord]
  rw [h1, h2, h3]

theorem hblockCount (n : Word) : Statement (.hblockCount n) := fun _ => rfl

theorem tokenLit (lit : Byte) : Statement (.tokenLit lit) := by
  intro _
  simp [encode, decode, decodeRecord, decodeToken_tokenWord]

theorem tokenMatch (off len : Word) (lit : Byte) : Statement (.tokenMatch off len lit) := by
  intro h
  have h : off ≠ 0 ∧ len ≠ 0 := by simpa [Instr.wf] using h
  simp only [encode, decode, decodeRecord, decodeToken_tokenWord]
  rw [if_neg h.1, if_neg h.2]
  rfl

theorem tokenMatchend (off len : Word) (x : Byte) : Statement (.tokenMatchend off len x) := by
  intro h
  have h : off ≠ 0 ∧ len ≠ 0 := by simpa [Instr.wf] using h
  simp only [encode, decode, decodeRecord, decodeToken_tokenWord]
  rw [if_neg h.1, if_neg h.2]
  rfl

theorem tokenNull (x : Byte) : Statement (.tokenNull x) := by
  intro _
  simp [encode, decode, decodeRecord, decodeToken_tokenWord]

theorem tokenInvalidLenNoOffset (len : Word) (litv : Bool) (x : Byte) :
    Statement (.tokenInvalidLenNoOffset len litv x) := by
  intro h
  have h : len ≠ 0 := by simpa [Instr.wf] using h
  simp only [encode, decode, decodeRecord, decodeToken_tokenWord]
  rw [if_pos trivial, if_neg h]

theorem tokenInvalidZeroLength (off : Word) (litv : Bool) (x : Byte) :
    Statement (.tokenInvalidZeroLength off litv x) := by
  intro h
  have h : off ≠ 0 := by simpa [Instr.wf] using h
  simp only [encode, decode, decodeRecord, decodeToken_tokenWord]
  rw [if_neg h, if_pos trivial]

end Sys2Proof.Laws.Encoding
end

