-- ==== Sys2Proof/Laws/Step.lean ====
section
/-! SUPPORT. Everything a step can do, once: the engine runs an instruction or rejects a word, the host makes its move, or
nothing happens (log 1). -/

namespace Sys2Proof.Machine

theorem step_engine {s : State} (hb : s.status = .busy) (ht : s.engineTurn = true) : step s = engineStep s := by
  simp [step, advance, hb, ht]

theorem step_host {s : State} (h : ¬ (s.status = .busy ∧ s.engineTurn = true)) : step s = hostStep s := by
  simp only [step, advance, if_neg h]

/-- Everything a step can do. -/
theorem step_cases (s : State) :
    (∃ i, s.status = .busy ∧ decode s.fetched = .ok i ∧ step s = exec i s.consume) ∨
    (∃ r, s.status = .busy ∧ decode s.fetched = .error r ∧
      step s = .next (s.consume.fail (rejectWrites r) (rejectCause r))) ∨
    (∃ m rest, s.host = m :: rest ∧ (s.status ≠ .busy ∨ m ≠ .wait) ∧ step s = hostMove m { s with host := rest }) ∨
    (s.host = [] ∧ s.status ≠ .busy ∧ step s = .next s) := by
  by_cases h : s.status = .busy ∧ s.engineTurn = true
  · rw [step_engine h.1 h.2, engineStep]
    cases hd : decode s.fetched with
    | ok i => exact .inl ⟨i, h.1, rfl, rfl⟩
    | error r => exact .inr (.inl ⟨r, h.1, rfl, rfl⟩)
  · rw [step_host h, hostStep]
    cases hh : s.host with
    | nil =>
      refine .inr (.inr (.inr ⟨rfl, fun hb => h ⟨hb, ?_⟩, rfl⟩))
      simp [State.engineTurn, hh]
    | cons m rest =>
      refine .inr (.inr (.inl ⟨m, rest, rfl, ?_, rfl⟩))
      by_contra hc
      simp only [not_or, ne_eq, not_not] at hc
      exact h ⟨hc.1, by simp [State.engineTurn, hh, hc.2]⟩

/-- Everything a host write of a register can do (R23, R72). -/
theorem hostWriteReg_cases {n : Nat} {v : Word} {s t : State} (h : hostWriteReg n v s = .next t) :
    t = s ∨ (t = s.issue v ∧ n = 0 ∧ s.status ≠ .busy ∧ (s.status = .error → v = clrWord)) ∨
    (t = s.writeRw n v ∧ n ≠ 0 ∧ (s.status = .idle ∨ s.status = .done)) := by
  unfold hostWriteReg at h
  split at h
  · cases hs : s.status <;> simp only [hs] at h
    · split at h <;> cases h
      · exact .inr (.inl ⟨rfl, by assumption, by simp, by simp⟩)
      · exact .inr (.inr ⟨rfl, by assumption, .inl rfl⟩)
    · cases h
      exact .inl rfl
    · split at h <;> cases h
      · exact .inr (.inl ⟨rfl, by assumption, by simp, by simp⟩)
      · exact .inr (.inr ⟨rfl, by assumption, .inr rfl⟩)
    · split at h <;> cases h
      · rename_i hc
        exact .inr (.inl ⟨rfl, hc.1, by simp, fun _ => hc.2⟩)
      · exact .inl rfl
  · cases h

/-- What a host read changes: only what it returned, and the draw it used while BUSY (R73, U4). -/
theorem hostMove_read {m : HostMove} {s t : State} {k : Nat}
    (hm : m ∈ [HostMove.readReg k, .readObuf k, .readFreq k, .readNode k, .readCt k, .wait])
    (h : hostMove m s = .next t) : t = { s with lastRead := t.lastRead, draws := t.draws } ∧
      (s.status ≠ .busy → t.draws = s.draws) := by
  have key : ∀ (v : ReadValue) (f : Nat → ReadValue) (c : Prop) (_ : Decidable c), (c → s.status = .busy) →
      (Host.Outcome.next (if c then s.returnFree f else s.returnRead v) : Result) = .next t →
      t = { s with lastRead := t.lastRead, draws := t.draws } ∧ (s.status ≠ .busy → t.draws = s.draws) := by
    intro v f c _ hc h
    split at h <;> cases h
    · rename_i hb
      exact ⟨rfl, fun hn => absurd (hc hb) hn⟩
    · exact ⟨rfl, fun _ => rfl⟩
  simp only [List.mem_cons, List.not_mem_nil, or_false] at hm
  rcases hm with rfl | rfl | rfl | rfl | rfl | rfl
  · simp only [hostMove, hostReadReg] at h
    split at h
    · cases h
    · exact key _ _ _ _ (fun hc => hc.1) h
  · simp only [hostMove, hostReadObuf] at h
    split at h
    · exact key _ _ _ _ id h
    · cases h
  · simp only [hostMove, hostReadFreq] at h
    split at h
    · exact key _ _ _ _ id h
    · cases h
  · simp only [hostMove, hostReadNode] at h
    split at h
    · split at h
      · rename_i hb
        cases h
        exact ⟨rfl, fun hn => absurd hb hn⟩
      · split at h
        · cases h
          exact ⟨rfl, fun _ => rfl⟩
        · cases h
    · cases h
  · simp only [hostMove, hostReadCt] at h
    split at h
    · exact key _ _ _ _ id h
    · cases h
  · simp only [hostMove, hostWait] at h
    cases h
    exact ⟨rfl, fun _ => rfl⟩

end Sys2Proof.Machine
end

