-- ==== Sys2Proof/Machine/Script.lean ====
section
/-! DEFINITION. The host-script notation of R105 and R106 as sequences of host moves. -/

namespace Sys2Proof.Machine

/-- A line of a host script (R105) or a pseudo-instruction (R106). A line that reads states what it expects elsewhere. -/
inductive ScriptLine
  /-- `WR <reg>, <value>`. -/
  | wr (reg : Nat) (v : Word)
  /-- `RD <reg>`. -/
  | rd (reg : Nat)
  /-- `<MNEMONIC>`, by its command word. -/
  | command (w : Word)
  /-- `IB <addr>, <byte> ...`. -/
  | ib (addr : Nat) (bytes : List Byte)
  /-- `OB <addr>`. -/
  | ob (addr : Nat)
  /-- `LOAD <bytes>`. -/
  | load (bytes : List Byte)
  /-- `WAIT`. -/
  | wait
  /-- `RUN <MNEMONIC>`. -/
  | run (w : Word)
  /-- `EXPECT OBUF`, of so many bytes. -/
  | expectObuf (count : Nat)
  /-- `TOKEN <offset>, <length>, <lit or ->`. -/
  | token (off len : Word) (lit : Option Byte)
deriving DecidableEq, Repr

/-- `IB`: the bytes at addr, addr+1, and so on (R105). -/
def writeIbufMoves (addr : Nat) : List Byte → List HostMove
  | [] => []
  | b :: B => .writeIbuf addr b :: writeIbufMoves (addr + 1) B

/-- The moves a line stands for (R105, R106). -/
def ScriptLine.expand : ScriptLine → List HostMove
  | .wr reg v => [.writeReg reg v]
  | .rd reg => [.readReg reg]
  | .command w => [.writeReg 0 w]
  | .ib addr bytes => writeIbufMoves addr bytes
  | .ob addr => [.readObuf addr]
  | .load bytes => writeIbufMoves 0 bytes ++ [.writeReg 3 (BitVec.ofNat 32 bytes.length)]
  | .wait => [.wait]
  | .run w => [.writeReg 0 w, .wait]
  | .expectObuf count => .readReg 4 :: (List.range count).map .readObuf
  | .token off len lit =>
    [.writeReg 7 off, .writeReg 8 len, .writeReg 9 ((lit.getD 0).setWidth 32),
     .writeReg 10 (if lit.isSome then 1 else 0)]

/-- The state whose host goes on to run `script`. -/
def State.withScript (s : State) (script : List ScriptLine) : State :=
  { s with host := s.host ++ script.flatMap ScriptLine.expand }

end Sys2Proof.Machine
end

