-- ==== Sys2Proof/Tests/Slice0.lean ====
section
/-! SUPPORT. The model's own tests: ill-formed terms are refused, words written out from the spec's encodings decode, each
instruction does what a vector of 95_test_vectors.md says (V<n>), and the hypotheses of every statement of Obligations.lean are
met by a concrete state (`test_witness_…`). -/

open Sys2Proof Sys2Proof.Machine

namespace Sys2Proof.Tests

-- The tests are checked one after another: each is a kernel evaluation, and a thread for each would be too many.
set_option Elab.async false

/-! ### Well-formedness: one ill-formed term for each check -/

theorem test_wf_match_offset : (Instr.tokenMatch 0 1 0x61).wf = false := by decide
theorem test_wf_match_length : (Instr.tokenMatch 1 0 0x61).wf = false := by decide
theorem test_wf_matchend_offset : (Instr.tokenMatchend 0 1 0).wf = false := by decide
theorem test_wf_matchend_length : (Instr.tokenMatchend 1 0 0).wf = false := by decide
theorem test_wf_invalid_len_no_offset : (Instr.tokenInvalidLenNoOffset 0 true 0).wf = false := by decide
theorem test_wf_invalid_zero_length : (Instr.tokenInvalidZeroLength 0 true 0).wf = false := by decide

/-- Capacities of 64 bytes each. -/
def cfg64 : Capacities := ⟨64, 64⟩

theorem test_wf_write_reg : (HostMove.writeReg 16 0).wf cfg64 = false := by decide
theorem test_wf_read_reg : (HostMove.readReg 16).wf cfg64 = false := by decide
theorem test_wf_write_ibuf : (HostMove.writeIbuf 64 0).wf cfg64 = false := by decide
theorem test_wf_read_obuf : (HostMove.readObuf 64).wf cfg64 = false := by decide
theorem test_wf_read_freq : (HostMove.readFreq 256).wf cfg64 = false := by decide
theorem test_wf_read_node : (HostMove.readNode 511).wf cfg64 = false := by decide
theorem test_wf_read_ct : (HostMove.readCt 256).wf cfg64 = false := by decide

/-! ### Decoding: the words of R86, R91 to R93, R98 and R99, bit by bit -/

theorem test_decode_commands :
    decode (.command 0b00000000000000000000000000000000) = .ok .nop ∧
    decode (.command 0b00000000000000000000000000000001) = .ok .clr ∧
    decode (.command 0b00000000000000000000000000010000) = .ok .freq ∧
    decode (.command 0b00000000000000000000000000010001) = .ok .tbuild ∧
    decode (.command 0b00000000000000000000000000010010) = .ok .derive ∧
    decode (.command 0b00000000000000000000000000010011) = .ok .tser ∧
    decode (.command 0b00000000000000000000000000010100) = .ok .tdes ∧
    decode (.command 0b00000000000000000000000000010101) = .ok .hpack ∧
    decode (.command 0b00000000000000000000000000010110) = .ok .hwalk ∧
    decode (.command 0b00000000000000000000000000011000) = .ok .hcomp ∧
    decode (.command 0b00000000000000000000000000011001) = .ok .hdecomp ∧
    decode (.command 0b00000000000000000000000000100000) = .ok .lzfind ∧
    decode (.command 0b00000000000000000000000000100001) = .ok .lzreplay ∧
    decode (.command 0b00000000000000000000000000101000) = .ok .lzcomp ∧
    decode (.command 0b00000000000000000000000000101001) = .ok .lzdecomp := by decide

theorem test_decode_hblock :
    decode (.record (.header 0b000000110000000000000101)) = .ok (.hblockHeader 3 5) ∧
    decode (.record (.entry 0b01100001000001000000000000001100)) = .ok (.hblockEntry 0x61 4 0xC) ∧
    decode (.record (.count 0b00000000000000000000000000000100)) = .ok (.hblockCount 4) := by decide

theorem test_decode_token :
    decode (.record (.token 0b00000000000000000000000000000000000000000000000000000000000000000000000101100001)) =
      .ok (.tokenLit 0x61) ∧
    decode (.record (.token 0b00000000000000000000000000000011000000000000000000000000000000010000000101100011)) =
      .ok (.tokenMatch 3 1 0x63) ∧
    decode (.record (.token 0b00000000000000000000000000000111000000000000000000000000000001000000000000000000)) =
      .ok (.tokenMatchend 7 4 0) ∧
    decode (.record (.token 0b00000000000000000000000000000000000000000000000000000000000000000000000011111111)) =
      .ok (.tokenNull 0xFF) ∧
    decode (.record (.token 0b00000000000000000000000000000000000000000000000000000000000000010000000101100001)) =
      .ok (.tokenInvalidLenNoOffset 1 true 0x61) ∧
    decode (.record (.token 0b00000000000000000000000000000001000000000000000000000000000000000000000000000000)) =
      .ok (.tokenInvalidZeroLength 1 false 0) := by decide

/-- V40 and V38: rejected by name. -/
theorem test_decode_rejects :
    decode (.command 0x00000002) = .error .badOpcode ∧ decode (.command 0x00000017) = .error .badOpcode ∧
    decode (.command 0x000000FF) = .error .badOpcode ∧ decode (.command 0x00000110) = .error .reservedBits ∧
    decode (.command 0x80000002) = .error .reservedBits ∧
    decode (.record (.token 0x00000000000000000261)) = .error .tokenFlags := by decide

/-- No two words of the opcode map are alike. -/
theorem test_opcode_map_words_differ : (commandTable.map Prod.fst).Nodup := by decide

theorem test_table_words :
    decodeTableWord 32 0x10 = some .freq ∧ decodeTableWord 24 0x030005 = some (.hblockHeader 3 5) ∧
    decodeTableWord 80 0x161 = some (.tokenLit 0x61) ∧ decodeTableWord 32 0x02 = none := by decide

/-! ### One step on a small machine -/

/-- A machine that is executing, with 64 bytes of IBUF, `cap` bytes of OBUF and the input `B`. -/
def busy (cap : Nat) (B : List Byte) : State :=
  { State.reset with
    cfg := ⟨64, BitVec.ofNat 32 cap⟩
    status := .busy
    ibuf := Memory.ofBytes 0 B
    inLen := BitVec.ofNat 32 B.length }

/-- What an instruction leaves. -/
def after (i : Instr) (s : State) : State :=
  match exec i s with
  | .next t => t
  | _ => State.reset

theorem exec_after (i : Instr) (s : State) : exec i s = .next (after i s) := by
  obtain ⟨t, h⟩ := exec_next i s
  rw [after, h]

/-- What one step leaves. -/
def stepped (s : State) : State :=
  match step s with
  | .next t => t
  | _ => State.reset

/-- DONE with ERR 0 and this output. -/
def gives (t : State) (out : List Byte) : Bool := t.status == .done && t.err == ErrReg.none && t.output == out

/-- ERROR with this ERR and OUT_LEN 0. -/
def raises (t : State) (v : Word) : Bool := t.status == .error && t.err.number == v && t.outLen == 0

/-- "abracadabra". -/
def abra : List Byte := [0x61, 0x62, 0x72, 0x61, 0x63, 0x61, 0x64, 0x61, 0x62, 0x72, 0x61]

/-- The table of V20: 61 has "0", 62 has "10", 63 has "11". -/
def table3 : CodeTable := ((CodeTable.empty.put 0x61 ⟨true, 1, 0⟩).put 0x62 ⟨true, 2, 2⟩).put 0x63 ⟨true, 2, 3⟩

/-- V43. -/
theorem test_nop : (after .nop { busy 64 [] with cmd := 7, outLen := 26 }).status = .done ∧
    (after .nop { busy 64 [] with cmd := 7, outLen := 26 }).outLen = 26 := by decide +kernel

/-- V42, P4 line 4. -/
theorem test_clr : (after .clr { busy 64 [1, 2] with err := ⟨1, 12⟩, nsym := 3 }).status = .idle ∧
    (after .clr { busy 64 [1, 2] with err := ⟨1, 12⟩, nsym := 3 }).inLen = 2 ∧
    (after .clr { busy 64 [1, 2] with err := ⟨1, 12⟩, nsym := 3 }).nsym = 0 := by decide +kernel

/-- V8. -/
theorem test_freq : (after .freq (busy 64 abra)).freq.at 0x61 = 5 ∧ (after .freq (busy 64 abra)).freq.at 0x62 = 2 ∧
    (after .freq (busy 64 abra)).freq.at 0x65 = 0 := by decide +kernel

/-- V41. -/
theorem test_freq_in_len : raises (after .freq { busy 64 [] with inLen := 65 }) 0x0306 = true := by decide +kernel

/-- The tree of "abracadabra" (V8). -/
def abraTree : State := after .tbuild (after .freq (busy 64 abra))

/-- V8. -/
theorem test_tbuild : abraTree.nnodes = 9 ∧ abraTree.root = 8 ∧ abraTree.node.at 5 = ⟨.internal, 0, 2, 2, 3⟩ ∧
    abraTree.node.at 6 = ⟨.internal, 0, 4, 1, 4⟩ ∧ abraTree.node.at 8 = ⟨.internal, 0, 11, 0, 7⟩ := by decide +kernel

/-- V7, "aabbc": the second extraction takes a, not b. -/
theorem test_tbuild_tie :
    (after .tbuild (after .freq (busy 64 [0x61, 0x61, 0x62, 0x62, 0x63]))).node.at 3 = ⟨.internal, 0, 3, 2, 0⟩ := by
  decide +kernel

/-- V8, P1 line 4. -/
theorem test_derive : (after .derive abraTree).nsym = 5 ∧ (after .derive abraTree).ct.at 0x61 = ⟨true, 1, 0⟩ ∧
    (after .derive abraTree).ct.at 0x62 = ⟨true, 3, 6⟩ ∧ (after .derive abraTree).ct.at 0x72 = ⟨true, 3, 7⟩ := by
  decide +kernel

/-- V10. -/
theorem test_derive_null_root : raises (after .derive (after .freq (busy 64 [0x61, 0x62]))) 0x0103 = true := by
  decide +kernel

/-- V16: the table of "abcc". -/
theorem test_tser :
    gives (after .tser { busy 64 [] with
        ct := ((CodeTable.empty.put 0x63 ⟨true, 1, 0⟩).put 0x62 ⟨true, 2, 3⟩).put 0x61 ⟨true, 2, 2⟩, nsym := 3 })
      [0x00, 0x03, 0x61, 0x02, 0x00, 0x02, 0x62, 0x02, 0x00, 0x03, 0x63, 0x01, 0x00, 0x00] = true := by decide +kernel

/-- V17. -/
theorem test_tdes :
    (after .tdes (busy 64 [0x00, 0x02, 0x63, 0x01, 0x00, 0x00, 0x62, 0x02, 0x00, 0x03])).ct.at 0x62 = ⟨true, 2, 3⟩ ∧
    (after .tdes (busy 64 [0x00, 0x02, 0x63, 0x01, 0x00, 0x00, 0x62, 0x02, 0x00, 0x03])).consumed = 10 := by decide +kernel

/-- V18: "0" is a prefix of "01". -/
theorem test_tdes_prefix :
    raises (after .tdes (busy 64 [0x00, 0x02, 0x61, 0x01, 0x00, 0x00, 0x62, 0x02, 0x00, 0x01])) 0x0801 = true := by
  decide +kernel

/-- V19. -/
theorem test_hpack :
    gives (after .hpack { (after .derive abraTree) with status := .busy }) [0x6E, 0x8A, 0xDC] = true ∧
    (after .hpack { (after .derive abraTree) with status := .busy }).pad = 1 := by decide +kernel

/-- V19: nine times "0". -/
theorem test_hpack_padding :
    gives (after .hpack { busy 64 (List.replicate 9 0x61) with ct := CodeTable.empty.put 0x61 ⟨true, 1, 0⟩ })
      [0x00, 0x00] = true ∧
    (after .hpack { busy 64 (List.replicate 9 0x61) with ct := CodeTable.empty.put 0x61 ⟨true, 1, 0⟩ }).pad = 7 := by
  decide +kernel

/-- V20. -/
theorem test_hwalk : gives (after .hwalk { busy 64 [0x81] with ct := table3, pad := 1 })
    [0x62, 0x61, 0x61, 0x61, 0x61, 0x61] = true := by decide +kernel

/-- V20: a path that ends in the middle of a code. -/
theorem test_hwalk_mid_path : raises (after .hwalk { busy 64 [0x01] with ct := table3 }) 0x0C01 = true := by decide +kernel

/-- V21, "ab". -/
theorem test_hcomp : gives (after .hcomp (busy 64 [0x61, 0x62]))
    [0x06, 0x00, 0x02, 0x61, 0x01, 0x00, 0x00, 0x62, 0x01, 0x00, 0x01, 0x40] = true := by decide +kernel

/-- V2. -/
theorem test_hcomp_one_symbol : gives (after .hcomp (busy 64 [0x61, 0x61, 0x61, 0x61]))
    [0x00, 0x00, 0x01, 0x61, 0x01, 0x00, 0x00, 0x00, 0x00, 0x00, 0x04] = true := by decide +kernel

/-- V24: padding bits are not checked. -/
theorem test_hdecomp :
    gives (after .hdecomp (busy 64 [0x06, 0x00, 0x02, 0x61, 0x01, 0x00, 0x00, 0x62, 0x01, 0x00, 0x01, 0x7F]))
      [0x61, 0x62] = true := by decide +kernel

/-- V24: a three-byte tail. -/
theorem test_hdecomp_count_field :
    raises (after .hdecomp (busy 64 [0x00, 0x00, 0x01, 0x61, 0x01, 0x00, 0x00, 0x00, 0x00, 0x04])) 0x0901 = true := by
  decide +kernel

/-- V30: at position 5 positions 0 and 3 both match one byte, and position 0 is kept. -/
theorem test_lzfind : (after .lzfind { busy 64 abra with lzPos := 5 }).token = ⟨5, 1, 0x64, true⟩ ∧
    (after .lzfind { busy 64 abra with lzPos := 5 }).lzPos = 7 := by decide +kernel

/-- V30: the match that reaches the end. -/
theorem test_lzfind_end : (after .lzfind { busy 64 abra with lzPos := 7 }).token = ⟨7, 4, 0, false⟩ ∧
    (after .lzfind { busy 64 abra with lzPos := 7 }).lzPos = 11 := by decide +kernel

/-- A machine whose output so far is `out`. -/
def withOutput (cap : Nat) (out : List Byte) : State := (busy cap []).setOutput out

/-- V37: the copy overlaps itself. -/
theorem test_lzreplay :
    gives (after .lzreplay { withOutput 64 [0x61] with tokOffset := 1, tokLength := 7 }) (List.replicate 8 0x61) = true := by
  decide +kernel

/-- V37. -/
theorem test_lzreplay_offset_range :
    raises (after .lzreplay { withOutput 64 (List.replicate 11 0x61) with tokOffset := 12, tokLength := 1 }) 0x0302 = true := by
  decide +kernel

/-- V5. -/
theorem test_lzcomp : gives (after .lzcomp { busy 64 (List.replicate 8 0x61) with windowSize := 7 })
    [0, 0, 0, 0, 0, 0, 0, 0, 1, 0x61, 0, 0, 0, 1, 0, 0, 0, 7, 0, 0] = true := by decide +kernel

/-- V5, V39 (e). -/
theorem test_lzdecomp :
    gives (after .lzdecomp (busy 8 [0, 0, 0, 0, 0, 0, 0, 0, 1, 0x61, 0, 0, 0, 1, 0, 0, 0, 7, 0, 0])) (List.replicate 8 0x61) = true ∧
    raises (after .lzdecomp (busy 4 [0, 0, 0, 0, 0, 0, 0, 0, 1, 0x61, 0, 0, 0, 1, 0, 0, 0, 7, 0, 0])) 0x0105 = true := by
  decide +kernel

/-- V38: the fault of record 0 wins. -/
theorem test_lzdecomp_first_fault :
    raises (after .lzdecomp (busy 64 [0, 0, 0, 0, 0, 0, 0, 1, 1, 0x61, 0, 0, 0, 0, 0, 0, 0, 0, 2, 0x61])) 0x0102 = true := by
  decide +kernel

/-- R91: 7 is the largest padding_count, 256 the largest symbol_count. -/
theorem test_hblock_header : (after (.hblockHeader 7 256) (busy 64 [])).pad = 7 ∧
    raises (after (.hblockHeader 8 256) (busy 64 [])) 0x0201 = true ∧
    raises (after (.hblockHeader 7 257) (busy 64 [])) 0x0301 = true := by decide +kernel

/-- V18: one entry, and the entry given twice. -/
theorem test_hblock_entry : (after (.hblockEntry 0x61 1 0) (busy 64 [])).ct.at 0x61 = ⟨true, 1, 0⟩ ∧
    raises (after (.hblockEntry 0x61 1 1) (after (.hblockEntry 0x61 1 0) (busy 64 []))) 0x0701 = true := by decide +kernel

/-- V2. -/
theorem test_hblock_count :
    (after (.hblockCount 4) { busy 64 [] with ct := CodeTable.empty.put 0x61 ⟨true, 1, 0⟩ }).output =
      [0x61, 0x61, 0x61, 0x61] := by decide +kernel

/-- V39 (a): the first record. -/
theorem test_token_lit : (after (.tokenLit 0x61) (busy 64 [])).output = [0x61] := by decide +kernel

/-- V39 (a): the third record. -/
theorem test_token_match : (after (.tokenMatch 2 3 0x63) (withOutput 64 [0x61, 0x62])).output =
    [0x61, 0x62, 0x61, 0x62, 0x61, 0x63] := by decide +kernel

/-- V39 (d). -/
theorem test_token_matchend : (after (.tokenMatchend 1 2 0) (withOutput 64 [0x61])).output = [0x61, 0x61, 0x61] := by
  decide +kernel

/-- V39 (c): the literal byte is ignored. -/
theorem test_token_null : (after (.tokenNull 0xFF) (withOutput 64 [0x61])).output = [0x61] ∧
    (after (.tokenNull 0xFF) (withOutput 64 [0x61])).tokLit = 0 := by decide +kernel

/-- V38. -/
theorem test_token_invalid :
    raises (after (.tokenInvalidLenNoOffset 1 true 0x61) (busy 64 [])) 0x0102 = true ∧
    raises (after (.tokenInvalidZeroLength 1 true 0x62) (withOutput 64 [0x61])) 0x0202 = true := by decide +kernel

/-- V40: an illegal word. -/
theorem test_illegal_word : raises (stepped { busy 64 [] with cmd := 0x110 }) 0x0206 = true ∧
    raises (stepped { busy 64 [] with cmd := 0x02 }) 0x0106 = true := by decide +kernel

/-- V42: in ERROR a write of CMD with FREQ's word is ignored, the CLR word is accepted. -/
theorem test_error_writes :
    (stepped { busy 64 [] with cmd := 2, status := .error, host := [.writeReg 0 0x10] }).cmd = 2 ∧
    (stepped { busy 64 [] with cmd := 2, status := .error, host := [.writeReg 0 1] }).status = .busy := by decide +kernel

/-- R106: RUN FREQ is a write of CMD and a wait. -/
theorem test_script : ScriptLine.expand (.run 0x10) = [.writeReg 0 0x10, .wait] := by decide

/-! ### Witnesses: the hypotheses of each statement, met by a concrete state at the edges of its clauses -/

/-- What a concrete input array reads back as. -/
theorem busy_input (cap : Nat) (B : List Byte) (h : B.length < 2 ^ 32) : (busy cap B).input = B := by
  have hl : (BitVec.ofNat 32 B.length).toNat = B.length := by
    rw [BitVec.toNat_ofNat]
    exact Nat.mod_eq_of_lt h
  refine List.ext_getElem (by rw [State.input_length]; exact hl) fun k h1 h2 => ?_
  simp [State.input, State.ibufAt, busy, h2]

theorem test_witness_DecodeEncodeAgree : (Instr.tokenMatch 1 0xFFFFFFFF 0xFF).wf = true ∧
    (Instr.tokenInvalidZeroLength 1 true 0).wf = true ∧
    decode (.record (.token 0x000000000000000000FF)) = .ok (.tokenNull 0xFF) := by decide

theorem test_witness_IllegalWordCompletesWithError :
    ({ busy 64 [] with cmd := 0x110 } : State).status = .busy ∧ (busy 64 []).host = [] ∧ (busy 64 []).record = none ∧
    (busy 64 []).pq = [] ∧ (busy 64 []).acc = ⟨0, 0⟩ ∧ (busy 64 []).walk = ⟨0, 0⟩ ∧
    (0x110 : Word).extractLsb' 8 24 ≠ 0 ∧ (0xFF : Word).extractLsb' 8 24 = 0 ∧
    (0xFF : Word).toNat ∉ [0x00, 0x01, 0x10, 0x11, 0x12, 0x13, 0x14, 0x15, 0x16, 0x18, 0x19, 0x20, 0x21, 0x28, 0x29] := by
  decide

theorem test_witness_StepRunsDecodedInstruction :
    (busy 64 []).status = .busy ∧ (busy 64 []).host = [] ∧ decode (busy 64 []).fetched = .ok .nop ∧
    ({ busy 64 [] with host := [.wait] } : State).host = .wait :: [] ∧
    decodeTableWord 80 0x161 = some (.tokenLit 0x61) := by decide

theorem test_witness_StepMakesTheHostsMove :
    ({ State.reset with host := [.wait] } : State).status ≠ .busy ∧
    ({ busy 64 [] with host := [.readReg 1] } : State).host = .readReg 1 :: [] ∧ HostMove.readReg 1 ≠ .wait ∧
    State.reset.status ≠ .busy ∧ State.reset.host = [] := by decide

theorem test_witness_CmdWriteAcceptance :
    State.reset.status = .idle ∧ (busy 64 []).status = .busy ∧
    ({ State.reset with status := .error } : State).status = .error ∧ (0x10 : Word) ≠ 0x00000001 := by decide

theorem test_witness_BusyAndErrorIgnoreWrites :
    (busy 64 []).status = .busy ∧ 63 < (busy 64 []).ibufBytes ∧
    (∃ t, hostMove (.readReg 15) (busy 64 []) = .next t) ∧
    ({ busy 64 [] with status := .error } : State).status = .error ∧ ((0 : Nat) ≠ 0 ∨ (0x10 : Word) ≠ 0x00000001) :=
  ⟨rfl, by decide, ⟨_, rfl⟩, rfl, by decide⟩

theorem test_witness_HostWriteStoresWhatItNames :
    (State.reset.status = .idle ∨ State.reset.status = .done) ∧ 0 < 15 ∧ 15 < 16 ∧
    63 < (busy 64 []).ibufBytes := ⟨.inl rfl, by decide, by decide, by decide⟩

theorem test_witness_HostReadsReturnWhatIsHeld : (after .tbuild (after .freq (busy 64 abra))).status ≠ .busy ∧
    (15, (0 : Word)) ∈ [(0, (0 : Word)), (15, State.reset.consumed)] ∧ 63 < (busy 64 []).obufBytes ∧
    8 < 511 ∧ 8 < (after .tbuild (after .freq (busy 64 abra))).nnodes.toNat ∧
    HostMove.readReg 15 ∈ [HostMove.readReg 15, .readObuf 15, .readFreq 15, .readNode 15, .readCt 15, .wait] ∧
    ∃ t, hostMove (.readReg 15) State.reset = .next t :=
  ⟨by decide +kernel, by decide, by decide, by decide, by decide +kernel, by decide, ⟨_, rfl⟩⟩

theorem test_witness_EveryCommandCompletes :
    (after .freq { busy 64 [] with inLen := 65 }).status = .error ∧ Instr.freq ∈ [Instr.freq, .lzfind] ∧
    isCommand .hdecomp = true ∧ Instr.hdecomp ≠ .clr ∧ (Instr.tokenMatch 2 1 0).wf = true ∧
    (withOutput 5 [0x61]).status = .busy ∧ (after (.tokenMatch 2 1 0) (withOutput 5 [0x61])).status = .error := by
  decide +kernel

theorem test_witness_OnlyClrOrResetLeavesError : ∃ s t : State, s.status = .error ∧ step s = .next t ∧ t.status ≠ .error :=
  ⟨{ busy 64 [] with status := .error, host := [.writeReg 0 1] }, _, rfl, rfl, by decide +kernel⟩

theorem test_witness_InstructionsKeepInputSide : exec .freq (busy 64 abra) = .next (after .freq (busy 64 abra)) :=
  exec_after _ _

theorem test_witness_CompletedInstructionFrame : Instr.freq ≠ .clr ∧ (busy 64 abra).status = .busy ∧
    exec .freq (busy 64 abra) = .next (after .freq (busy 64 abra)) ∧ (after .freq (busy 64 abra)).status ≠ .error ∧
    keepsOutput .freq = true ∧ isCommand (.tokenLit 0x61) = false ∧
    exec (.tokenLit 0x61) (busy 64 []) = .next (after (.tokenLit 0x61) (busy 64 [])) ∧
    (after (.tokenLit 0x61) (busy 64 [])).status ≠ .error :=
  ⟨by decide, by decide, exec_after _ _, by decide +kernel, rfl, rfl, exec_after _ _, by decide +kernel⟩

theorem test_witness_FailedInstructionFrame :
    exec .tdes (busy 64 []) = .next (after .tdes (busy 64 [])) ∧ (after .tdes (busy 64 [])).status = .error ∧
    exec .tdes { busy 64 [] with inLen := 65 } = .next (after .tdes { busy 64 [] with inLen := 65 }) ∧
    (after .tdes { busy 64 [] with inLen := 65 }).err.code = 6 :=
  ⟨exec_after _ _, by decide +kernel, exec_after _ _, by decide +kernel⟩

theorem test_witness_InputLengthCheckedFirst : readsInput .hwalk = true ∧
    ({ busy 64 [] with inLen := 65 } : State).ibufBytes < ({ busy 64 [] with inLen := 65 } : State).inLen.toNat ∧
    isCommand .tser = true ∧ readsInput .tser = false ∧ exec .tser (busy 64 []) = .next (after .tser (busy 64 [])) :=
  ⟨rfl, by decide, rfl, rfl, exec_after _ _⟩

theorem test_witness_InputBeyondLengthNeverMatters : (busy 64 abra).inLen.toNat ≤ 11 ∧
    exec .lzcomp (busy 64 abra) = .next (after .lzcomp (busy 64 abra)) := ⟨by decide, exec_after _ _⟩

theorem test_witness_FreqCountsPositions : ({ busy 64 abra with inLen := 64 } : State).inLen.toNat ≤ (busy 64 abra).ibufBytes := by
  decide

theorem test_witness_ExtractMinIsFirst :
    extractMin [Node.ofSymbol 0x61 2, Node.ofSymbol 0x62 1, Node.ofSymbol 0x63 1] [0, 1, 2] = some (1, [0, 2]) ∧
    extractMin [Node.ofSymbol 0x61 2] [0] = some (0, []) ∧ ([0] : List Nat) ≠ [] := by decide +kernel

/-- The present symbols as the statements list them. -/
def presentIn (s : State) : List Nat := (List.range 256).filter fun b => decide (0 < (s.freq.at (BitVec.ofNat 8 b)).toNat)

theorem test_witness_TbuildLeavesAndCounts : presentIn State.reset = [] ∧
    presentIn { State.reset with freq := Vector.replicate 256 1 } = List.range 256 := by
  refine ⟨?_, ?_⟩
  · simp [presentIn, State.reset, FreqTable.at, FreqTable.zero]
  · simp [presentIn, FreqTable.at]

theorem test_witness_TbuildLeftComesFirst :
    exec .tbuild (after .freq (busy 64 abra)) = .next abraTree ∧ 8 < abraTree.nnodes.toNat ∧
    (abraTree.node.at 8).kind = .internal := ⟨exec_after _ _, by decide +kernel, by decide +kernel⟩

/-- The counts of V14 and V15: symbol `k` occurs `fib k` times, for `n` symbols. -/
def fibFreq (n : Nat) : FreqTable :=
  tabulate 256 fun k => if k < n then BitVec.ofNat 32 (Nat.fib (k + 1)) else 0

/-- The tree of V15: its deepest leaves are 16 edges below ROOT. -/
def tree16 : State := after .tbuild { busy 64 [] with freq := fibFreq 17 }

/-- The tree of V14: its deepest leaves are 17 edges below ROOT. -/
def tree17 : State := after .tbuild { busy 64 [] with freq := fibFreq 18 }

/-- Where a path leads. -/
def follow (N : NodeStore) : NodeIndex → Bits → Option NodeIndex
  | k, [] => some k
  | k, b :: p =>
    match (N.at k).kind with
    | .internal => follow N (if b then (N.at k).right else (N.at k).left) p
    | .leaf => none

theorem reaches_of_follow {N : NodeStore} {k j : NodeIndex} {p : Bits} (h : follow N k p = some j) : reaches N k p j := by
  induction p generalizing k with
  | nil => simpa [follow, reaches] using h
  | cons b p ih =>
    cases hk : (N.at k).kind <;> simp only [follow, hk] at h
    · cases h
    · cases b
      · exact ⟨hk, ih h⟩
      · exact ⟨hk, ih h⟩

/-- Whether every path of the tree ends within `n` edges. -/
def shallow (N : NodeStore) : Nat → NodeIndex → Bool
  | 0, k => (N.at k).kind == .leaf
  | n + 1, k => (N.at k).kind == .leaf || (shallow N n (N.at k).left && shallow N n (N.at k).right)

theorem length_of_shallow {N : NodeStore} {n : Nat} {k j : NodeIndex} {p : Bits} (h : shallow N n k = true)
    (hr : reaches N k p j) : p.length ≤ n := by
  induction n generalizing k p with
  | zero =>
    have hk : (N.at k).kind = .leaf := by simpa [shallow] using h
    match p, hr with
    | [], _ => simp
    | false :: p, hr => exact absurd (hk.symm.trans hr.1) (by decide)
    | true :: p, hr => exact absurd (hk.symm.trans hr.1) (by decide)
  | succ n ih =>
    match p, hr with
    | [], _ => simp
    | false :: p, hr =>
      have := ih (by simpa [shallow, hr.1] using (by simpa [shallow, hr.1] using h : _ ∧ _).1) hr.2
      simpa using this
    | true :: p, hr =>
      have := ih (by simpa [shallow, hr.1] using (by simpa [shallow, hr.1] using h : _ ∧ _).2) hr.2
      simpa using this

theorem test_witness_DeriveCodesArePaths : TreeOk tree16.node tree16.nnodes.toNat tree16.root ∧ tree16.nnodes ≠ 0 ∧
    (tree16.node.at tree16.root).kind = .internal ∧
    (∀ p k, reaches tree16.node tree16.root p k → (tree16.node.at k).kind = .leaf → p.length ≤ 16) ∧
    ∃ k, reaches tree16.node tree16.root (List.replicate 16 true) k ∧ (tree16.node.at k).kind = .leaf := by
  refine ⟨⟨?_, ?_, ?_, ?_, ?_, ?_⟩, ?_, ?_, ?_, 1, reaches_of_follow ?_, ?_⟩
  case refine_9 => exact fun p k hr _ => length_of_shallow (by decide +kernel) hr
  case refine_5 =>
    unfold isChild
    decide +kernel
  all_goals decide +kernel

theorem test_witness_DeriveRejectsDeepLeaf : tree17.root ≠ 511 ∧ reaches tree17.node tree17.root (List.replicate 17 true) 1 ∧
    (tree17.node.at 1).kind = .leaf ∧ 16 < (List.replicate 17 true).length :=
  ⟨by decide +kernel, reaches_of_follow (by decide +kernel), by decide +kernel, by decide⟩

/-- The tree of "a": one Leaf. -/
def leafTree : State := after .tbuild (after .freq (busy 64 [0x61]))

theorem test_witness_DeriveWithoutInternalRoot :
    leafTree.root ≠ 511 ∧ (leafTree.node.at leafTree.root).kind = .leaf ∧
    (after .freq (busy 64 [0x61])).root = 511 ∧ 0 < ((after .freq (busy 64 [0x61])).freq.at 0x61).toNat ∧
    State.reset.root = 511 ∧ (∀ b, State.reset.freq.at b = 0) := by
  refine ⟨by decide +kernel, by decide +kernel, by decide +kernel, by decide +kernel, rfl, ?_⟩
  simp [State.reset, FreqTable.at, FreqTable.zero]

/-- A BUSY machine that holds the table of V20. -/
def with3 (cap : Nat) (B : List Byte) : State := { busy cap B with ct := table3, nsym := 3 }

theorem table3_good : table3.Good where
  legal s := by
    simp only [table3, CodeTable.at_put, CodeTable.at_empty]
    split
    · unfold CtEntry.legal
      decide
    · split
      · unfold CtEntry.legal
        decide
      · split <;> (unfold CtEntry.legal; decide)
  prefixFree := by decide +kernel

theorem test_witness_TserWritesTable : (with3 14 []).nsym.toNat = (with3 14 []).ct.count ∧
    2 + 4 * (with3 14 []).nsym.toNat ≤ (with3 14 []).obufBytes ∧
    (with3 13 []).obufBytes < 2 + 4 * (with3 13 []).nsym.toNat := by decide +kernel

theorem test_witness_TableRoundTrip : CodeTable.empty.Good ∧ table3.Good := ⟨CodeTable.good_empty, table3_good⟩

/-- Two entries in descending order of symbol (V17), the codes "11" and sixteen bits from "0". -/
def entries2 : List (Byte × CtEntry) := [(0x63, ⟨true, 16, 1⟩), (0x62, ⟨true, 2, 3⟩)]

theorem test_witness_TdesLoadsEntriesInAnyOrder :
    (busy 64 [0, 2, 0x63, 16, 0, 1, 0x62, 2, 0, 3, 0xAA]).inLen.toNat ≤ 64 ∧ entries2.length ≤ 256 ∧
    (entries2.map Prod.fst).Nodup ∧ (∀ x ∈ entries2, x.2.valid = true ∧ x.2.legal) ∧
    (∀ x ∈ entries2, ∀ y ∈ entries2, x.1 ≠ y.1 → ¬ x.2.code <+: y.2.code) ∧
    (busy 64 [0, 2, 0x63, 16, 0, 1, 0x62, 2, 0, 3, 0xAA]).input =
      be16 (BitVec.ofNat 16 entries2.length) ++ entries2.flatMap (fun x => entryBytes x.1 x.2) ++ [0xAA] := by
  unfold CtEntry.legal
  decide +kernel

theorem test_witness_TableChecksInOrder :
    (busy 64 [0x00]).inLen.toNat ≤ (busy 64 [0x00]).ibufBytes ∧ (busy 64 [0x00]).input = [0x00] ∧
    256 < (readBe16 [0x01, 0x01] 0).toNat ∧ (readBe16 [0x01, 0x00] 0).toNat ≤ 256 ∧
    [0x01, 0x00].length < 2 + 4 * (readBe16 [0x01, 0x00] 0).toNat ∧
    7 < (byteAt [0x08, 0x00, 0x00] 0).toNat ∧ 256 < (readBe16 [0x07, 0x01, 0x01] 1).toNat ∧
    (readBe16 [0x07, 0x01, 0x00] 1).toNat ≤ 256 ∧
    [0x07, 0x01, 0x00].length < 3 + 4 * (readBe16 [0x07, 0x01, 0x00] 1).toNat := by decide +kernel

/-- Tables whose second entry fails: code_length 17, code_bits 4 in a code of length 2, the first symbol again; and the codes "0"
and "01". -/
def badTables : List (List Byte) :=
  [[0, 2, 0x61, 1, 0, 0, 0x62, 17, 0, 0], [0, 2, 0x61, 1, 0, 0, 0x62, 2, 0, 4], [0, 2, 0x61, 1, 0, 0, 0x61, 2, 0, 2],
   [0, 2, 0x61, 1, 0, 0, 0x62, 2, 0, 1]]

theorem test_witness_TableChecksInOrder_entries :
    badTables.map (fun B => (B.length, entryLen B 0 1, entryBits B 0 1, entrySym B 0 1)) =
      [(10, 17, 0, 0x62), (10, 2, 4, 0x62), (10, 2, 2, 0x61), (10, 2, 1, 0x62)] ∧
    (∀ B ∈ badTables, (readBe16 B 0).toNat = 2 ∧ entriesFit B 0 1) ∧
    entryInRange [0, 2, 0x61, 1, 0, 0, 0x61, 2, 0, 2] 0 1 ∧
    (∃ k < 1, entrySym [0, 2, 0x61, 1, 0, 0, 0x61, 2, 0, 2] 0 k = entrySym [0, 2, 0x61, 1, 0, 0, 0x61, 2, 0, 2] 0 1) ∧
    entriesFit [0, 2, 0x61, 1, 0, 0, 0x62, 2, 0, 1] 0 2 ∧
    entryCode [0, 2, 0x61, 1, 0, 0, 0x62, 2, 0, 1] 0 0 <+: entryCode [0, 2, 0x61, 1, 0, 0, 0x62, 2, 0, 1] 0 1 ∧
    1 + 2 + 4 * (readBe16 [7, 0, 2, 0x61, 1, 0, 0, 0x62, 17, 0, 0] 1).toNat ≤ [7, 0, 2, 0x61, 1, 0, 0, 0x62, 17, 0, 0].length := by
  unfold entriesFit entryInRange
  decide +kernel

theorem test_witness_PackIsMsbFirst : pack table3 [0x62, 0x61, 0x63] = ([0b10011000], 3) ∧
    4 < (codeStream table3 [0x62, 0x61, 0x63]).length ∧ (codeStream table3 [0x62, 0x61, 0x63]).length ≤ 5 ∧ 7 < 8 * 1 := by
  decide +kernel

theorem test_witness_HpackAgreesWithPack :
    (with3 1 [0x62, 0x61, 0x63]).inLen.toNat ≤ 64 ∧ (∀ b, ((with3 1 []).ct.at b).legal) ∧
    covers table3 (with3 1 [0x62, 0x61, 0x63]).input ∧
    (pack table3 (with3 1 [0x62, 0x61, 0x63]).input).1.length = (with3 1 []).obufBytes ∧
    (with3 0 []).obufBytes < (pack table3 (with3 0 [0x62, 0x61, 0x63]).input).1.length ∧
    (with3 4 [0x62, 0x61, 0x64]).input = [0x62, 0x61] ++ 0x64 :: [] ∧ covers table3 [0x62, 0x61] ∧
    (table3.at 0x64).valid = false ∧ 2 * [0x62, 0x61].length ≤ (with3 4 []).obufBytes := by
  refine ⟨by decide, table3_good.legal, ?_, by decide +kernel, by decide +kernel, by decide +kernel, ?_, by decide +kernel,
    by decide +kernel⟩ <;> (unfold covers; decide +kernel)

theorem test_witness_HwalkAgreesWithWalk :
    (with3 7 [0x80]).inLen.toNat ≤ 64 ∧ table3.Good ∧ (with3 7 [0x80]).pad.toNat ≤ 8 * (with3 7 [0x80]).inLen.toNat ∧
    walk 7 table3 (payloadBits (with3 7 [0x80]).input 0) [] [] = .ok [0x62, 0x61, 0x61, 0x61, 0x61, 0x61, 0x61] ∧
    walk 64 table3 (payloadBits (with3 64 [0x01]).input 0) [] [] = .error .midPath :=
  ⟨by decide, table3_good, by decide, by decide +kernel, by decide +kernel⟩

theorem test_witness_HwalkDecodesCodeStream :
    (with3 3 [0b10011000]).inLen.toNat ≤ 64 ∧ table3.Good ∧ covers table3 [0x62, 0x61, 0x63] ∧
    payloadBits ({ with3 3 [0b10011000] with pad := 3 } : State).input 3 = codeStream table3 [0x62, 0x61, 0x63] ∧
    [0x62, 0x61, 0x63].length ≤ (with3 3 []).obufBytes ∧
    8 * (with3 3 []).inLen.toNat < ({ with3 3 [] with pad := 1 } : State).pad.toNat := by
  refine ⟨by decide, table3_good, ?_, by decide +kernel, by decide, by decide⟩
  unfold covers
  decide +kernel

/-- The table of V2, the one code "0". -/
def tableZero : CodeTable := CodeTable.empty.put 0x61 ⟨true, 1, 0⟩

theorem test_witness_decodes :
    covers table3 [0x62, 0x61, 0x63] ∧
    payloadBits [0b10011000] 3 = codeStream table3 [0x62, 0x61, 0x63] ++ [] ∧ 2 < [0x62, 0x61, 0x63].length ∧
    payloadBits [0b10011000] 4 = codeStream table3 [0x62, 0x61] ++ [true] ∧ [0x62, 0x61].length ≤ 2 ∧
    (table3.at 0x63).valid = true ∧ [true] <+: (table3.at 0x63).code ∧ [true] ≠ (table3.at 0x63).code ∧
    payloadBits [0b00100000] 4 = codeStream tableZero [0x61, 0x61] ++ [true] ++ [false] ∧
    (tableZero.at 0x61).code = [false] ∧ ¬ [true] <+: [false] ∧ ¬ [false] <+: [true] ∧
    ∀ b, (tableZero.at b).valid = true → b = 0x61 := by
  refine ⟨?_, by decide +kernel, by decide, by decide +kernel, by decide, by decide +kernel, by decide +kernel, by decide +kernel,
    by decide +kernel, by decide +kernel, by decide, by decide, fun b => ?_⟩
  · unfold covers
    decide +kernel
  · rw [tableZero, CodeTable.at_put, CodeTable.at_empty]
    split
    · exact fun _ => ‹_›
    · exact fun h => absurd h (by decide)

/-- The state FREQ, TBUILD and DERIVE leave on the input `B`. -/
def derived (B : List Byte) : State := after .derive (after .tbuild (after .freq (busy 64 B)))

theorem test_witness_HcompMatchesUnitCommands : (busy 12 [0x61, 0x62]).inLen.toNat ≤ 64 ∧
    exec .freq (busy 12 [0x61, 0x62]) = .next (after .freq (busy 12 [0x61, 0x62])) ∧
    (derived [0x61, 0x62]).completed ∧
    (huffBlock (derived [0x61, 0x62]).ct (derived [0x61, 0x62]).ct.count [0x61, 0x62]).length = (busy 12 []).obufBytes ∧
    (busy 11 []).obufBytes <
      (huffBlock (derived [0x61, 0x62]).ct (derived [0x61, 0x62]).ct.count [0x61, 0x62]).length := by
  refine ⟨by decide, exec_after _ _, ?_, by decide +kernel, by decide +kernel⟩
  unfold State.completed
  decide +kernel

/-- The input of V14: `fib k` times the byte `k`, for 18 bytes. -/
def deepInput : List Byte := (List.range 18).flatMap fun k => List.replicate (Nat.fib (k + 1)) (BitVec.ofNat 8 k)

/-- A machine that holds it. -/
def deepBusy : State := { busy 64 deepInput with cfg := ⟨8192, 64⟩ }

theorem deepInput_length : deepInput.length = 6764 := by
  simp only [deepInput, List.length_flatMap, List.length_replicate]
  decide

theorem deepBusy_input : deepBusy.input = deepInput :=
  busy_input 64 deepInput (by rw [deepInput_length]; decide)

theorem deepInput_count : freqCount deepInput = fibFreq 18 := by
  have key : ∀ b < 256, BitVec.ofNat 32
      ((List.range 18).map fun k => if BitVec.ofNat 8 k == BitVec.ofNat 8 b then Nat.fib (k + 1) else 0).sum =
      if b < 18 then BitVec.ofNat 32 (Nat.fib (b + 1)) else 0 := by decide +kernel
  refine Vector.ext fun b hb => ?_
  rw [freqCount, fibFreq, getElem_tabulate, getElem_tabulate, ← key b hb]
  simp only [deepInput, List.count_flatMap, Function.comp_def, List.count_replicate]

theorem deepBusy_fits : deepBusy.inLen.toNat ≤ deepBusy.ibufBytes := by
  rw [← State.input_length, deepBusy_input, deepInput_length]
  decide

theorem test_witness_HcompMatchesUnitCommands_error : deepBusy.inLen.toNat ≤ deepBusy.ibufBytes ∧
    (after .derive (after .tbuild (after .freq deepBusy))).status = .error := by
  have h : after .freq deepBusy =
      State.complete { deepBusy.clearCodeTable with freq := fibFreq 18, root := Config.nodeNull, nnodes := 0 } := by
    simp only [after, exec, execFreq, requireInput_of_le deepBusy_fits, deepBusy_input, except_ok_bind, State.finish,
      State.settle, freqBody, deepInput_count]
  refine ⟨deepBusy_fits, ?_⟩
  rw [h]
  decide +kernel

theorem test_witness_HcompShortCircuits : (busy 3 []).inLen = 0 ∧ 3 ≤ (busy 3 []).obufBytes ∧
    (busy 11 [0x61, 0x61]).inLen ≠ 0 ∧ (∀ a < (busy 11 [0x61, 0x61]).inLen.toNat, (busy 11 [0x61, 0x61]).ibufAt a = 0x61) ∧
    11 ≤ (busy 11 []).obufBytes := by decide +kernel

theorem test_witness_HcompCompletesOnFewSymbols :
    (busy 105 ((List.range 17).map (BitVec.ofNat 8))).inLen.toNat ≤ 64 ∧
    ((busy 105 ((List.range 17).map (BitVec.ofNat 8))).input.dedup).length ≤ 17 ∧
    71 + 2 * (busy 105 ((List.range 17).map (BitVec.ofNat 8))).inLen.toNat ≤ (busy 105 []).obufBytes := by decide +kernel

/-- The table that stands in the block `B`. -/
def blockTable (B : List Byte) : CodeTable :=
  match parseTable B 1 with
  | .ok (T, _) => T
  | .error _ => CodeTable.empty

theorem parse_block {B : List Byte} {n : Nat} (h : (parseTable B 1).toOption.map Prod.snd = some n) :
    parseTable B 1 = .ok (blockTable B, n) := by
  unfold blockTable
  cases hp : parseTable B 1 with
  | error e => simp [hp, Except.toOption] at h
  | ok x =>
    obtain ⟨T, m⟩ := x
    simp only [hp, Except.toOption, Option.map_some, Option.some.injEq] at h
    simp [h]

theorem test_witness_HdecompDecodesBlock_empty : (busy 4 [7, 0, 0]).input = [7, 0, 0] ∧ (byteAt [7, 0, 0] 0).toNat ≤ 7 ∧
    parseTable [7, 0, 0] 1 = .ok (blockTable [7, 0, 0], 0) := ⟨by decide, by decide, parse_block (by decide +kernel)⟩

/-- The block of V2. -/
def block2 : List Byte := [0, 0, 1, 0x61, 1, 0, 0, 0, 0, 0, 4]

theorem test_witness_HdecompDecodesBlock_one : parseTable (block2.take 7) 1 = .ok (blockTable (block2.take 7), 1) ∧
    (block2.take 7).length ≠ 11 ∧ parseTable block2 1 = .ok (blockTable block2, 1) ∧ block2.length = 11 ∧
    ((blockTable block2).at 0x61).valid = true ∧ (readBe32 block2 7).toNat ≤ (busy 4 []).obufBytes ∧
    (busy 3 []).obufBytes < (readBe32 block2 7).toNat :=
  ⟨parse_block (by decide +kernel), by decide, parse_block (by decide +kernel), rfl, by decide +kernel, by decide, by decide⟩

/-- The block of "ab" (V21), the code of 61 "0" and of 62 "1". -/
def blockAb : List Byte := [6, 0, 2, 0x61, 1, 0, 0, 0x62, 1, 0, 1, 0x40]

theorem test_witness_HdecompDecodesBlock_payload : parseTable (blockAb.take 11) 1 = .ok (blockTable (blockAb.take 11), 2) ∧
    8 * ((blockAb.take 11).length - (3 + 4 * 2)) < (byteAt (blockAb.take 11) 0).toNat ∧
    parseTable blockAb 1 = .ok (blockTable blockAb, 2) ∧
    (byteAt blockAb 0).toNat ≤ 8 * (blockAb.length - (3 + 4 * 2)) ∧
    covers (blockTable blockAb) [0x61, 0x62] ∧ [0x61, 0x62].length ≤ (busy 2 []).obufBytes ∧
    payloadBits (blockAb.drop (3 + 4 * 2)) (byteAt blockAb 0).toNat = codeStream (blockTable blockAb) [0x61, 0x62] := by
  refine ⟨parse_block (by decide +kernel), by decide, parse_block (by decide +kernel), by decide, ?_, by decide,
    by decide +kernel⟩
  unfold covers
  decide +kernel

theorem test_witness_HuffmanRoundTrip : ∃ s t u : State, exec .hcomp s = .next t ∧ t.completed ∧ u.inLen = t.outLen ∧
    u.inLen.toNat ≤ u.ibufBytes ∧ (∀ a < t.outLen.toNat, u.ibufAt a = t.obufAt a) ∧ s.inLen.toNat ≤ u.obufBytes := by
  refine ⟨busy 12 [0x61, 0x62], after .hcomp (busy 12 [0x61, 0x62]),
    busy 2 [0x06, 0x00, 0x02, 0x61, 0x01, 0x00, 0x00, 0x62, 0x01, 0x00, 0x01, 0x40], exec_after _ _, ?_, by decide +kernel,
    by decide, by decide +kernel, by decide⟩
  unfold State.completed
  decide +kernel

theorem test_witness_LzFindIsLongestAndFirst : 7 < abra.length ∧ lzFind abra 7 20 = (7, 4) ∧
    lzFind abra 2 20 = (0, 0) ∧ lzFind abra 0 0 = (0, 0) := by decide +kernel

theorem test_witness_LzfindWritesToken : (busy 64 abra).inLen.toNat ≤ 64 ∧ (0, 0) = lzFind (busy 64 abra).input 11 20 ∧
    (5, 1) = lzFind (busy 64 abra).input 5 20 ∧ 5 + 1 < (busy 64 abra).inLen.toNat ∧
    (7, 4) = lzFind (busy 64 abra).input 7 20 ∧ 7 + 4 = (busy 64 abra).inLen.toNat ∧
    (0, 0) = lzFind (busy 64 abra).input 2 20 := by decide +kernel

theorem test_witness_LzreplayCopies : (withOutput 5 [0x61]).outLen.toNat = 1 ∧ ((1 : Word) = 0 ↔ (3 : Word) = 0) ∧
    (1 : Word).toNat ≤ 1 ∧ 1 + (3 : Word).toNat + true.toNat ≤ (withOutput 5 [0x61]).obufBytes := by decide

theorem test_witness_LzreplayRejects : (0 : Word) = 0 ∧ (1 : Word) ≠ 0 ∧
    (withOutput 5 [0x61]).outLen.toNat < (2 : Word).toNat ∧ (withOutput 4 [0x61]).outLen.toNat ≤ (withOutput 4 []).obufBytes ∧
    (withOutput 4 []).obufBytes < (withOutput 4 [0x61]).outLen.toNat + (3 : Word).toNat + true.toNat := by decide

theorem test_witness_TokenRecordRoundTrip : (⟨1, 7, 0, false⟩ : Token).litv = false ∧ (⟨1, 7, 0, false⟩ : Token).lit = 0 ∧
    byteAt [0, 0, 0, 0, 0, 0, 0, 0, 2, 0x61] 8 &&& 0xFE ≠ 0 := by decide

/-- The stream of V5. -/
def stream5 : List Byte := [0, 0, 0, 0, 0, 0, 0, 0, 1, 0x61, 0, 0, 0, 1, 0, 0, 0, 7, 0, 0]

/-- The tokens of V5. -/
def tokens5 : List Token := [⟨0, 0, 0x61, true⟩, ⟨1, 7, 0, false⟩]

/-- The input of V5. -/
def input5 : List Byte := List.replicate 8 0x61

theorem test_witness_LzcompWritesRecords : (busy 20 input5).inLen.toNat ≤ (busy 20 input5).ibufBytes ∧
    lzfindLeaves { busy 20 input5 with lzPos := 0 } tokens5 ∧ 10 * tokens5.length = (busy 20 []).obufBytes ∧
    (busy 19 []).obufBytes < 10 * tokens5.length := by
  refine ⟨by decide, ⟨by decide, _, exec_after _ _, by decide +kernel, by decide +kernel, _, exec_after _ _, by decide +kernel, ?_⟩,
    by decide, by decide⟩
  unfold lzfindLeaves
  decide +kernel

theorem test_witness_LzdecompReplaysTokenStream :
    (busy 8 stream5).inLen.toNat ≤ (busy 8 stream5).ibufBytes ∧ (busy 8 stream5).input = tokens5.flatMap Token.ser ∧
    (∀ t ∈ tokens5, t.litv = false → t.lit = 0) ∧
    (∀ pre t post, tokens5 = pre ++ t :: post → (t.offset = 0 ↔ t.length = 0) ∧ t.offset.toNat ≤ producedLength pre) ∧
    producedLength tokens5 = (busy 8 stream5).obufBytes := by
  refine ⟨by decide, by decide +kernel, by decide, ?_, by decide⟩
  intro pre t post h
  match pre, h with
  | [], h => cases h; decide
  | [a], h => cases h; decide
  | a :: b :: c, h => simp [tokens5] at h

theorem test_witness_LzdecompReplaysTokenStream_errors :
    (busy 64 (List.replicate 9 0)).inLen.toNat % 10 ≠ 0 ∧
    (busy 64 [0, 0, 0, 0, 0, 0, 0, 0, 2, 0x61]).inLen.toNat % 10 = 0 ∧
    (busy 64 [0, 0, 0, 0, 0, 0, 0, 0, 2, 0x61]).inLen ≠ 0 ∧
    (busy 64 [0, 0, 0, 0, 0, 0, 0, 0, 2, 0x61]).ibufAt 8 &&& 0xFE ≠ 0 := by decide +kernel

theorem test_witness_LzdecompRunsItsRecords :
    (busy 8 stream5).inLen.toNat = 10 * 2 ∧ (busy 8 stream5).status = .busy ∧
    (recordsOf 2 (busy 8 stream5).input).map (fun K => decode (.record (.token (tokenWordOf K)))) =
      [Instr.tokenLit 0x61, .tokenMatchend 1 7 0].map Except.ok ∧
    (after (.tokenLit 0x61) (busy 8 stream5)).status = .busy ∧
    (after (.tokenMatchend 1 7 0) (after (.tokenLit 0x61) (busy 8 stream5))).status = .busy ∧
    (after (.tokenMatchend 1 7 0) (after (.tokenLit 0x61) (busy 7 stream5))).status = .error := by decide +kernel

theorem test_witness_LzRoundTrip : ∃ s t u : State, exec .lzcomp s = .next t ∧ t.completed ∧ u.inLen = t.outLen ∧
    u.inLen.toNat ≤ u.ibufBytes ∧ (∀ a < t.outLen.toNat, u.ibufAt a = t.obufAt a) ∧ s.inLen.toNat ≤ u.obufBytes := by
  refine ⟨busy 20 (List.replicate 8 0x61), after .lzcomp (busy 20 (List.replicate 8 0x61)), busy 8 stream5, exec_after _ _, ?_,
    by decide +kernel, by decide, by decide +kernel, by decide⟩
  unfold State.completed
  decide +kernel

theorem test_witness_HeaderRecordStartsTable : (7 : Byte).toNat ≤ 7 ∧ (256 : BitVec 16).toNat ≤ 256 ∧ 7 < (8 : Byte).toNat ∧
    256 < (257 : BitVec 16).toNat := by decide

theorem test_witness_EntryRecordAddsCode : 1 ≤ (16 : Byte).toNat ∧ (16 : Byte).toNat ≤ 16 ∧
    (0xFFFF : BitVec 16).toNat < 2 ^ (16 : Byte).toNat ∧ ((busy 64 []).ct.at 0x61).valid = false ∧ (0 : Byte).toNat = 0 ∧
    16 < (17 : Byte).toNat ∧ 2 ^ (1 : Byte).toNat ≤ (2 : BitVec 16).toNat ∧ (table3.at 0x61).valid = true := by decide +kernel

theorem test_witness_CountRecordRepeatsSymbol :
    (∀ c, ((CodeTable.empty.put 0x61 ⟨true, 1, 0⟩).at c).valid = true ↔ c = 0x61) ∧
    (64 : Word).toNat ≤ (busy 64 []).obufBytes ∧ (busy 64 []).obufBytes < (65 : Word).toNat := by
  refine ⟨fun c => ?_, by decide, by decide⟩
  rw [CodeTable.at_put, CodeTable.at_empty]
  split
  · rename_i h
    exact iff_of_true rfl h
  · rename_i h
    exact iff_of_false (by decide) h

theorem test_witness_TokenRecordsReplay : (busy 1 []).outLen.toNat = 0 ∧ 0 < (busy 1 []).obufBytes ∧
    (withOutput 5 [0x61]).outLen.toNat = 1 ∧ (1 : Word) ≠ 0 ∧ (3 : Word) ≠ 0 ∧ (1 : Word).toNat ≤ 1 ∧
    1 + (3 : Word).toNat < (withOutput 5 [0x61]).obufBytes ∧ 1 + (3 : Word).toNat ≤ (withOutput 4 [0x61]).obufBytes := by decide

theorem test_witness_InvalidTokenRecordsRaise : (2 : Word) ≠ 0 ∧ (1 : Word) ≠ 0 ∧
    (withOutput 5 [0x61]).outLen.toNat < (2 : Word).toNat := by decide

/-- A machine about to run TSER on the table of V20. -/
def aboutToSerialize : State := { with3 14 [0x61] with cmd := 0x13 }

theorem aboutToSerialize_inv : aboutToSerialize.Inv where
  ibuf := ⟨Memory.ofBytes_wf _ _, by decide⟩
  output := ⟨rfl, by decide⟩
  units := ⟨rfl, rfl, rfl, rfl⟩
  err := ⟨fun h => by simp [aboutToSerialize, with3, busy] at h, fun h => by cases h⟩
  codeTable _ := table3_good
  tree _ := ⟨by decide, fun _ => rfl, fun h => absurd rfl h, fun k hk => absurd hk (Nat.not_lt_zero k),
    fun c hc => absurd hc (Nat.not_lt_zero c), fun j hj => absurd hj (Nat.not_lt_zero j)⟩
  count _ := by decide +kernel

theorem test_witness_invariants : aboutToSerialize.Inv ∧ step aboutToSerialize = .next (after .tser aboutToSerialize) ∧
    (after .tser aboutToSerialize).status = .done :=
  ⟨aboutToSerialize_inv, exec_after .tser aboutToSerialize, by decide +kernel⟩

end Sys2Proof.Tests
end

section
/-! PROOFS. Which code tables the machine makes (R35): the counts of put entries, the leaves DERIVE visits (R150 to R153), and
the tables TDES parses (R157). -/

namespace Sys2Proof.Machine

/-! ### The number of valid entries -/

/-- The symbols that have an entry. -/
theorem CodeTable.mem_entries_fst {T : CodeTable} {s : Byte} : s ∈ T.entries.map Prod.fst ↔ (T.at s).valid = true := by
  rw [List.mem_map]
  constructor
  · rintro ⟨⟨r, e⟩, he, rfl⟩
    obtain ⟨hT, hv⟩ := CodeTable.mem_entries.1 he
    exact hT ▸ hv
  · intro h
    exact ⟨(s, T.at s), CodeTable.mem_entries.2 ⟨rfl, h⟩, rfl⟩

/-- The number of valid entries is the length of any list of exactly their symbols. -/
theorem CodeTable.count_eq_length {T : CodeTable} {L : List Byte} (hn : L.Nodup)
    (hm : ∀ s, s ∈ L ↔ (T.at s).valid = true) : T.count = L.length := by
  have hp : (T.entries.map Prod.fst).Perm L :=
    (List.perm_ext_iff_of_nodup T.entries_nodup hn).2 fun s => CodeTable.mem_entries_fst.trans (hm s).symm
  simpa [CodeTable.count] using hp.length_eq

@[simp] theorem CodeTable.count_empty : CodeTable.empty.count = 0 :=
  CodeTable.count_eq_length (L := []) List.nodup_nil fun s => by simp [CtEntry.invalid]

/-- A valid entry for a symbol that had none is one entry more. -/
theorem CodeTable.count_put {T : CodeTable} {s : Byte} {e : CtEntry} (hs : (T.at s).valid = false) (he : e.valid = true) :
    (T.put s e).count = T.count + 1 := by
  have hnew : s ∉ T.entries.map Prod.fst := by simp [CodeTable.mem_entries_fst, hs]
  have h := CodeTable.count_eq_length (T := T.put s e) (List.nodup_cons.2 ⟨hnew, T.entries_nodup⟩) fun r => by
    by_cases hr : r = s
    · simp [hr, he]
    · rw [List.mem_cons, or_iff_right hr, CodeTable.mem_entries_fst, CodeTable.at_put_ne T e hr]
  simpa [CodeTable.count] using h

/-! ### Legal entries -/

theorem CtEntry.legal_invalid : CtEntry.invalid.legal := by simp [CtEntry.legal, CtEntry.invalid]

/-- A code of 1 to 16 bits makes a legal entry (R35, R152). -/
theorem CtEntry.legal_ofCode {c : Bits} (h1 : 1 ≤ c.length) (h2 : c.length ≤ 16) : (CtEntry.ofCode c).legal := by
  have hlen : c.length % 2 ^ 5 = c.length := Nat.mod_eq_of_lt (by omega)
  have hval : bitsVal c % 2 ^ 16 < 2 ^ c.length := lt_of_le_of_lt (Nat.mod_le _ _) (bitsVal_lt c)
  simpa only [CtEntry.legal, CtEntry.ofCode, if_true, BitVec.toNat_ofNat, hlen] using ⟨h1, h2, hval⟩

/-- Fields within the ranges of R157 make a legal entry. -/
theorem CtEntry.legal_ofFields {len : Byte} {bits : BitVec 16} (h1 : 1 ≤ len.toNat) (h2 : len.toNat ≤ 16)
    (hb : bits.toNat < 2 ^ len.toNat) : (CtEntry.ofFields len bits).legal := by
  have hlen : len.toNat % 2 ^ 5 = len.toNat := Nat.mod_eq_of_lt (by omega)
  simpa only [CtEntry.legal, CtEntry.ofFields, if_true, BitVec.toNat_setWidth, hlen] using ⟨h1, h2, hb⟩

theorem CodeTable.legal_put {T : CodeTable} {s : Byte} {e : CtEntry} (hT : ∀ r, (T.at r).legal) (he : e.legal) (r : Byte) :
    ((T.put s e).at r).legal := by
  rw [CodeTable.at_put]
  split
  · exact he
  · exact hT r

/-! ### The table of a list of codes (R152) -/

/-- What the loop `T[s] <- ...` leaves for a symbol: the code of some pair of the list, or what it held. -/
theorem at_foldl_put (codes : List (Byte × Bits)) (T : CodeTable) (s : Byte) :
    let U := codes.foldl (fun T c => T.put c.1 (CtEntry.ofCode c.2)) T
    (∃ c ∈ codes, c.1 = s ∧ U.at s = CtEntry.ofCode c.2) ∨ (s ∉ codes.map Prod.fst ∧ U.at s = T.at s) := by
  induction codes generalizing T with
  | nil => simp
  | cons c codes ih =>
    rcases ih (T.put c.1 (CtEntry.ofCode c.2)) with ⟨d, hd, hs, he⟩ | ⟨hs, he⟩
    · exact .inl ⟨d, List.mem_cons_of_mem _ hd, hs, he⟩
    · by_cases hc : s = c.1
      · subst hc
        exact .inl ⟨c, List.mem_cons_self, rfl, by simpa using he⟩
      · refine .inr ⟨by simpa [hc] using hs, ?_⟩
        simpa [CodeTable.at_put_ne T _ hc] using he

/-- Every entry of the table of a list of codes is one of the codes, or there is none for its symbol. -/
theorem at_tableOfCodes (codes : List (Byte × Bits)) (s : Byte) :
    (∃ c ∈ codes, c.1 = s ∧ (tableOfCodes codes).at s = CtEntry.ofCode c.2) ∨
    (s ∉ codes.map Prod.fst ∧ (tableOfCodes codes).at s = CtEntry.invalid) := by
  rw [← CodeTable.at_empty s]
  exact at_foldl_put codes CodeTable.empty s

theorem valid_tableOfCodes (codes : List (Byte × Bits)) (s : Byte) :
    ((tableOfCodes codes).at s).valid = true ↔ s ∈ codes.map Prod.fst := by
  rcases at_tableOfCodes codes s with ⟨c, hc, rfl, he⟩ | ⟨hs, he⟩
  · rw [he]
    exact iff_of_true rfl (List.mem_map_of_mem hc)
  · rw [he]
    exact iff_of_false (by simp [CtEntry.invalid]) hs

/-- Codes of different symbols give as many entries as there are codes (R154). -/
theorem count_tableOfCodes {codes : List (Byte × Bits)} (h : (codes.map Prod.fst).Nodup) :
    (tableOfCodes codes).count = codes.length := by
  rw [CodeTable.count_eq_length h fun s => (valid_tableOfCodes codes s).symm, List.length_map]

/-- Two codes neither of which begins the other. -/
def Incomparable (a b : Byte × Bits) : Prop := ¬ a.2 <+: b.2 ∧ ¬ b.2 <+: a.2

/-- Codes of 1 to 16 bits, none beginning another, make a good table, even where a symbol has several (R35). -/
theorem good_tableOfCodes {codes : List (Byte × Bits)} (hl : ∀ c ∈ codes, 1 ≤ c.2.length ∧ c.2.length ≤ 16)
    (hp : codes.Pairwise Incomparable) : (tableOfCodes codes).Good := by
  have legal : ∀ s, ((tableOfCodes codes).at s).legal := fun s => by
    rcases at_tableOfCodes codes s with ⟨c, hc, _, he⟩ | ⟨_, he⟩ <;> rw [he]
    · exact CtEntry.legal_ofCode (hl c hc).1 (hl c hc).2
    · exact CtEntry.legal_invalid
  have code : ∀ s, ((tableOfCodes codes).at s).valid = true →
      ∃ c ∈ codes, c.1 = s ∧ ((tableOfCodes codes).at s).code = c.2 := fun s hv => by
    rcases at_tableOfCodes codes s with ⟨c, hc, hs, he⟩ | ⟨_, he⟩ <;> rw [he] at hv ⊢
    · exact ⟨c, hc, hs, CtEntry.code_ofCode (hl c hc).2⟩
    · simp [CtEntry.invalid] at hv
  refine ⟨legal, (CodeTable.prefixFree_iff legal).2 fun a b hab ha hb => ?_⟩
  obtain ⟨c, hc, rfl, hca⟩ := code a ha
  obtain ⟨d, hd, rfl, hdb⟩ := code b hb
  have hsymm : Std.Symm Incomparable := ⟨fun _ _ h => ⟨h.2, h.1⟩⟩
  rw [hca, hdb]
  exact (hp.forall hc hd fun h => hab (congrArg Prod.fst h)).1

/-! ### The leaves DERIVE visits (R150, R152) -/

/-- The child of node `k` along an edge: left 0, right 1 (R150). -/
def edge (N : NodeStore) (k : NodeIndex) (b : Bool) : NodeIndex := if b then (N.at k).right else (N.at k).left

theorem reaches_cons {N : NodeStore} {k j : NodeIndex} {b : Bool} {p : Bits} :
    reaches N k (b :: p) j ↔ (N.at k).kind = .internal ∧ reaches N (edge N k b) p j := by
  cases b <;> rfl

/-- A path that ends with an edge reaches the node before it first. -/
theorem reaches_snoc {N : NodeStore} {k j : NodeIndex} {p : Bits} {b : Bool} :
    reaches N k (p ++ [b]) j ↔ ∃ i, reaches N k p i ∧ (N.at i).kind = .internal ∧ edge N i b = j := by
  induction p generalizing k with
  | nil => simp [reaches_cons, reaches]
  | cons c p ih =>
    rw [List.cons_append, reaches_cons, ih]
    simp only [reaches_cons, and_assoc, exists_and_left]

/-- Code `c` is the path from node `k`, of fewer than `fuel` edges and below the path `p`, to a leaf that holds its symbol. -/
def CodesLeaf (N : NodeStore) (fuel : Nat) (k : NodeIndex) (p : Bits) (c : Byte × Bits) : Prop :=
  ∃ q j, c.2 = p ++ q ∧ q.length < fuel ∧ reaches N k q j ∧ (N.at j).kind = .leaf ∧ (N.at j).sym = c.1

theorem CodesLeaf.of_edge {N : NodeStore} {fuel : Nat} {k : NodeIndex} {p : Bits} {b : Bool} {c : Byte × Bits}
    (hk : (N.at k).kind = .internal) (h : CodesLeaf N fuel (edge N k b) (p ++ [b]) c) :
    CodesLeaf N (fuel + 1) k p c := by
  obtain ⟨q, j, hc, hq, hr, hj⟩ := h
  exact ⟨b :: q, j, by simpa using hc, by simpa using hq, reaches_cons.2 ⟨hk, hr⟩, hj⟩

/-- Everything the walk of R152 can answer with success: a leaf's own code, or the codes below the two children. -/
theorem deriveLeaves_ok {N : NodeStore} {fuel : Nat} {k : NodeIndex} {p : Bits} {codes : List (Byte × Bits)}
    (h : deriveLeaves N (fuel + 1) k p = .ok codes) :
    ((N.at k).kind = .leaf ∧ codes = [((N.at k).sym, p)]) ∨
    ∃ l r, (N.at k).kind = .internal ∧ deriveLeaves N fuel (edge N k false) (p ++ [false]) = .ok l ∧
      deriveLeaves N fuel (edge N k true) (p ++ [true]) = .ok r ∧ codes = l ++ r := by
  unfold deriveLeaves at h
  split at h
  · cases h
    exact .inl ⟨by assumption, rfl⟩
  · obtain ⟨l, hl, h⟩ := except_bind_ok h
    obtain ⟨r, hr, h⟩ := except_bind_ok h
    cases h
    exact .inr ⟨l, r, by assumption, hl, hr, rfl⟩

/-- Every code DERIVE makes is the path to a leaf. -/
theorem deriveLeaves_codesLeaf {N : NodeStore} {fuel : Nat} {k : NodeIndex} {p : Bits} {codes : List (Byte × Bits)}
    (h : deriveLeaves N fuel k p = .ok codes) : ∀ c ∈ codes, CodesLeaf N fuel k p c := by
  induction fuel generalizing k p codes with
  | zero => cases h
  | succ fuel ih =>
    intro c hc
    rcases deriveLeaves_ok h with ⟨hk, rfl⟩ | ⟨l, r, hk, hl, hr, rfl⟩
    · obtain rfl := List.mem_singleton.1 hc
      exact ⟨[], k, by simp, by simp, rfl, hk, rfl⟩
    · rcases List.mem_append.1 hc with hc | hc
      · exact (ih hl c hc).of_edge hk
      · exact (ih hr c hc).of_edge hk

/-- No code DERIVE makes begins another, whatever the node store holds (R157). -/
theorem deriveLeaves_incomparable {N : NodeStore} {fuel : Nat} {k : NodeIndex} {p : Bits} {codes : List (Byte × Bits)}
    (h : deriveLeaves N fuel k p = .ok codes) : codes.Pairwise Incomparable := by
  induction fuel generalizing k p codes with
  | zero => cases h
  | succ fuel ih =>
    rcases deriveLeaves_ok h with ⟨_, rfl⟩ | ⟨l, r, _, hl, hr, rfl⟩
    · exact List.pairwise_singleton _ _
    · refine List.pairwise_append.2 ⟨ih hl, ih hr, fun c hc d hd => ?_⟩
      obtain ⟨q, _, hq, _⟩ := deriveLeaves_codesLeaf hl c hc
      obtain ⟨q', _, hq', _⟩ := deriveLeaves_codesLeaf hr d hd
      simp [Incomparable, hq, hq', List.prefix_append_right_inj]

/-- Everything DERIVE can answer with success (R152): the empty table where there is no node, else the table of codes of 1 to 16
bits, none beginning another; each is the path to a leaf, or the root is the one leaf and its code is 0. -/
theorem deriveTable_ok {N : NodeStore} {root : NodeIndex} {present : Bool} {T : CodeTable} {n : Nat}
    (h : deriveTable N root present = .ok (T, n)) :
    (root = Config.nodeNull ∧ T = CodeTable.empty ∧ n = 0) ∨
    ∃ codes, root ≠ Config.nodeNull ∧ T = tableOfCodes codes ∧ n = codes.length ∧
      (∀ c ∈ codes, 1 ≤ c.2.length ∧ c.2.length ≤ 16) ∧ codes.Pairwise Incomparable ∧
      ((∃ s, codes = [(s, [false])]) ∨ ∀ c ∈ codes, CodesLeaf N (Config.codeMax + 1) root [] c) := by
  unfold deriveTable at h
  split at h
  · split at h
    · cases h
    · cases h
      exact .inl ⟨by assumption, rfl, rfl⟩
  · split at h
    · cases h
      exact .inr ⟨_, by assumption, rfl, rfl, by simp, List.pairwise_singleton _ _, .inl ⟨_, rfl⟩⟩
    · rename_i hnull _ hroot
      obtain ⟨codes, hd, h⟩ := except_bind_ok h
      cases h
      have hleaf := deriveLeaves_codesLeaf hd
      refine .inr ⟨codes, hnull, rfl, rfl, fun c hc => ?_, deriveLeaves_incomparable hd, .inr hleaf⟩
      obtain ⟨q, j, hq, hlen, hr, hj, _⟩ := hleaf c hc
      have hne : q ≠ [] := by
        rintro rfl
        cases hr
        simp [hroot] at hj
      have := List.length_pos_iff.2 hne
      simp only [hq, List.nil_append, Config.codeMax] at hlen ⊢
      omega

/-- DERIVE makes only good tables, from any node store (R35). -/
theorem deriveTable_good {N : NodeStore} {root : NodeIndex} {present : Bool} {T : CodeTable} {n : Nat}
    (h : deriveTable N root present = .ok (T, n)) : T.Good := by
  rcases deriveTable_ok h with ⟨_, rfl, _⟩ | ⟨codes, _, rfl, _, hl, hp, _⟩
  · exact CodeTable.good_empty
  · exact good_tableOfCodes hl hp

/-! ### The tables TDES parses (R157) -/

/-- Everything an entry that passes its checks does (R157). -/
theorem addEntry_ok {T U : CodeTable} {sym len : Byte} {bits : BitVec 16} (h : addEntry T sym len bits = .ok U) :
    1 ≤ len.toNat ∧ len.toNat ≤ 16 ∧ bits.toNat < 2 ^ len.toNat ∧ (T.at sym).valid = false ∧
      U = T.put sym (CtEntry.ofFields len bits) := by
  unfold addEntry at h
  split at h
  · cases h
  · rename_i hl
    split at h
    · cases h
    · split at h
      · cases h
      · rename_i hnew
        cases h
        have h0 : len.toNat ≠ 0 := fun hc => hl (.inl (BitVec.eq_of_toNat_eq hc))
        have h1 : ¬ 16 < len.toNat := fun hc => hl (.inr hc)
        exact ⟨by omega, by omega, by omega, by simpa using hnew, rfl⟩

/-- The entries that pass their checks are legal, and each is one more. -/
theorem addEntries_ok {B : List Byte} {n e : Nat} {T U : CodeTable} (h : addEntries B n e T = .ok U)
    (hT : ∀ s, (T.at s).legal) : (∀ s, (U.at s).legal) ∧ U.count = T.count + n := by
  induction n generalizing e T with
  | zero =>
    cases h
    exact ⟨hT, rfl⟩
  | succ n ih =>
    obtain ⟨T', h1, h⟩ := except_bind_ok h
    obtain ⟨hlo, hhi, hb, hnew, rfl⟩ := addEntry_ok h1
    obtain ⟨hl, hc⟩ := ih h (CodeTable.legal_put hT (CtEntry.legal_ofFields hlo hhi hb))
    rw [CodeTable.count_put hnew rfl] at hc
    exact ⟨hl, by omega⟩

/-- A table that TDES or HDECOMP accepts is good, and has as many entries as its header says. -/
theorem parseTable_good {B : List Byte} {p : Nat} {T : CodeTable} {n : Nat} (h : parseTable B p = .ok (T, n)) :
    T.Good ∧ T.count = n := by
  unfold parseTable at h
  split at h
  · cases h
  · dsimp only at h
    split at h
    · cases h
    · split at h
      · cases h
      · obtain ⟨U, hU, h⟩ := except_bind_ok h
        split at h
        · cases h
          obtain ⟨hl, hc⟩ := addEntries_ok hU fun s => by simp [CtEntry.legal_invalid]
          exact ⟨⟨hl, by assumption⟩, by simpa using hc⟩
        · cases h

end Sys2Proof.Machine
end

section
/-! PROOFS. The tree of the node store (R33, R133, R141): a path names one node, and TBUILD makes a tree. -/

namespace Sys2Proof.Machine

/-! ### Paths in a tree -/

section Tree

variable {N : NodeStore} {n : Nat} {root : NodeIndex}

/-- With no node, whatever the entries hold (R33). -/
theorem TreeOk.noNodes (N : NodeStore) : TreeOk N 0 Config.nodeNull where
  small := by omega
  empty _ := rfl
  last h := absurd rfl h
  children _ h := absurd h (Nat.not_lt_zero _)
  owned _ h := absurd h (Nat.not_lt_zero _)
  symbols _ h := absurd h (Nat.not_lt_zero _)

theorem TreeOk.root_lt (h : TreeOk N n root) (hr : root ≠ Config.nodeNull) : root.toNat = n - 1 ∧ 0 < n := by
  have hn : n ≠ 0 := fun hc => hr (h.empty hc)
  exact ⟨h.last hn, by omega⟩

/-- An edge leads to a node of smaller index, and the two edges of a node to two nodes. -/
theorem TreeOk.edge_lt (h : TreeOk N n root) {k : NodeIndex} (hk : k.toNat < n) (hi : (N.at k).kind = .internal) (b : Bool) :
    (edge N k b).toNat < k.toNat := by
  have hc := h.children k.toNat hk
  rw [BitVec.ofNat_toNat, BitVec.setWidth_eq] at hc
  obtain ⟨hl, hr, _⟩ := hc hi
  cases b
  · exact hl
  · exact hr

theorem TreeOk.edge_injective (h : TreeOk N n root) {k : NodeIndex} (hk : k.toNat < n) (hi : (N.at k).kind = .internal)
    {b c : Bool} (he : edge N k b = edge N k c) : b = c := by
  have hc := h.children k.toNat hk
  rw [BitVec.ofNat_toNat, BitVec.setWidth_eq] at hc
  obtain ⟨_, _, hne⟩ := hc hi
  cases b <;> cases c
  · rfl
  · exact absurd he hne
  · exact absurd he.symm hne
  · rfl

theorem isChild_edge {k : NodeIndex} (hk : k.toNat < 511) (hi : (N.at k).kind = .internal) (b : Bool) :
    isChild N k.toNat (edge N k b).toNat := by
  rw [isChild, BitVec.ofNat_toNat, BitVec.setWidth_eq]
  cases b
  · exact ⟨hk, hi, .inl rfl⟩
  · exact ⟨hk, hi, .inr rfl⟩

/-- Two edges that lead to one node leave one node. -/
theorem TreeOk.parent_unique (h : TreeOk N n root) {j k : NodeIndex} {b c : Bool} (hj : j.toNat < n) (hk : k.toNat < n)
    (hji : (N.at j).kind = .internal) (hki : (N.at k).kind = .internal) (he : edge N j b = edge N k c) : j = k := by
  have hlt := h.edge_lt hj hji b
  obtain ⟨i, _, _, honly⟩ := h.owned (edge N j b).toNat (by omega)
  have h1 := honly _ hj (isChild_edge (by have := h.small; omega) hji b)
  have h2 := honly _ hk (he ▸ isChild_edge (by have := h.small; omega) hki c)
  exact BitVec.eq_of_toNat_eq (h1.trans h2.symm)

/-- A path leads to a node in use, and one with an edge to a node of smaller index. -/
theorem TreeOk.reaches_le (h : TreeOk N n root) {k j : NodeIndex} {p : Bits} (hk : k.toNat < n) (hr : reaches N k p j) :
    j.toNat + p.length ≤ k.toNat := by
  induction p generalizing k with
  | nil =>
    cases hr
    exact le_rfl
  | cons b p ih =>
    obtain ⟨hi, hr⟩ := reaches_cons.1 hr
    have hlt := h.edge_lt hk hi b
    have := ih (by omega) hr
    simp only [List.length_cons]
    omega

/-- Only one path leads from the root to a node (R133). -/
theorem TreeOk.path_unique (h : TreeOk N n root) (hn : root ≠ Config.nodeNull) {p q : Bits} {j : NodeIndex}
    (hp : reaches N root p j) (hq : reaches N root q j) : p = q := by
  obtain ⟨hroot, hpos⟩ := h.root_lt hn
  have below : ∀ {p j}, reaches N root p j → j.toNat + p.length ≤ root.toNat := fun hr => h.reaches_le (by omega) hr
  have loop : ∀ {p}, reaches N root p root → p = [] := fun hr => by
    have := below hr
    exact List.length_eq_zero_iff.1 (by omega)
  induction p using List.reverseRecOn generalizing q j with
  | nil =>
    cases hp
    exact (loop hq).symm
  | append_singleton p b ih =>
    induction q using List.reverseRecOn with
    | nil =>
      cases hq
      exact loop hp
    | append_singleton q c _ =>
      obtain ⟨i, hpi, hi, rfl⟩ := reaches_snoc.1 hp
      obtain ⟨i', hqi, hi', he⟩ := reaches_snoc.1 hq
      have h1 := below hpi
      have h2 := below hqi
      obtain rfl := h.parent_unique (by omega) (by omega) hi' hi he
      obtain rfl := h.edge_injective (by omega) hi he
      rw [ih hpi hqi]

/-- Codes of different leaves have different symbols (R154). -/
theorem TreeOk.symbols_nodup (h : TreeOk N n root) (hn : root ≠ Config.nodeNull) {fuel : Nat} {codes : List (Byte × Bits)}
    (hl : ∀ c ∈ codes, CodesLeaf N fuel root [] c) (hp : codes.Pairwise Incomparable) : (codes.map Prod.fst).Nodup := by
  obtain ⟨hroot, hpos⟩ := h.root_lt hn
  refine List.pairwise_map.2 (hp.imp_of_mem fun {c d} hc hd hcd hsym => hcd.1 ?_)
  obtain ⟨p, j, hcp, _, hrj, hlj, hsj⟩ := hl c hc
  obtain ⟨q, k, hdq, _, hrk, hlk, hsk⟩ := hl d hd
  have hj := h.reaches_le (by omega) hrj
  have hk := h.reaches_le (by omega) hrk
  have same := h.symbols j.toNat (by omega) k.toNat (by omega)
  simp only [BitVec.ofNat_toNat, BitVec.setWidth_eq] at same
  obtain rfl := BitVec.eq_of_toNat_eq (same hlj hlk (by rw [hsj, hsk, hsym]))
  rw [hcp, hdq, h.path_unique hn hrj hrk]

/-- On a tree DERIVE answers the number of entries of its table (R154). -/
theorem TreeOk.count_derive (h : TreeOk N n root) {present : Bool} {T : CodeTable} {m : Nat}
    (hd : deriveTable N root present = .ok (T, m)) : T.count = m := by
  rcases deriveTable_ok hd with ⟨_, rfl, rfl⟩ | ⟨codes, hn, rfl, rfl, _, hp, ⟨s, rfl⟩ | hl⟩
  · exact CodeTable.count_empty
  · exact count_tableOfCodes (List.nodup_singleton _)
  · exact count_tableOfCodes (h.symbols_nodup hn hl hp)

end Tree

end Sys2Proof.Machine
end

section
/-! PROOFS. TBUILD makes a tree (R133, R134, R141): the invariant of the merge loop. -/

namespace Sys2Proof.Machine

/-! ### The leaves (R130) -/

theorem treeLeaves_leaf {F : FreqTable} {x : Node} (h : x ∈ treeLeaves F) : x.kind = .leaf := by
  obtain ⟨⟨c, s⟩, _, hx⟩ := List.mem_filterMap.1 h
  dsimp only at hx
  split at hx
  · cases hx
    rfl
  · cases hx

theorem treeLeaves_length_le (F : FreqTable) : (treeLeaves F).length ≤ 256 :=
  (List.length_filterMap_le _ _).trans (by simp)

/-- No two leaves hold one symbol. -/
theorem treeLeaves_symbols (F : FreqTable) : (treeLeaves F).Pairwise fun x y => x.sym ≠ y.sym := by
  refine List.pairwise_filterMap.2 (List.pairwise_iff_getElem.2 fun i j hi hj hij x hx y hy => ?_)
  simp only [List.length_zipIdx, Vector.length_toList] at hi hj
  simp only [List.getElem_zipIdx, Nat.zero_add] at hx hy
  split at hx <;> split at hy <;> simp only [Option.some.injEq, reduceCtorEq] at hx hy
  subst hx hy
  intro hs
  have := congrArg BitVec.toNat hs
  simp only [Node.ofSymbol, BitVec.toNat_ofNat] at this
  omega

/-! ### The merge loop (R134) -/

/-- The minimum of a queue is one of its members. -/
theorem pqMin_mem (nodes : List Node) (k : Nat) (pq : List Nat) : pqMin nodes k pq ∈ k :: pq := by
  unfold pqMin
  induction pq generalizing k with
  | nil => simp
  | cons x pq ih =>
    rw [List.foldl_cons]
    rcases List.mem_cons.1 (ih (if keyBefore nodes x k then x else k)) with h | h
    · rw [h]
      split <;> simp
    · simp [h]

/-- Everything an extraction can do (R132): nothing on an empty queue, else a member leaves. -/
theorem extractMin_cases (nodes : List Node) (pq : List Nat) :
    (pq = [] ∧ extractMin nodes pq = none) ∨ ∃ a ∈ pq, extractMin nodes pq = some (a, pq.erase a) := by
  cases pq with
  | nil => exact .inl ⟨rfl, rfl⟩
  | cons k pq => exact .inr ⟨_, pqMin_mem nodes k pq, rfl⟩

/-- `c` is a child of the node `x`. -/
def Node.hasChild (x : Node) (c : Nat) : Prop := x.kind = .internal ∧ (x.left.toNat = c ∨ x.right.toNat = c)

theorem Node.hasChild_ofChildren {f : Word} {a b c : Nat} (ha : a < 512) (hb : b < 512) :
    (Node.ofChildren f a b).hasChild c ↔ c = a ∨ c = b := by
  simp only [Node.hasChild, Node.ofChildren, BitVec.toNat_ofNat, true_and]
  omega

theorem getElem?_concat_eq_some {α : Type} {L : List α} {z x : α} {k : Nat} :
    (L ++ [z])[k]? = some x ↔ L[k]? = some x ∨ (k = L.length ∧ z = x) := by
  rcases lt_trichotomy k L.length with h | rfl | h
  · simp [List.getElem?_append_left h, h.ne]
  · simp
  · have h1 : L.length ≤ k := h.le
    have h2 : k - L.length ≠ 0 := by omega
    simp [List.getElem?_append_right h1, List.getElem?_eq_none h1, h2, h.ne']

/-- The merge loop's invariant for `m` leaves: the nodes built so far are trees whose roots are the members of the queue, and
the last node is one of the roots (R133, R134). -/
structure Forest (m : Nat) (nodes : List Node) (pq : List Nat) : Prop where
  size : nodes.length + pq.length = 2 * m
  nodup : pq.Nodup
  inUse : ∀ k ∈ pq, k < nodes.length
  last : 0 < nodes.length → nodes.length - 1 ∈ pq
  children : ∀ (k : Nat) (x : Node), nodes[k]? = some x → x.kind = .internal → x.left.toNat < k ∧ x.right.toNat < k ∧ x.left ≠ x.right
  roots : ∀ c ∈ pq, ∀ (k : Nat) (x : Node), nodes[k]? = some x → ¬ x.hasChild c
  owned : ∀ c < nodes.length, c ∉ pq →
    ∃ (k : Nat) (x : Node), nodes[k]? = some x ∧ x.hasChild c ∧ ∀ (j : Nat) (y : Node), nodes[j]? = some y → y.hasChild c → j = k
  symbols : ∀ (j k : Nat) (x y : Node), nodes[j]? = some x → nodes[k]? = some y → x.kind = .leaf → y.kind = .leaf → x.sym = y.sym → j = k

/-- Before the first merge every leaf is a root. -/
theorem Forest.leaves (F : FreqTable) :
    Forest (treeLeaves F).length (treeLeaves F) (List.range (treeLeaves F).length) where
  size := by simp; omega
  nodup := List.nodup_range
  inUse k hk := List.mem_range.1 hk
  last h := List.mem_range.2 (by omega)
  children k x hx hi := by simp [treeLeaves_leaf (List.mem_of_getElem? hx)] at hi
  roots c _ k x hx hc := by simp [Node.hasChild, treeLeaves_leaf (List.mem_of_getElem? hx)] at hc
  owned c hc hn := absurd (List.mem_range.2 hc) hn
  symbols j k x y hx hy _ _ hs := by
    obtain ⟨hj, rfl⟩ := List.getElem?_eq_some_iff.1 hx
    obtain ⟨hk, rfl⟩ := List.getElem?_eq_some_iff.1 hy
    have hp := List.pairwise_iff_getElem.1 (treeLeaves_symbols F)
    rcases lt_trichotomy j k with h | h | h
    · exact absurd hs (hp j k hj hk h)
    · exact h
    · exact absurd hs.symm (hp k j hk hj h)

section Merge

variable {m : Nat} {nodes : List Node} {pq : List Nat} {a b : Nat}

/-- Every index in use fits NODE's 9 bits while a root is left. -/
theorem Forest.length_lt (h : Forest m nodes pq) (hm : m ≤ 256) (ha : a ∈ pq) : nodes.length < 512 := by
  have hsize := h.size
  have hpos := List.length_pos_of_mem ha
  omega

/-- The queue after a merge: the two roots are gone and the new node is in. -/
theorem Forest.mem_merged (h : Forest m nodes pq) {c : Nat} :
    c ∈ (pq.erase a).erase b ++ [nodes.length] ↔ (c ≠ b ∧ c ≠ a ∧ c ∈ pq) ∨ c = nodes.length := by
  rw [List.mem_append, (h.nodup.erase a).mem_erase_iff, h.nodup.mem_erase_iff, List.mem_singleton]

theorem Forest.hasChild_merged (h : Forest m nodes pq) (hm : m ≤ 256) (ha : a ∈ pq) (hb : b ∈ pq) {f : Word} {c : Nat} :
    (Node.ofChildren f a b).hasChild c ↔ c = a ∨ c = b := by
  have hlt := h.length_lt hm ha
  have hla := h.inUse a ha
  have hlb := h.inUse b hb
  exact Node.hasChild_ofChildren (by omega) (by omega)

/-- No node has a root as its child after a merge either. -/
theorem Forest.roots_merged (h : Forest m nodes pq) (hm : m ≤ 256) (ha : a ∈ pq) (hb : b ∈ pq) {f : Word} {c k : Nat}
    {x : Node} (hc : c ∈ (pq.erase a).erase b ++ [nodes.length])
    (hx : (nodes ++ [Node.ofChildren f a b])[k]? = some x) : ¬ x.hasChild c := by
  intro hxc
  have hla := h.inUse a ha
  have hlb := h.inUse b hb
  rcases getElem?_concat_eq_some.1 hx with hx | ⟨rfl, rfl⟩
  · rcases h.mem_merged.1 hc with ⟨_, _, hc⟩ | rfl
    · exact h.roots c hc k x hx hxc
    · have hk := (List.getElem?_eq_some_iff.1 hx).1
      obtain ⟨hl, hr, _⟩ := h.children k x hx hxc.1
      rcases hxc.2 with e | e <;> omega
  · rcases (h.hasChild_merged hm ha hb).1 hxc with rfl | rfl
    all_goals rcases h.mem_merged.1 hc with ⟨_, _, _⟩ | e <;> omega

/-- Every other node has exactly one parent: the merged roots the new node, the others the one they had. -/
theorem Forest.owned_merged (h : Forest m nodes pq) (hm : m ≤ 256) (ha : a ∈ pq) (hb : b ∈ pq) {f : Word} {c : Nat}
    (hc : c < nodes.length + 1) (hnot : c ∉ (pq.erase a).erase b ++ [nodes.length]) :
    ∃ (k : Nat) (x : Node), (nodes ++ [Node.ofChildren f a b])[k]? = some x ∧ x.hasChild c ∧
      ∀ (j : Nat) (y : Node), (nodes ++ [Node.ofChildren f a b])[j]? = some y → y.hasChild c → j = k := by
  rw [h.mem_merged] at hnot
  by_cases hnew : c = a ∨ c = b
  · have hcq : c ∈ pq := by rcases hnew with rfl | rfl <;> assumption
    refine ⟨nodes.length, _, getElem?_concat_eq_some.2 (.inr ⟨rfl, rfl⟩), (h.hasChild_merged hm ha hb).2 hnew,
      fun j y hy hyc => ?_⟩
    rcases getElem?_concat_eq_some.1 hy with hy | ⟨rfl, _⟩
    · exact absurd hyc (h.roots c hcq j y hy)
    · rfl
  · have hold : c ∉ pq := fun hq => hnot (.inl ⟨fun e => hnew (.inr e), fun e => hnew (.inl e), hq⟩)
    obtain ⟨k, x, hx, hxc, honly⟩ := h.owned c (by omega) hold
    refine ⟨k, x, getElem?_concat_eq_some.2 (.inl hx), hxc, fun j y hy hyc => ?_⟩
    rcases getElem?_concat_eq_some.1 hy with hy | ⟨rfl, rfl⟩
    · exact honly j y hy hyc
    · exact absurd ((h.hasChild_merged hm ha hb).1 hyc) hnew

/-- Merging two roots makes them the children of a new root. -/
theorem Forest.merge (h : Forest m nodes pq) (hm : m ≤ 256) (f : Word) (ha : a ∈ pq) (hb : b ∈ pq.erase a) :
    Forest m (nodes ++ [Node.ofChildren f a b]) ((pq.erase a).erase b ++ [nodes.length]) := by
  obtain ⟨hba, hbq⟩ := h.nodup.mem_erase_iff.1 hb
  have hlt := h.length_lt hm ha
  have hla := h.inUse a ha
  have hlb := h.inUse b hbq
  have hlen : (nodes ++ [Node.ofChildren f a b]).length = nodes.length + 1 := by simp
  refine
    { size := ?_, nodup := ?_, inUse := fun k hk => ?_, last := fun _ => ?_, children := fun k x hx hi => ?_,
      roots := fun c hc k x hx => h.roots_merged hm ha hbq hc hx,
      owned := fun c hc hnot => h.owned_merged hm ha hbq (hlen ▸ hc) hnot, symbols := fun j k x y hx hy hxl hyl hs => ?_ }
  · have hsize := h.size
    have hl1 := List.length_erase_of_mem ha
    have hl2 := List.length_erase_of_mem hb
    have hpos := List.length_pos_of_mem hb
    rw [hlen, List.length_append, List.length_singleton]
    omega
  · refine List.nodup_append'.2 ⟨(h.nodup.erase a).erase b, List.nodup_singleton _, List.disjoint_singleton.2 fun hc => ?_⟩
    exact absurd (h.inUse _ (List.mem_of_mem_erase (List.mem_of_mem_erase hc))) (lt_irrefl _)
  · rw [hlen]
    rcases h.mem_merged.1 hk with ⟨_, _, hk⟩ | rfl
    · have := h.inUse k hk
      omega
    · omega
  · rw [hlen, h.mem_merged]
    exact .inr rfl
  · rcases getElem?_concat_eq_some.1 hx with hx | ⟨rfl, rfl⟩
    · exact h.children k x hx hi
    · have hla' : a % 2 ^ 9 = a := Nat.mod_eq_of_lt (by omega)
      have hlb' : b % 2 ^ 9 = b := Nat.mod_eq_of_lt (by omega)
      simp only [Node.ofChildren, ne_eq, ← BitVec.toNat_inj, BitVec.toNat_ofNat, hla', hlb']
      exact ⟨hla, hlb, Ne.symm hba⟩
  · rcases getElem?_concat_eq_some.1 hx with hx | ⟨_, rfl⟩
    · rcases getElem?_concat_eq_some.1 hy with hy | ⟨_, rfl⟩
      · exact h.symbols j k x y hx hy hxl hyl hs
      · cases hyl
    · cases hxl

end Merge

/-- The merge loop keeps the forest, and with fuel for every root but one it leaves at most one (R133). -/
theorem mergeLoop_forest {m : Nat} (hm : m ≤ 256) {fuel : Nat} {nodes : List Node} {pq : List Nat} (h : Forest m nodes pq)
    (hf : pq.length ≤ fuel + 1) :
    Forest m (mergeLoop fuel nodes pq).1 (mergeLoop fuel nodes pq).2 ∧ (mergeLoop fuel nodes pq).2.length ≤ 1 := by
  induction fuel generalizing nodes pq with
  | zero => exact ⟨h, hf⟩
  | succ fuel ih =>
    unfold mergeLoop
    rcases extractMin_cases nodes pq with ⟨rfl, he⟩ | ⟨a, ha, he⟩ <;> rw [he] <;> dsimp only
    · exact ⟨h, by simp⟩
    · have hl1 := List.length_erase_of_mem ha
      rcases extractMin_cases nodes (pq.erase a) with ⟨hnil, he'⟩ | ⟨b, hb, he'⟩ <;> rw [he'] <;> dsimp only
      · rw [hnil, List.length_nil] at hl1
        exact ⟨h, by omega⟩
      · have hl2 := List.length_erase_of_mem hb
        refine ih (h.merge hm _ ha hb) ?_
        simp only [List.length_append, List.length_singleton, hl2, hl1]
        omega

/-! ### The tree in the node store -/

/-- A node that was built stands in the store. -/
theorem at_storeNodes (N : NodeStore) {nodes : List Node} {k : Nat} {x : Node} (hk : k < 511) (hx : nodes[k]? = some x) :
    (storeNodes N nodes).at (BitVec.ofNat 9 k) = x := by
  have e : k % 2 ^ 9 = k := Nat.mod_eq_of_lt (by omega)
  simp only [NodeStore.at, BitVec.toNat_ofNat, e, dif_pos hk, storeNodes, getElem_tabulate, hx, Option.getD_some]

/-- A forest of at most one root is a tree, once stored. -/
theorem Forest.treeOk {m : Nat} {nodes : List Node} {pq : List Nat} (h : Forest m nodes pq) (hm : m ≤ 256)
    (hpq : pq.length ≤ 1) (N : NodeStore) : TreeOk (storeNodes N nodes) nodes.length (treeRoot nodes pq) := by
  have hsize := h.size
  by_cases hn : nodes.length = 0
  · have hnil : pq = [] := List.eq_nil_iff_forall_not_mem.2 fun k hk => absurd (h.inUse k hk) (by omega)
    subst hnil
    rw [hn]
    exact TreeOk.noNodes _
  · have hlast := h.last (by omega)
    obtain ⟨r, rfl⟩ := List.length_eq_one_iff.1 (le_antisymm hpq (List.length_pos_of_mem hlast))
    obtain rfl := List.mem_singleton.1 hlast
    simp only [List.length_singleton] at hsize
    have hroot : (treeRoot nodes [nodes.length - 1]).toNat = nodes.length - 1 := by
      simp only [treeRoot, extractMin, pqMin, List.foldl_nil, BitVec.toNat_ofNat]
      omega
    have hat : ∀ k < nodes.length, ∃ x, nodes[k]? = some x ∧ (storeNodes N nodes).at (BitVec.ofNat 9 k) = x :=
      fun k hk => ⟨_, List.getElem?_eq_getElem hk, at_storeNodes N (by omega) (List.getElem?_eq_getElem hk)⟩
    have hchild : ∀ {k c x}, nodes[k]? = some x → (isChild (storeNodes N nodes) k c ↔ x.hasChild c) := fun {k c x} hx => by
      have hk := (List.getElem?_eq_some_iff.1 hx).1
      rw [isChild, at_storeNodes N (by omega) hx]
      exact and_iff_right (by omega)
    refine ⟨by omega, fun hc => absurd hc hn, fun _ => hroot, fun k hk => ?_, fun c hc => ?_, fun j hj k hk => ?_⟩
    · obtain ⟨x, hx, e⟩ := hat k hk
      rw [e]
      exact h.children k x hx
    · obtain ⟨k, x, hx, hxc, honly⟩ := h.owned c (by omega) (by rw [List.mem_singleton]; omega)
      refine ⟨k, (List.getElem?_eq_some_iff.1 hx).1, (hchild hx).2 hxc, fun j hj hjc => ?_⟩
      obtain ⟨y, hy, _⟩ := hat j hj
      exact honly j y hy ((hchild hy).1 hjc)
    · obtain ⟨x, hx, ex⟩ := hat j hj
      obtain ⟨y, hy, ey⟩ := hat k hk
      rw [ex, ey]
      exact h.symbols j k x y hx hy

/-- TBUILD makes a tree, from any counters and any node store (R133, R134). -/
theorem buildTree_treeOk (F : FreqTable) (N : NodeStore) :
    TreeOk (storeNodes N (buildTree F).1) (buildTree F).1.length (buildTree F).2 := by
  obtain ⟨hforest, hone⟩ := mergeLoop_forest (treeLeaves_length_le F) (fuel := (treeLeaves F).length) (Forest.leaves F) (by simp)
  exact hforest.treeOk (treeLeaves_length_le F) hone N

end Sys2Proof.Machine
end

section
/-! PROOFS. What a step leaves, once (R250, R253, R270): the body of each command that completes, the frame of an instruction
that does not fail (R41), the host's moves by what they change, and the steps of a machine whose decoder holds no record. -/

namespace Sys2Proof.Machine

/-! ### Commands that complete -/

/-- An instruction that does not end in ERROR ran its body. -/
theorem exec_completes {i : Instr} {s t : State} (hi : i ≠ .clr) (h : exec i s = .next t) (ht : t.status ≠ .error) :
    ∃ u, BodyFrame i s u ∧ t = if isCommand i then u.complete else u := by
  rcases exec_cases i s hi with ⟨u, hu, he⟩ | ⟨e, _, he⟩ <;> rw [h] at he <;> cases he
  · exact ⟨u, hu, rfl⟩
  · exact absurd rfl ht

theorem finish_completes {s t : State} {w : Writes} {body : Except ErrorCause State} (h : s.finish w body = .next t)
    (ht : t.status ≠ .error) : ∃ u, body = .ok u ∧ t = u.complete := by
  cases body with
  | ok u =>
    cases h
    exact ⟨u, rfl, rfl⟩
  | error e =>
    cases h
    exact absurd rfl ht

section Completes

variable {s t : State} (ht : t.status ≠ .error)
include ht

theorem freq_completes (h : exec .freq s = .next t) : ∃ D, t = (freqBody D s).complete := by
  obtain ⟨u, hu, rfl⟩ := finish_completes h ht
  obtain ⟨D, _, hu⟩ := except_bind_ok hu
  cases hu
  exact ⟨D, rfl⟩

theorem tbuild_completes (h : exec .tbuild s = .next t) : t = (tbuildBody s).complete := by
  obtain ⟨u, hu, rfl⟩ := finish_completes h ht
  cases hu
  rfl

theorem derive_completes (h : exec .derive s = .next t) :
    ∃ T n, deriveTable s.node s.root s.freq.anyPresent = .ok (T, n) ∧ t = (s.setCodeTable T n).complete := by
  obtain ⟨u, hu, rfl⟩ := finish_completes h ht
  obtain ⟨T, n, hd, rfl⟩ := deriveBody_ok hu
  exact ⟨T, n, hd, rfl⟩

theorem tser_completes (h : exec .tser s = .next t) :
    2 + 4 * s.nsym.toNat ≤ s.obufBytes ∧ t = (s.setOutput (serTable s.ct)).complete := by
  obtain ⟨u, hu, rfl⟩ := finish_completes h ht
  split at hu
  · cases hu
  · cases hu
    exact ⟨by omega, rfl⟩

theorem tdes_completes (h : exec .tdes s = .next t) : ∃ B T n, parseTable B 0 = .ok (T, n) ∧
    t = { s.setCodeTable T n with consumed := BitVec.ofNat 32 (2 + 4 * n) }.complete := by
  obtain ⟨u, hu, rfl⟩ := finish_completes h ht
  obtain ⟨B, _, hu⟩ := except_bind_ok hu
  obtain ⟨⟨T, n⟩, hp, hu⟩ := except_bind_ok hu
  cases hu
  exact ⟨B, T, n, hp, rfl⟩

theorem hpack_completes (h : exec .hpack s = .next t) : ∃ D a out out' pad,
    packLoop s.obufBytes s.ct D ⟨0, 0⟩ [] = .ok (a, out) ∧ packTail s.obufBytes a out = .ok (out', pad) ∧
    t = { s.setOutput out' with acc := ⟨0, 0⟩, pad := pad }.complete := by
  obtain ⟨u, hu, rfl⟩ := finish_completes h ht
  obtain ⟨D, _, hu⟩ := except_bind_ok hu
  obtain ⟨⟨a, out⟩, hl, hu⟩ := except_bind_ok hu
  obtain ⟨⟨out', pad⟩, htail, hu⟩ := except_bind_ok hu
  cases hu
  exact ⟨D, a, out, out', pad, hl, htail, rfl⟩

theorem hwalk_completes (h : exec .hwalk s = .next t) : ∃ P w out,
    walkLoop s.obufBytes s.ct (payloadBits P s.pad.toNat) ⟨0, 0⟩ [] = .ok (w, out) ∧
    t = { s.setOutput out with walk := w }.complete := by
  obtain ⟨u, hu, rfl⟩ := finish_completes h ht
  obtain ⟨P, _, hu⟩ := except_bind_ok hu
  split at hu
  · cases hu
  · obtain ⟨⟨w, out⟩, hl, hu⟩ := except_bind_ok hu
    dsimp only at hu
    split at hu
    · cases hu
      exact ⟨P, w, out, hl, rfl⟩
    · cases hu

theorem hcomp_completes (h : exec .hcomp s = .next t) : ∃ D T n,
    let u := tbuildBody (freqBody D s)
    let block := huffBlock T (BitVec.ofNat 9 n).toNat D
    deriveTable u.node u.root u.freq.anyPresent = .ok (T, n) ∧ block.length ≤ s.obufBytes ∧
    t = { (u.setCodeTable T n).setOutput block with acc := ⟨0, 0⟩, pad := (byteAt block 0).setWidth 3 }.complete := by
  obtain ⟨u, hu, rfl⟩ := finish_completes h ht
  obtain ⟨D, _, hu⟩ := except_bind_ok hu
  obtain ⟨v, hv, hu⟩ := except_bind_ok hu
  obtain ⟨T, n, hd, rfl⟩ := deriveBody_ok hv
  dsimp only at hu
  split at hu
  · cases hu
  · rename_i hfits
    cases hu
    exact ⟨D, T, n, hd, Nat.le_of_not_lt hfits, rfl⟩

theorem hdecomp_completes (h : exec .hdecomp s = .next t) : ∃ B T n out,
    huffUnblock s.obufBytes s.draws B = .ok (T, n, out) ∧
    t = { (s.setCodeTable T n).setOutput out with
          walk := ⟨0, 0⟩, pad := (byteAt B 0).setWidth 3, consumed := BitVec.ofNat 32 (3 + 4 * n) }.complete := by
  obtain ⟨u, hu, rfl⟩ := finish_completes h ht
  obtain ⟨B, _, hu⟩ := except_bind_ok hu
  obtain ⟨⟨T, n, out⟩, hb, hu⟩ := except_bind_ok hu
  cases hu
  exact ⟨B, T, n, out, hb, rfl⟩

theorem lzreplay_completes (h : exec .lzreplay s = .next t) :
    ∃ out, lzApply s.obufBytes s.output s.token = .ok out ∧ t = (s.setOutput out).complete := by
  obtain ⟨u, hu, rfl⟩ := finish_completes h ht
  obtain ⟨out, ho, hu⟩ := except_bind_ok hu
  cases hu
  exact ⟨out, ho, rfl⟩

theorem lzcomp_completes (h : exec .lzcomp s = .next t) : ∃ D out,
    let ts := lzTokens D s.windowSize.toNat
    emitAll s.obufBytes [] (ts.flatMap Token.ser) = .ok out ∧
    t = { (s.setToken (lastToken s.token ts)).setOutput out with lzPos := s.inLen }.complete := by
  obtain ⟨u, hu, rfl⟩ := finish_completes h ht
  obtain ⟨D, _, hu⟩ := except_bind_ok hu
  obtain ⟨out, ho, hu⟩ := except_bind_ok hu
  cases hu
  exact ⟨D, out, ho, rfl⟩

theorem lzdecomp_completes (h : exec .lzdecomp s = .next t) : ∃ B n tok out,
    replayRecords s.obufBytes B n 0 s.token [] = .ok (tok, out) ∧ t = ((s.setToken tok).setOutput out).complete := by
  obtain ⟨u, hu, rfl⟩ := finish_completes h ht
  obtain ⟨B, _, hu⟩ := except_bind_ok hu
  split at hu
  · cases hu
  · obtain ⟨⟨tok, out⟩, hr, hu⟩ := except_bind_ok hu
    cases hu
    exact ⟨B, _, tok, out, hr, rfl⟩

end Completes

/-- Everything a block that HDECOMP accepts gives (R189): the table it starts with, and the output of an empty table, of one
symbol repeated, or of the walk over the payload. -/
theorem huffUnblock_ok {cap draw : Nat} {B out : List Byte} {T : CodeTable} {n : Nat}
    (h : huffUnblock cap draw B = .ok (T, n, out)) : parseTable B 1 = .ok (T, n) ∧
      ((n = 0 ∧ out = []) ∨
        (n = 1 ∧ repeatSymbol cap (soleSymbol T draw) (readBe32 B (3 + 4 * n)) = .ok out) ∨
        walk cap T (payloadBits (B.drop (3 + 4 * n)) (byteAt B 0).toNat) [] [] = .ok out) := by
  unfold huffUnblock at h
  split at h
  · cases h
  · split at h
    · cases h
    · obtain ⟨⟨U, k⟩, hp, h⟩ := except_bind_ok h
      dsimp only at h
      split at h
      · cases h
        exact ⟨hp, .inl ⟨by assumption, rfl⟩⟩
      · split at h
        · split at h
          · cases h
          · obtain ⟨_, ho, h⟩ := except_bind_ok h
            cases h
            exact ⟨hp, .inr (.inl ⟨by assumption, ho⟩)⟩
        · split at h
          · cases h
          · obtain ⟨_, ho, h⟩ := except_bind_ok h
            cases h
            exact ⟨hp, .inr (.inr ho)⟩

/-! ### The frame of an instruction that does not fail (R41) -/

/-- Completing changes only ERR and STATE (R253). -/
theorem BodyFrame.keeps_complete {i : Instr} {s u : State} (h : BodyFrame i s u) :
    KeepsUnlisted (listedWrites i) s (if isCommand i then u.complete else u) := by
  cases isCommand i
  · exact h.keeps
  · obtain ⟨h1, h2, h3, h4, h5, h6, h7, h8, h9, h10, h11, h12, h13⟩ := h.keeps
    exact ⟨h1, h2, h3, h4, h5, h6, h7, h8, h9, h10, h11, h12, h13⟩

/-- An instruction that does not fail keeps every destination its rule does not list (R41). -/
theorem exec_keepsUnlisted {i : Instr} {s t : State} (hi : i ≠ .clr) (h : exec i s = .next t) (ht : t.status ≠ .error) :
    KeepsUnlisted (listedWrites i) s t := by
  obtain ⟨u, hu, rfl⟩ := exec_completes hi h ht
  exact hu.keeps_complete

/-- What the frame says of a command: it ends in DONE with ERR 0, and PQ, ACC and WALK are kept or cleared. -/
theorem command_completes {i : Instr} {s t : State} (hi : i ≠ .clr) (hc : isCommand i = true) (h : exec i s = .next t)
    (ht : t.status ≠ .error) : ∃ u, BodyFrame i s u ∧ t = u.complete := by
  simpa [hc] using exec_completes hi h ht

/-! ### The host's moves by what they change -/

/-- What a move of the host changes: the queue and what was read; CMD and STATE when a word is accepted (R23); a read-write
register (R21); a byte of IBUF (R38); or everything, to the values of reset (R300). -/
inductive HostEffect (s t : State) : Prop
  | quiet (q : List HostMove) (r : Option ReadValue) (d : Nat) (h : t = { s with host := q, lastRead := r, draws := d })
  | issued (q : List HostMove) (v : Word) (hs : s.status ≠ .busy) (he : s.status = .error → v = clrWord)
      (h : t = { s with host := q, cmd := v, status := .busy })
  | stored (q : List HostMove) (a w z o l : Word) (x : Byte) (f : Bool) (p : BitVec 3)
      (hs : s.status = .idle ∨ s.status = .done)
      (h : t = { s with host := q, inLen := a, windowSize := w, lzPos := z, tokOffset := o, tokLength := l, tokLit := x,
                        tokLitv := f, pad := p })
  | byteWritten (q : List HostMove) (a : Nat) (b : Byte) (hs : s.status = .idle ∨ s.status = .done) (ha : a < s.ibufBytes)
      (h : t = { s with host := q, ibuf := Memory.write s.ibuf a b })
  | reset (q : List HostMove) (h : t = { s.resetMove with host := q })

/-- A write of a read-write register changes the eight of them only (R21). -/
theorem State.writeRw_eq (s : State) (n : Nat) (v : Word) : s.writeRw n v =
    { s with inLen := (s.writeRw n v).inLen, windowSize := (s.writeRw n v).windowSize, lzPos := (s.writeRw n v).lzPos,
             tokOffset := (s.writeRw n v).tokOffset, tokLength := (s.writeRw n v).tokLength,
             tokLit := (s.writeRw n v).tokLit, tokLitv := (s.writeRw n v).tokLitv, pad := (s.writeRw n v).pad } := by
  unfold State.writeRw
  split <;> rfl

theorem hostWriteIbuf_cases {a : Nat} {b : Byte} {s t : State} (h : hostWriteIbuf a b s = .next t) :
    a < s.ibufBytes ∧
      (t = s ∨ (s.status = .idle ∨ s.status = .done) ∧ t = { s with ibuf := Memory.write s.ibuf a b }) := by
  unfold hostWriteIbuf at h
  split at h
  · refine ⟨by assumption, ?_⟩
    cases hs : s.status <;> simp only [hs] at h <;> cases h
    · exact .inr ⟨.inl rfl, rfl⟩
    · exact .inl rfl
    · exact .inr ⟨.inr rfl, rfl⟩
    · exact .inl rfl
  · cases h

/-- Everything a move of the host can do. -/
theorem hostMove_effect {m : HostMove} {q : List HostMove} {s t : State} (h : hostMove m { s with host := q } = .next t) :
    HostEffect s t := by
  have read : ∀ k, m ∈ [HostMove.readReg k, .readObuf k, .readFreq k, .readNode k, .readCt k, .wait] → HostEffect s t :=
    fun k hm => .quiet q t.lastRead t.draws (hostMove_read hm h).1
  cases m with
  | writeReg n v =>
    rcases hostWriteReg_cases h with rfl | ⟨rfl, _, hb, he⟩ | ⟨rfl, _, hs⟩
    · exact .quiet q s.lastRead s.draws rfl
    · exact .issued q v hb he rfl
    · exact .stored q _ _ _ _ _ _ _ _ hs (State.writeRw_eq _ n v)
  | writeIbuf a b =>
    obtain ⟨ha, rfl | ⟨hs, rfl⟩⟩ := hostWriteIbuf_cases h
    · exact .quiet q s.lastRead s.draws rfl
    · exact .byteWritten q a b hs ha rfl
  | reset =>
    cases h
    exact .reset q rfl
  | readReg k => exact read k (by simp)
  | readObuf k => exact read k (by simp)
  | readFreq k => exact read k (by simp)
  | readNode k => exact read k (by simp)
  | readCt k => exact read k (by simp)
  | wait => exact read 0 (by simp)

/-- Everything a step that answers a next state can do: an instruction runs, a word is rejected, or the host moves. -/
theorem step_next {s t : State} (h : step s = .next t) :
    (∃ i, s.status = .busy ∧ decode s.fetched = .ok i ∧ exec i s.consume = .next t) ∨
    (∃ r, s.status = .busy ∧ decode s.fetched = .error r ∧ t = s.consume.fail (rejectWrites r) (rejectCause r)) ∨
    HostEffect s t := by
  rcases step_cases s with ⟨i, hb, hd, he⟩ | ⟨r, hb, hd, he⟩ | ⟨m, q, _, _, he⟩ | ⟨_, _, he⟩ <;> rw [he] at h
  · exact .inl ⟨i, hb, hd, h⟩
  · cases h
    exact .inr (.inl ⟨r, hb, hd, rfl⟩)
  · exact .inr (.inr (hostMove_effect h))
  · cases h
    exact .inr (.inr (.quiet s.host s.lastRead s.draws rfl))

/-! ### Steps of a machine whose decoder holds no record -/

/-- A command word decodes to a command, and the CLR word to CLR (R86). -/
theorem decodeCommand_isCommand {w : Word} {i : Instr} (h : decodeCommand w = .ok i) :
    isCommand i = true ∧ (i ≠ .clr → w ≠ clrWord) := by
  constructor
  · unfold decodeCommand at h
    split at h
    · cases h
    · split at h
      · rename_i row hrow
        cases h
        have hall : ∀ row ∈ commandTable, isCommand row.2 = true := by decide
        exact hall row (List.mem_of_find?_eq_some hrow)
      · cases h
  · rintro hi rfl
    rw [show decodeCommand clrWord = .ok .clr by decide] at h
    cases h
    exact hi rfl

/-- A step of a machine whose units are clear (R250): a command but CLR runs, with the tables live; CLR runs; a word is rejected;
or the host moves. -/
inductive CommandStep (s t : State) : Prop
  | ran (i : Instr) (hi : i ≠ .clr) (hc : isCommand i = true) (hl : s.tablesLive) (h : exec i s = .next t)
  | cleared (h : t = s.clear)
  | rejected (w : Writes) (e : ErrorCause) (h : t = s.fail w e)
  | host (h : HostEffect s t)

theorem State.UnitsClear.step {s t : State} (hu : s.UnitsClear) (h : step s = .next t) : CommandStep s t := by
  have hcons : s.consume = s := by rw [State.consume, ← hu.record]
  have hf : s.fetched = .command s.cmd := by rw [State.fetched, hu.record]
  rcases step_next h with ⟨i, hb, hd, he⟩ | ⟨r, _, _, rfl⟩ | he
  · rw [hf] at hd
    rw [hcons] at he
    obtain ⟨hc, hne⟩ := decodeCommand_isCommand hd
    by_cases hi : i = .clr
    · subst hi
      cases he
      exact .cleared rfl
    · exact .ran i hi hc (.inr (.inr ⟨hb, hne hi⟩)) he
  · rw [hcons]
    exact .rejected _ _ rfl
  · exact .host he

end Sys2Proof.Machine
end

section
/-! PROOFS. The code table and the tree along the steps (R33, R35): StepKeepsCodeTablePrefixFree and StepKeepsTreeShape. -/

namespace Sys2Proof.Machine

/-! ### Where the tables are live -/

theorem State.not_tablesLive_of_error {s : State} (h : s.status = .error) : ¬ s.tablesLive := by
  simp [State.tablesLive, h]

/-- A state in which the tables are live is not in ERROR. -/
theorem State.tablesLive.ne_error {s : State} (h : s.tablesLive) : s.status ≠ .error :=
  fun he => State.not_tablesLive_of_error he h

/-- A word the host may write leaves the tables live only where they were: in ERROR it is the CLR word (R23). -/
theorem tablesLive_of_issued {s : State} {q : List HostMove} {v : Word} (hs : s.status ≠ .busy)
    (he : s.status = .error → v = clrWord) (h : State.tablesLive { s with host := q, cmd := v, status := .busy }) :
    s.tablesLive := by
  have hv : v ≠ clrWord := by simpa [State.tablesLive] using h
  cases hst : s.status
  · exact .inl hst
  · exact absurd hst hs
  · exact .inr (.inl hst)
  · exact absurd (he hst) hv

/-- What a step into a state with live tables does to them: a command ran and did not fail, the tables are as before, or they hold
their values of reset. -/
inductive TablesStep (s t : State) : Prop
  | ran (i : Instr) (hi : i ≠ .clr) (hc : isCommand i = true) (hl : s.tablesLive) (ht : t.status ≠ .error)
      (h : exec i s = .next t)
  | kept (hl : s.tablesLive) (hct : t.ct = s.ct) (hn : t.nsym = s.nsym) (hnode : t.node = s.node)
      (hnn : t.nnodes = s.nnodes) (hroot : t.root = s.root)
  | reset (hct : t.ct = CodeTable.empty) (hn : t.nsym = 0) (hnn : t.nnodes = 0) (hroot : t.root = Config.nodeNull)

theorem HostEffect.tables {s t : State} (he : HostEffect s t) (hlt : t.tablesLive) : TablesStep s t := by
  cases he with
  | quiet _ _ _ ht =>
    subst ht
    exact .kept hlt rfl rfl rfl rfl rfl
  | issued _ _ hs hv ht =>
    subst ht
    exact .kept (tablesLive_of_issued hs hv hlt) rfl rfl rfl rfl rfl
  | stored _ _ _ _ _ _ _ _ _ _ ht =>
    subst ht
    exact .kept hlt rfl rfl rfl rfl rfl
  | byteWritten _ _ _ _ _ ht =>
    subst ht
    exact .kept hlt rfl rfl rfl rfl rfl
  | reset _ ht =>
    subst ht
    exact .reset rfl rfl rfl rfl

/-- A word the decoder rejects ends in ERROR, where no table is live. -/
theorem CommandStep.tables {s t : State} (h : CommandStep s t) (hlt : t.tablesLive) : TablesStep s t := by
  cases h with
  | ran i hi hc hl h => exact .ran i hi hc hl hlt.ne_error h
  | cleared ht =>
    subst ht
    exact .reset rfl rfl rfl rfl
  | rejected w e ht =>
    subst ht
    exact absurd rfl hlt.ne_error
  | host he => exact he.tables hlt

/-! ### The code table -/

/-- Where the code table of a completed command comes from: kept, cleared, derived from the node store that is then in place, or
parsed. -/
inductive TableFrom (s t : State) : Prop
  | kept (hct : t.ct = s.ct) (hn : t.nsym = s.nsym)
  | cleared (hct : t.ct = CodeTable.empty) (hn : t.nsym = 0)
  | derived (present : Bool) (T : CodeTable) (n : Nat) (h : deriveTable t.node t.root present = .ok (T, n)) (hct : t.ct = T)
      (hn : t.nsym = BitVec.ofNat 9 n)
  | parsed (B : List Byte) (p : Nat) (T : CodeTable) (n : Nat) (h : parseTable B p = .ok (T, n)) (hct : t.ct = T)
      (hn : t.nsym = BitVec.ofNat 9 n)

theorem command_tableFrom {i : Instr} {s t : State} (hi : i ≠ .clr) (hc : isCommand i = true) (h : exec i s = .next t)
    (ht : t.status ≠ .error) : TableFrom s t := by
  have hk := exec_keepsUnlisted hi h ht
  cases i with
  | clr => exact absurd rfl hi
  | freq =>
    obtain ⟨D, rfl⟩ := freq_completes ht h
    exact .cleared rfl rfl
  | tbuild =>
    obtain rfl := tbuild_completes ht h
    exact .cleared rfl rfl
  | derive =>
    obtain ⟨T, n, hd, rfl⟩ := derive_completes ht h
    exact .derived _ T n hd rfl rfl
  | tdes =>
    obtain ⟨B, T, n, hp, rfl⟩ := tdes_completes ht h
    exact .parsed B 0 T n hp rfl rfl
  | hcomp =>
    obtain ⟨D, T, n, hd, _, rfl⟩ := hcomp_completes ht h
    exact .derived _ T n hd rfl rfl
  | hdecomp =>
    obtain ⟨B, T, n, out, hb, rfl⟩ := hdecomp_completes ht h
    exact .parsed B 1 T n (huffUnblock_ok hb).1 rfl rfl
  | nop | tser | hpack | hwalk | lzfind | lzreplay | lzcomp | lzdecomp => exact .kept (hk.ct rfl) (hk.nsym rfl)
  | _ => cases hc

/-- A table the machine keeps, clears, derives or parses is good (R35). -/
theorem TableFrom.good {s t : State} (h : TableFrom s t) (hs : s.ct.Good) : t.ct.Good := by
  cases h with
  | kept hct => exact hct ▸ hs
  | cleared hct => exact hct ▸ CodeTable.good_empty
  | derived _ _ _ hd hct => exact hct ▸ deriveTable_good hd
  | parsed _ _ _ _ hp hct => exact hct ▸ (parseTable_good hp).1

/-- Settles O58: a command that completes keeps the table or makes a good one (`TableFrom`), one that fails ends in ERROR, and the
host changes no entry but by reset. -/
theorem stepKeepsCodeTablePrefixFree : Obligations.StepKeepsCodeTablePrefixFree := by
  intro s t hu hgood h hlt
  cases (hu.step h).tables hlt with
  | ran i hi hc hl ht h => exact (command_tableFrom hi hc h ht).good (hgood hl)
  | kept hl hct => exact hct ▸ hgood hl
  | reset hct => exact hct ▸ CodeTable.good_empty

/-! ### The tree -/

/-- The tree that TBUILD leaves (R134). -/
theorem tbuildBody_treeOk (s : State) :
    TreeOk (tbuildBody s).node (tbuildBody s).nnodes.toNat (tbuildBody s).root := by
  have h := buildTree_treeOk s.freq s.node
  have hlen : (tbuildBody s).nnodes.toNat = (buildTree s.freq).1.length := by
    have := h.small
    simp only [tbuildBody, BitVec.toNat_ofNat]
    omega
  rw [hlen]
  exact h

theorem command_keeps_tree {i : Instr} {s t : State} (hi : i ≠ .clr) (hc : isCommand i = true) (h : exec i s = .next t)
    (ht : t.status ≠ .error) (hs : TreeOk s.node s.nnodes.toNat s.root) : TreeOk t.node t.nnodes.toNat t.root := by
  have hk := exec_keepsUnlisted hi h ht
  cases i with
  | clr => exact absurd rfl hi
  | freq =>
    obtain ⟨D, rfl⟩ := freq_completes ht h
    exact TreeOk.noNodes _
  | tbuild =>
    obtain rfl := tbuild_completes ht h
    exact tbuildBody_treeOk s
  | hcomp =>
    obtain ⟨D, T, n, _, _, rfl⟩ := hcomp_completes ht h
    exact tbuildBody_treeOk (freqBody D s)
  | nop | derive | tser | tdes | hpack | hwalk | hdecomp | lzfind | lzreplay | lzcomp | lzdecomp =>
    rw [hk.node rfl, hk.nnodes rfl, hk.root rfl]
    exact hs
  | _ => cases hc

/-- Settles O59: FREQ and CLR leave no node, TBUILD and HCOMP build a tree (`buildTree_treeOk`), every other command keeps the
nodes, and the host changes them by reset only. -/
theorem stepKeepsTreeShape : Obligations.StepKeepsTreeShape := by
  intro s t hu htree h hlt
  cases (hu.step h).tables hlt with
  | ran i hi hc hl ht h => exact command_keeps_tree hi hc h ht (htree hl)
  | kept hl _ _ hnode hnn hroot =>
    rw [hnode, hnn, hroot]
    exact htree hl
  | reset _ _ hnn hroot =>
    rw [hnn, hroot]
    exact TreeOk.noNodes _

end Sys2Proof.Machine
end

section
/-! PROOFS. IBUF and the input side (R26, R38, R61, R270). -/

namespace Sys2Proof.Machine

/-! ### An instruction reads IBUF only through `input` (R61) -/

/-- The state with another IBUF. -/
def State.withIbuf (s : State) (m : Memory) : State := { s with ibuf := m }

section OtherIbuf

variable {s t : State} {m : Memory}

theorem finish_withIbuf {w : Writes} {body body' : Except ErrorCause State} (h : s.finish w body = .next t)
    (hb : body' = (fun u => u.withIbuf m) <$> body) : (s.withIbuf m).finish w body' = .next (t.withIbuf m) := by
  subst hb
  cases body <;> cases h <;> rfl

theorem finishRecord_withIbuf {w : Writes} {body body' : Except ErrorCause State} (h : s.finishRecord w body = .next t)
    (hb : body' = (fun u => u.withIbuf m) <$> body) : (s.withIbuf m).finishRecord w body' = .next (t.withIbuf m) := by
  subst hb
  cases body <;> cases h <;> rfl

theorem deriveBody_withIbuf (s : State) (m : Memory) :
    deriveBody (s.withIbuf m) = (fun u => u.withIbuf m) <$> deriveBody s := by
  unfold deriveBody
  rw [map_bind]
  rfl

theorem replayToken_withIbuf {k : Token} (h : replayToken k s = .next t) :
    replayToken k (s.withIbuf m) = .next (t.withIbuf m) := by
  refine finishRecord_withIbuf h ?_
  rw [map_bind]
  rfl

/-- With another IBUF that gives the same input an instruction does the same. -/
theorem exec_withIbuf {i : Instr} (hin : (s.withIbuf m).input = s.input) (h : exec i s = .next t) :
    exec i (s.withIbuf m) = .next (t.withIbuf m) := by
  have hreq : (s.withIbuf m).requireInput = s.requireInput := by
    unfold State.requireInput
    rw [hin]
    rfl
  cases i with
  | nop | clr =>
    cases h
    rfl
  | tbuild => exact finish_withIbuf h rfl
  | derive => exact finish_withIbuf h (deriveBody_withIbuf s m)
  | tser =>
    refine finish_withIbuf h ?_
    rw [apply_ite (Functor.map _)]
    rfl
  | hcomp =>
    have hderive : ∀ D, deriveBody (tbuildBody (freqBody D (s.withIbuf m))) =
        (fun u => u.withIbuf m) <$> deriveBody (tbuildBody (freqBody D s)) :=
      fun D => deriveBody_withIbuf (tbuildBody (freqBody D s)) m
    refine finish_withIbuf h ?_
    simp only [map_bind, apply_ite (Functor.map _), hreq, hderive, bind_map_left]
    rfl
  | freq | tdes | hpack | hwalk | hdecomp | lzfind | lzreplay | lzcomp | lzdecomp =>
    refine finish_withIbuf h ?_
    simp only [map_bind, apply_ite (Functor.map _), hreq]
    rfl
  | hblockHeader padding count =>
    refine finishRecord_withIbuf h ?_
    cases headerError padding count <;> rfl
  | hblockEntry sym len bits =>
    refine finishRecord_withIbuf h ?_
    rw [map_bind]
    rfl
  | hblockCount n =>
    refine finishRecord_withIbuf h ?_
    rw [map_bind]
    rfl
  | tokenLit | tokenMatch | tokenMatchend | tokenNull | tokenInvalidLenNoOffset | tokenInvalidZeroLength =>
    exact replayToken_withIbuf h

end OtherIbuf

/-- A byte at or above IN_LEN is no part of the input (R26). -/
theorem input_write_beyond (s : State) {a : Nat} (b : Byte) (ha : s.inLen.toNat ≤ a) :
    (s.withIbuf (Memory.write s.ibuf a b)).input = s.input := by
  refine List.map_congr_left fun k hk => ?_
  have hk : k < s.inLen.toNat := List.mem_range.1 hk
  have hne : k ≠ a := by omega
  simp only [State.ibufAt, State.withIbuf, Memory.lookup_write_ne s.ibuf b hne]

/-- Settles O19: an instruction reads IBUF through the input only (`exec_withIbuf`), and the byte is no part of it. -/
theorem inputBeyondLengthNeverMatters : Obligations.InputBeyondLengthNeverMatters :=
  fun _ s _ _ b ha h => exec_withIbuf (input_write_beyond s b ha) h

/-! ### No instruction changes the input side -/

/-- Settles O15: a body keeps the input side (`BodyFrame`), completing and taking an error touch none of it, and CLR keeps it. -/
theorem instructionsKeepInputSide : Obligations.InstructionsKeepInputSide := by
  intro i s t h
  by_cases hi : i = .clr
  · subst hi
    cases h
    exact ⟨rfl, rfl, rfl, fun _ => rfl, rfl, rfl, rfl⟩
  · rcases exec_cases i s hi with ⟨u, hu, he⟩ | ⟨e, _, he⟩ <;> rw [h] at he <;> cases he
    · obtain ⟨hcmd, hin, hw, hib, hcfg, hhost, hread⟩ := hu.input
      cases isCommand i
      · exact ⟨hcmd, hin, hw, hib, hcfg, hhost, hread⟩
      · exact ⟨hcmd, hin, hw, hib, hcfg, hhost, hread⟩
    · exact s.fail_input _ e

/-- The cells of IBUF stay too, not only the bytes they read as. -/
theorem exec_ibuf {i : Instr} {s t : State} (h : exec i s = .next t) : t.ibuf = s.ibuf := by
  have h' : exec i s = .next (t.withIbuf s.ibuf) := exec_withIbuf (s := s) (m := s.ibuf) rfl h
  rw [h] at h'
  have e : t = t.withIbuf s.ibuf := Host.Outcome.next.inj h'
  exact (congrArg State.ibuf e :)

/-- Settles O56: an instruction keeps the cells (`exec_ibuf`), a host write keeps the form (`Memory.write_wf`), and reset leaves no
cell. -/
theorem stepKeepsIbufCanonical : Obligations.StepKeepsIbufCanonical := by
  intro s t hs h
  have same : t.ibuf = s.ibuf → t.cfg = s.cfg → t.IbufOk := fun hi hc =>
    ⟨hi ▸ hs.rising, by rw [State.ibufBytes, hi, hc]; exact hs.bounded⟩
  rcases step_next h with ⟨i, _, _, he⟩ | ⟨r, _, _, rfl⟩ | he
  · exact same (exec_ibuf (s := s.consume) he) (instructionsKeepInputSide i _ t he).cfg
  · exact same rfl rfl
  · cases he with
    | quiet _ _ _ ht => exact same (ht ▸ rfl) (ht ▸ rfl)
    | issued _ _ _ _ ht => exact same (ht ▸ rfl) (ht ▸ rfl)
    | stored _ _ _ _ _ _ _ _ _ _ ht => exact same (ht ▸ rfl) (ht ▸ rfl)
    | byteWritten q a b _ ha ht =>
      obtain ⟨hrising, hbounded⟩ := hs.write ha b
      subst ht
      exact ⟨hrising, hbounded⟩
    | reset q ht =>
      subst ht
      exact ⟨Memory.wf_nil, fun c hc => absurd hc List.not_mem_nil⟩

end Sys2Proof.Machine
end

section
/-! PROOFS. The frame of an instruction that does not fail (R41), the units between steps (R25, R34, R36, R37), and the whole
invariant: OUT_LEN never passes OBUF_BYTES (R26, R39) and NSYM counts the entries (R31). -/

namespace Sys2Proof.Machine

/-- Settles O16: every instruction that does not fail ran a body with its frame (`exec_completes`), and completing it changes ERR
and STATE only. -/
theorem completedInstructionFrame : Obligations.CompletedInstructionFrame := by
  intro i s t hi hb h ht
  obtain ⟨u, hu, rfl⟩ := exec_completes hi h ht
  refine ⟨hu.keeps_complete, ?_⟩
  have hout : keepsOutput i = true → u.outLen = s.outLen ∧ ∀ a, u.obufAt a = s.obufAt a := fun hk => by
    obtain ⟨hlen, hobuf, hera⟩ := hu.output hk
    exact ⟨hlen, fun a => by rw [State.obufAt, State.obufAt, hobuf, hera]⟩
  cases hc : isCommand i
  · exact ⟨hu.pq, hu.acc, hu.walk, hout, fun _ => ⟨hu.status.trans hb, hu.err⟩⟩
  · exact ⟨hu.pq, hu.acc, hu.walk, hout, fun hf => absurd hf Bool.noConfusion⟩

/-! ### PQ, ACC, WALK and ERR between steps -/

theorem State.clear_unitsClear {s : State} (h : s.UnitsClear) : s.clear.UnitsClear := ⟨rfl, rfl, rfl, h.record⟩

theorem State.fail_unitsClear {s : State} (h : s.UnitsClear) (w : Writes) (e : ErrorCause) : (s.fail w e).UnitsClear :=
  ⟨rfl, rfl, rfl, h.record⟩

theorem State.fail_errOk (s : State) (w : Writes) (e : ErrorCause) : (s.fail w e).ErrOk where
  clean h := by simp at h
  coded _ := ⟨e.code_range.1, e.code_range.2, rfl⟩

/-- A body run with the units clear leaves them clear. -/
theorem BodyFrame.unitsClear {i : Instr} {s u : State} (hu : BodyFrame i s u) (h : s.UnitsClear) : u.UnitsClear where
  pq := hu.pq.elim (·.trans h.pq) id
  acc := hu.acc.elim (·.trans h.acc) id
  walk := hu.walk.elim (·.trans h.walk) id
  record := hu.record.trans h.record

theorem HostEffect.keeps_units {s t : State} (he : HostEffect s t) (hu : s.UnitsClear) (herr : s.ErrOk) :
    t.UnitsClear ∧ t.ErrOk := by
  obtain ⟨hpq, hacc, hwalk, hrec⟩ := hu
  obtain ⟨hclean, hcoded⟩ := herr
  cases he with
  | quiet _ _ _ ht =>
    subst ht
    exact ⟨⟨hpq, hacc, hwalk, hrec⟩, hclean, hcoded⟩
  | issued _ _ _ _ ht =>
    subst ht
    exact ⟨⟨hpq, hacc, hwalk, hrec⟩, fun h => by simp at h, fun h => by cases h⟩
  | stored _ _ _ _ _ _ _ _ _ _ ht =>
    subst ht
    exact ⟨⟨hpq, hacc, hwalk, hrec⟩, hclean, hcoded⟩
  | byteWritten _ _ _ _ _ ht =>
    subst ht
    exact ⟨⟨hpq, hacc, hwalk, hrec⟩, hclean, hcoded⟩
  | reset _ ht =>
    subst ht
    exact ⟨⟨rfl, rfl, rfl, rfl⟩, fun _ => rfl, fun h => by cases h⟩

/-- Settles O57: a command leaves the units as they were or clear and ends with ERR 0 in DONE or with a class from 1 to 6 in ERROR,
and the host's moves keep all of them. -/
theorem stepKeepsUnitsClearAndErrMatching : Obligations.StepKeepsUnitsClearAndErrMatching := by
  intro s t hu herr h
  cases hu.step h with
  | ran i hi hc _ h =>
    rcases exec_cases i s hi with ⟨u, hbody, he⟩ | ⟨e, _, he⟩ <;> rw [h] at he <;> cases he
    · obtain ⟨hpq, hacc, hwalk, hrec⟩ := hbody.unitsClear hu
      rw [hc]
      exact ⟨⟨hpq, hacc, hwalk, hrec⟩, fun _ => rfl, fun h => by cases h⟩
    · exact ⟨State.fail_unitsClear hu _ e, s.fail_errOk _ e⟩
  | cleared ht =>
    subst ht
    exact ⟨State.clear_unitsClear hu, fun _ => rfl, fun h => by cases h⟩
  | rejected w e ht =>
    subst ht
    exact ⟨State.fail_unitsClear hu w e, s.fail_errOk w e⟩
  | host he => exact he.keeps_units hu herr

/-! ### An output never passes the capacity (R276) -/

theorem emit_ok_le {cap : Nat} {out out' : List Byte} {b : Byte} (hl : out.length ≤ cap) (h : emit cap out b = .ok out') :
    out'.length ≤ cap := by
  rcases emit_cases cap out b with ⟨hne, he⟩ | ⟨_, he⟩ <;> rw [he] at h <;> cases h
  rw [List.length_append, List.length_singleton]
  omega

theorem emitAll_ok_le {cap : Nat} {out out' bs : List Byte} (hl : out.length ≤ cap) (h : emitAll cap out bs = .ok out') :
    out'.length ≤ cap := by
  rw [emitAll_eq cap out bs hl] at h
  split at h <;> cases h
  rwa [List.length_append]

theorem accFlush_ok_le {cap fuel : Nat} {a a' : Acc} {out out' : List Byte} (hl : out.length ≤ cap)
    (h : accFlush cap fuel a out = .ok (a', out')) : out'.length ≤ cap := by
  induction fuel generalizing a out with
  | zero =>
    cases h
    exact hl
  | succ fuel ih =>
    unfold accFlush at h
    split at h
    · obtain ⟨o, ho, h⟩ := except_bind_ok h
      exact ih (emit_ok_le hl ho) h
    · cases h
      exact hl

theorem packLoop_ok_le {cap : Nat} {T : CodeTable} {D : List Byte} {a a' : Acc} {out out' : List Byte}
    (hl : out.length ≤ cap) (h : packLoop cap T D a out = .ok (a', out')) : out'.length ≤ cap := by
  induction D generalizing a out with
  | nil =>
    cases h
    exact hl
  | cons b D ih =>
    obtain ⟨⟨a1, o⟩, hp, h⟩ := except_bind_ok h
    unfold packByte at hp
    split at hp
    · exact ih (accFlush_ok_le hl hp) h
    · cases hp

theorem packTail_ok_le {cap : Nat} {a : Acc} {out out' : List Byte} {pad : BitVec 3} (hl : out.length ≤ cap)
    (h : packTail cap a out = .ok (out', pad)) : out'.length ≤ cap := by
  unfold packTail at h
  split at h
  · obtain ⟨o, ho, h⟩ := except_bind_ok h
    cases h
    exact emit_ok_le hl ho
  · cases h
    exact hl

theorem walk_ok_le {cap : Nat} {T : CodeTable} {S path : Bits} {out out' : List Byte} (hl : out.length ≤ cap)
    (h : walk cap T S path out = .ok out') : out'.length ≤ cap := by
  induction S generalizing path out with
  | nil =>
    unfold walk at h
    split at h <;> cases h
    exact hl
  | cons b S ih =>
    unfold walk at h
    split at h
    · obtain ⟨o, ho, h⟩ := except_bind_ok h
      exact ih (emit_ok_le hl ho) h
    · split at h
      · exact ih hl h
      · cases h

theorem walkLoop_ok_le {cap : Nat} {T : CodeTable} {S : Bits} {w w' : Walk} {out out' : List Byte} (hl : out.length ≤ cap)
    (h : walkLoop cap T S w out = .ok (w', out')) : out'.length ≤ cap := by
  induction S generalizing w out with
  | nil =>
    cases h
    exact hl
  | cons b S ih =>
    unfold walkLoop at h
    dsimp only at h
    split at h
    · obtain ⟨o, ho, h⟩ := except_bind_ok h
      exact ih (emit_ok_le hl ho) h
    · split at h
      · exact ih hl h
      · cases h

theorem replayRecords_ok_le {cap : Nat} {B : List Byte} {n a : Nat} {t t' : Token} {out out' : List Byte}
    (hl : out.length ≤ cap) (h : replayRecords cap B n a t out = .ok (t', out')) : out'.length ≤ cap := by
  induction n generalizing a t out with
  | zero =>
    cases h
    exact hl
  | succ n ih =>
    obtain ⟨_, _, h⟩ := except_bind_ok h
    obtain ⟨o, ho, h⟩ := except_bind_ok h
    exact ih (lzApply_ok hl ho).1 h

theorem repeatSymbol_ok_le {cap : Nat} {b : Byte} {N : Word} {out : List Byte} (h : repeatSymbol cap b N = .ok out) :
    out.length ≤ cap := by
  rcases repeatSymbol_cases cap b N with ⟨hN, he⟩ | ⟨_, he⟩ <;> rw [he] at h <;> cases h
  rwa [List.length_replicate]

theorem huffUnblock_ok_le {cap draw : Nat} {B out : List Byte} {T : CodeTable} {n : Nat}
    (h : huffUnblock cap draw B = .ok (T, n, out)) : out.length ≤ cap := by
  rcases (huffUnblock_ok h).2 with ⟨_, rfl⟩ | ⟨_, ho⟩ | ho
  · exact Nat.zero_le _
  · exact repeatSymbol_ok_le ho
  · exact walk_ok_le (Nat.zero_le _) ho

/-- A serialized table is its count and four bytes an entry (R156). -/
theorem serTable_length (T : CodeTable) : (serTable T).length = 2 + 4 * T.count := by
  simp [serTable, CodeTable.count, entryBytes, List.length_flatMap, Nat.mul_comm]

/-- OBUF lists exactly the output when its cells are those of an output that fits. -/
theorem State.outputOk_of_bytes {s t : State} {out : List Byte} (hl : out.length ≤ s.obufBytes) (hcfg : t.cfg = s.cfg)
    (ho : t.obuf = Memory.ofBytes 0 out) (hlen : t.outLen = BitVec.ofNat 32 out.length) : t.OutputOk := by
  obtain ⟨hcells, hfits⟩ := s.setOutput_outputOk hl
  refine ⟨?_, ?_⟩
  · rw [ho, hlen]
    exact hcells
  · rw [State.obufBytes, hlen, hcfg]
    exact hfits

/-- A command that does not fail leaves OBUF listing exactly its output, within OBUF_BYTES (R26, R39). -/
theorem command_outputOk {i : Instr} {s t : State} (hi : i ≠ .clr) (hc : isCommand i = true) (h : exec i s = .next t)
    (ht : t.status ≠ .error) (hs : s.OutputOk) (hn : s.nsym.toNat = s.ct.count) : t.OutputOk := by
  have hcfg := (instructionsKeepInputSide i s t h).cfg
  cases i with
  | clr => exact absurd rfl hi
  | tser =>
    obtain ⟨hl, rfl⟩ := tser_completes ht h
    exact State.outputOk_of_bytes (serTable_length s.ct ▸ hn ▸ hl) hcfg rfl rfl
  | hpack =>
    obtain ⟨D, a, out, out', pad, hloop, htail, rfl⟩ := hpack_completes ht h
    exact State.outputOk_of_bytes (packTail_ok_le (packLoop_ok_le (Nat.zero_le _) hloop) htail) hcfg rfl rfl
  | hwalk =>
    obtain ⟨P, w, out, hloop, rfl⟩ := hwalk_completes ht h
    exact State.outputOk_of_bytes (walkLoop_ok_le (Nat.zero_le _) hloop) hcfg rfl rfl
  | hcomp =>
    obtain ⟨D, T, n, _, hl, rfl⟩ := hcomp_completes ht h
    exact State.outputOk_of_bytes hl hcfg rfl rfl
  | hdecomp =>
    obtain ⟨B, T, n, out, hb, rfl⟩ := hdecomp_completes ht h
    exact State.outputOk_of_bytes (huffUnblock_ok_le hb) hcfg rfl rfl
  | lzreplay =>
    obtain ⟨out, ho, rfl⟩ := lzreplay_completes ht h
    exact State.outputOk_of_bytes (lzApply_ok (by rw [State.output_length]; exact hs.fits) ho).1 hcfg rfl rfl
  | lzcomp =>
    obtain ⟨D, out, ho, rfl⟩ := lzcomp_completes ht h
    exact State.outputOk_of_bytes (emitAll_ok_le (Nat.zero_le _) ho) hcfg rfl rfl
  | lzdecomp =>
    obtain ⟨B, n, tok, out, hr, rfl⟩ := lzdecomp_completes ht h
    exact State.outputOk_of_bytes (replayRecords_ok_le (Nat.zero_le _) hr) hcfg rfl rfl
  | nop | freq | tbuild | derive | tdes | lzfind =>
    obtain ⟨u, hu, rfl⟩ := command_completes hi hc h ht
    obtain ⟨hlen, hobuf, _⟩ := hu.output rfl
    refine ⟨?_, ?_⟩
    · rw [State.complete_obuf, State.complete_outLen, hobuf, hlen]
      exact hs.cells
    · rw [State.obufBytes, State.complete_outLen, hcfg, hlen]
      exact hs.fits
  | _ => cases hc

theorem HostEffect.keeps_output {s t : State} (he : HostEffect s t) (hs : s.OutputOk) : t.OutputOk := by
  obtain ⟨hcells, hfits⟩ := hs
  cases he with
  | quiet _ _ _ ht =>
    subst ht
    exact ⟨hcells, hfits⟩
  | issued _ _ _ _ ht =>
    subst ht
    exact ⟨hcells, hfits⟩
  | stored _ _ _ _ _ _ _ _ _ _ ht =>
    subst ht
    exact ⟨hcells, hfits⟩
  | byteWritten _ _ _ _ _ ht =>
    subst ht
    exact ⟨hcells, hfits⟩
  | reset _ ht =>
    subst ht
    exact ⟨rfl, Nat.zero_le _⟩

theorem CommandStep.keeps_output {s t : State} (h : CommandStep s t) (hs : s.OutputOk) (hn : s.CountOk) : t.OutputOk := by
  cases h with
  | ran i hi hc hl h =>
    by_cases ht : t.status = .error
    · rcases exec_cases i s hi with ⟨u, hu, he⟩ | ⟨e, _, he⟩ <;> rw [h] at he <;> cases he
      · simp [hc] at ht
      · exact ⟨rfl, Nat.zero_le _⟩
    · exact command_outputOk hi hc h ht hs (hn hl)
  | cleared ht =>
    subst ht
    exact ⟨rfl, Nat.zero_le _⟩
  | rejected w e ht =>
    subst ht
    exact ⟨rfl, Nat.zero_le _⟩
  | host he => exact he.keeps_output hs

/-! ### NSYM counts the entries (R31) -/

theorem TableFrom.count {s t : State} (h : TableFrom s t) (hs : s.nsym.toNat = s.ct.count)
    (ht : TreeOk t.node t.nnodes.toNat t.root) : t.nsym.toNat = t.ct.count := by
  have fits : ∀ {T : CodeTable} {n : Nat}, T.count = n → (BitVec.ofNat 9 n).toNat = T.count := fun {T n} hn => by
    have := T.count_le
    rw [BitVec.toNat_ofNat, ← hn]
    omega
  cases h with
  | kept hct hn => rw [hct, hn, hs]
  | cleared hct hn =>
    rw [hct, hn, CodeTable.count_empty]
    rfl
  | derived present T n hd hct hn =>
    rw [hct, hn]
    exact fits (ht.count_derive hd)
  | parsed B p T n hp hct hn =>
    rw [hct, hn]
    exact fits (parseTable_good hp).2

/-- NSYM stays the number of valid entries, on a tree. -/
theorem TablesStep.count {s t : State} (h : TablesStep s t) (hs : s.CountOk) (ht : TreeOk t.node t.nnodes.toNat t.root) :
    t.nsym.toNat = t.ct.count := by
  cases h with
  | ran i hi hc hl hne h => exact (command_tableFrom hi hc h hne).count (hs hl) ht
  | kept hl hct hn =>
    rw [hct, hn]
    exact hs hl
  | reset hct hn =>
    rw [hct, hn, CodeTable.count_empty]
    rfl

/-- Settles O60: each part of the invariant is kept by its own lemma; OUT_LEN needs NSYM for TSER's capacity check, and NSYM needs
the tree that DERIVE walks. -/
theorem stepKeepsInvariant : Obligations.StepKeepsInvariant := by
  intro s t ⟨hibuf, hout, hunits, herr, htable, htree, hcount⟩ h
  obtain ⟨hunits', herr'⟩ := stepKeepsUnitsClearAndErrMatching s t hunits herr h
  have hstep := hunits.step h
  have htree' := stepKeepsTreeShape s t hunits htree h
  exact
    { ibuf := stepKeepsIbufCanonical s t hibuf h
      output := hstep.keeps_output hout hcount
      units := hunits'
      err := herr'
      codeTable := stepKeepsCodeTablePrefixFree s t hunits htable h
      tree := htree'
      count := fun hl => (hstep.tables hl).count hcount (htree' hl) }

end Sys2Proof.Machine
end

section
/-! PROOFS. The host's writes, reads and reset, move by move (R21, R23, R72, R73, R300). -/

namespace Sys2Proof.Machine

/-! ### Writes -/

section Writes

variable {s : State} {n : Nat} {v : Word}

/-- In IDLE and DONE a write to CMD issues, any other stores (R23, R72). -/
theorem hostWriteReg_open (hs : s.status = .idle ∨ s.status = .done) (hn : n < 16) :
    hostWriteReg n v s = .next (if n = 0 then s.issue v else s.writeRw n v) := by
  rcases hs with hs | hs <;> simp [hostWriteReg, hn, hs]

theorem hostWriteReg_busy (hs : s.status = .busy) (hn : n < 16) : hostWriteReg n v s = .next s := by
  simp [hostWriteReg, hn, hs]

theorem hostWriteReg_error (hs : s.status = .error) (hn : n < 16) :
    hostWriteReg n v s = .next (if n = 0 ∧ v = clrWord then s.issue v else s) := by
  simp [hostWriteReg, hn, hs]

theorem hostWriteIbuf_open {a : Nat} {b : Byte} (hs : s.status = .idle ∨ s.status = .done) (ha : a < s.ibufBytes) :
    hostWriteIbuf a b s = .next { s with ibuf := Memory.write s.ibuf a b } := by
  rcases hs with hs | hs <;> simp [hostWriteIbuf, ha, hs]

/-- A write of one register leaves every other as it was (R21). -/
theorem readReg_writeRw_ne {m : Nat} (h : m ≠ n) : (s.writeRw n v).readReg m = s.readReg m := by
  unfold State.writeRw
  split <;> unfold State.readReg <;> split <;> first | rfl | exact absurd rfl h

end Writes

/-- Settles O7: the write is one of the three of R72, by STATE. -/
theorem cmdWriteAcceptance : Obligations.CmdWriteAcceptance := by
  intro s w
  have accepted : (s.issue w).readReg 0 = some w := rfl
  cases hs : s.status with
  | idle => exact ⟨_, hostWriteReg_open (.inl hs) (by decide), by simpa using ⟨rfl, accepted⟩⟩
  | done => exact ⟨_, hostWriteReg_open (.inr hs) (by decide), by simpa using ⟨rfl, accepted⟩⟩
  | busy => exact ⟨s, hostWriteReg_busy hs (by decide), by simp⟩
  | error =>
    refine ⟨_, hostWriteReg_error hs (by decide), ?_⟩
    by_cases hw : w = clrWord
    · subst hw
      simpa [clrWord] using ⟨rfl, accepted⟩
    · rw [if_neg fun h => hw h.2]
      exact ⟨fun h => by simp at h, EngineState.noConfusion, fun _ _ => rfl, fun _ h => absurd h hw⟩

/-- The low `k` bits of a word, kept in a field of `k` bits and read back (R21, R67). -/
theorem setWidth_setWidth (v : Word) (k : Nat) (hk : k ≤ 32) :
    (v.setWidth k).setWidth 32 = v &&& BitVec.ofNat 32 (2 ^ k - 1) := by
  apply BitVec.eq_of_toNat_eq
  have h1 : 2 ^ k ≤ 2 ^ 32 := Nat.pow_le_pow_right (by decide) hk
  have h2 : v.toNat % 2 ^ k < 2 ^ 32 := lt_of_lt_of_le (Nat.mod_lt _ (by positivity)) h1
  have h3 : 2 ^ k - 1 < 2 ^ 32 := by omega
  rw [BitVec.toNat_setWidth, BitVec.toNat_setWidth, BitVec.toNat_and, BitVec.toNat_ofNat, Nat.mod_eq_of_lt h2,
    Nat.mod_eq_of_lt h3, Nat.and_two_pow_sub_one_eq_mod]

/-- Bit 0 of a word, kept as a flag and read back (R29). -/
theorem bit_zero_and_one (v : Word) : (if v.getLsbD 0 then (1 : Word) else 0) = v &&& 1 := by
  have h : (v &&& 1).toNat = v.toNat % 2 := by rw [BitVec.toNat_and]; exact Nat.and_one_is_mod _
  apply BitVec.eq_of_toNat_eq
  rw [h, BitVec.getLsbD, Nat.testBit_zero]
  rcases Nat.mod_two_eq_zero_or_one v.toNat with hv | hv <;> rw [hv] <;> rfl

/-- Settles O9: the write is `writeRw` or the write of one byte; a narrow register keeps the low bits of the word. -/
theorem hostWriteStoresWhatItNames : Obligations.HostWriteStoresWhatItNames := by
  intro s hs
  constructor
  · intro n v hpos hn
    refine ⟨s.writeRw n v, ?_, ?_⟩
    · rw [hostMove, hostWriteReg_open hs hn, if_neg (by omega)]
    · have hkeep := State.writeRw_eq s n v
      refine ⟨?_, ?_, ?_, ?_, ?_, fun m hm => readReg_writeRw_ne hm, ?_⟩
      · intro h
        simp only [List.mem_cons, List.not_mem_nil, or_false] at h
        rcases h with rfl | rfl | rfl | rfl | rfl <;> rfl
      · rintro rfl
        exact congrArg some (setWidth_setWidth v 8 (by decide))
      · rintro rfl
        exact congrArg some (bit_zero_and_one v)
      · rintro rfl
        exact congrArg some (setWidth_setWidth v 3 (by decide))
      · intro h
        simp only [List.mem_cons, List.not_mem_nil, or_false] at h
        rcases h with rfl | rfl | rfl | rfl | rfl | rfl | rfl <;> rfl
      · rw [hkeep]
        exact ⟨rfl, rfl, rfl, fun _ => rfl, fun _ => rfl⟩
  · intro a b ha
    refine ⟨_, hostWriteIbuf_open hs ha, ?_, fun a' ha' => ?_, rfl⟩
    · simp [State.ibufAt]
    · simp only [State.ibufAt, Memory.lookup_write_ne s.ibuf b ha']

/-! ### Reads -/

section Reads

variable {s : State} (hs : s.status ≠ .busy)
include hs

theorem hostReadReg_held {n : Nat} {v : Word} (h : s.readReg n = some v) :
    hostReadReg n s = .next (s.returnRead (.word v)) := by
  simp [hostReadReg, h, hs]

theorem hostReadObuf_held {a : Nat} (h : a < s.obufBytes) :
    hostReadObuf a s = .next (s.returnRead (.byte (s.obufAt a))) := by
  simp [hostReadObuf, h, hs]

theorem hostReadFreq_held (b : Byte) : hostReadFreq b.toNat s = .next (s.returnRead (.word (s.freq.at b))) := by
  simp [hostReadFreq, FreqTable.at, b.isLt, hs]

theorem hostReadNode_held {k : Nat} (hk : k < 511) (hn : k < s.nnodes.toNat) :
    hostReadNode k s = .next (s.returnRead (.node (s.node.at (BitVec.ofNat 9 k)))) := by
  have e : k % 512 = k := Nat.mod_eq_of_lt (by omega)
  simp [hostReadNode, NodeStore.at, hk, hn, hs, e]

theorem hostReadCt_held (b : Byte) : hostReadCt b.toNat s = .next (s.returnRead (.code (s.ct.at b))) := by
  simp [hostReadCt, CodeTable.at, b.isLt, hs]

/-- Outside BUSY a read that answers changes nothing but what was read, and the same read again returns the same value (R73). -/
theorem hostMove_read_again {m : HostMove} {t : State} {k : Nat}
    (hm : m ∈ [HostMove.readReg k, .readObuf k, .readFreq k, .readNode k, .readCt k, .wait])
    (h : hostMove m s = .next t) : t = { s with lastRead := t.lastRead } ∧ hostMove m t = .next t := by
  have key : ∀ {v : ReadValue}, hostMove m s = .next (s.returnRead v) →
      hostMove m (s.returnRead v) = .next (s.returnRead v) →
      t = { s with lastRead := t.lastRead } ∧ hostMove m t = .next t := fun h1 h2 => by
    rw [h] at h1
    cases h1
    exact ⟨rfl, h2⟩
  have again : ∀ v : ReadValue, (s.returnRead v).status ≠ .busy := fun _ => hs
  simp only [List.mem_cons, List.not_mem_nil, or_false] at hm
  rcases hm with rfl | rfl | rfl | rfl | rfl | rfl
  · cases hv : s.readReg k with
    | none => simp [hostMove, hostReadReg, hv] at h
    | some v => exact key (hostReadReg_held hs hv) (hostReadReg_held (again _) hv)
  · by_cases ha : k < s.obufBytes
    · exact key (hostReadObuf_held hs ha) (hostReadObuf_held (again _) ha)
    · simp [hostMove, hostReadObuf, ha] at h
  · by_cases hk : k < 256
    · obtain ⟨b, rfl⟩ : ∃ b : Byte, b.toNat = k := ⟨BitVec.ofNat 8 k, by simpa using hk⟩
      exact key (hostReadFreq_held hs b) (hostReadFreq_held (again _) b)
    · simp [hostMove, hostReadFreq, hk] at h
  · by_cases hk : k < 511
    · by_cases hn : k < s.nnodes.toNat
      · exact key (hostReadNode_held hs hk hn) (hostReadNode_held (again _) hk hn)
      · simp [hostMove, hostReadNode, hk, hn, hs] at h
    · simp [hostMove, hostReadNode, hk] at h
  · by_cases hk : k < 256
    · obtain ⟨b, rfl⟩ : ∃ b : Byte, b.toNat = k := ⟨BitVec.ofNat 8 k, by simpa using hk⟩
      exact key (hostReadCt_held hs b) (hostReadCt_held (again _) b)
    · simp [hostMove, hostReadCt, hk] at h
  · exact key rfl rfl

end Reads

/-- Settles O10: outside BUSY each read returns what is held (the `_held` lemmas), and the same read again returns it again
(`hostMove_read_again`). -/
theorem hostReadsReturnWhatIsHeld : Obligations.HostReadsReturnWhatIsHeld := by
  intro s hs
  refine ⟨fun n v hnv => ?_, fun a ha => hostReadObuf_held hs ha, hostReadFreq_held hs,
    fun k hk hn => hostReadNode_held hs hk hn, hostReadCt_held hs, ⟨_, rfl, rfl⟩, fun t m k hm h => ?_⟩
  · have hread : s.readReg n = some v := by
      simp only [List.mem_cons, List.not_mem_nil, or_false, Prod.mk.injEq] at hnv
      rcases hnv with ⟨rfl, rfl⟩ | ⟨rfl, rfl⟩ | ⟨rfl, rfl⟩ | ⟨rfl, rfl⟩ | ⟨rfl, rfl⟩ | ⟨rfl, rfl⟩ | ⟨rfl, rfl⟩ | ⟨rfl, rfl⟩ |
        ⟨rfl, rfl⟩ | ⟨rfl, rfl⟩ | ⟨rfl, rfl⟩ | ⟨rfl, rfl⟩ | ⟨rfl, rfl⟩ | ⟨rfl, rfl⟩ | ⟨rfl, rfl⟩ | ⟨rfl, rfl⟩ <;> rfl
    exact ⟨hread, hostReadReg_held hs hread⟩
  · obtain ⟨ht, hagain⟩ := hostMove_read_again hs hm h
    exact ⟨ht, t, hagain, rfl⟩

/-! ### Reset -/

/-- Settles O12: the reset move is `State.resetMove`, whose fields are those of `State.reset`. -/
theorem resetFromAnyState : Obligations.ResetFromAnyState := by
  intro s
  have herr : ErrReg.number ⟨0, 0⟩ = 0 := by decide
  refine ⟨s.resetMove, rfl, rfl, rfl, herr, rfl, rfl, rfl, rfl, rfl, rfl, rfl, rfl, rfl, rfl, rfl, rfl, rfl, fun b => ?_,
    CodeTable.at_empty, rfl, rfl, rfl⟩
  simp [FreqTable.at, FreqTable.zero]

/-- Settles O55: the arrays are empty, the units clear, ERR 0, no table entry and no node. -/
theorem resetMeetsInvariant : Obligations.ResetMeetsInvariant where
  ibuf := ⟨Memory.wf_nil, fun _ hc => absurd hc List.not_mem_nil⟩
  output := ⟨rfl, Nat.zero_le _⟩
  units := ⟨rfl, rfl, rfl, rfl⟩
  err := ⟨fun _ => rfl, fun h => nomatch h⟩
  codeTable _ := CodeTable.good_empty
  tree _ := TreeOk.noNodes _
  count _ := CodeTable.count_empty.symm

end Sys2Proof.Machine
end

section
/-! PROOFS. How `pack` lays a code stream into bytes (R66, R175, R179). -/

namespace Sys2Proof.Machine

/-- Bit `j` of a string, from the left, in its number (R10). -/
theorem testBit_bitsVal (S : Bits) {j : Nat} (hj : j < S.length) : (bitsVal S).testBit (S.length - 1 - j) = S[j] := by
  have h : (bitsOf (bitsVal S) S.length)[j]'(by simpa using hj) = S[j] := by simp only [bitsOf_bitsVal]
  simpa only [bitsOf, List.getElem_map, List.getElem_range] using h

/-- The byte of eight bits holds bit `j` at bit number `7 - j` (R66). -/
theorem getLsbD_byteOfBits {S : Bits} (hS : S.length = 8) {j : Nat} (hj : j < 8) :
    (BitVec.ofNat 8 (bitsVal S)).getLsbD (7 - j) = S[j] := by
  rw [BitVec.getLsbD_ofNat, decide_eq_true (by omega), Bool.true_and]
  simpa only [hS] using testBit_bitsVal S (hS ▸ hj)

@[simp] theorem bytesOfBits_length (n : Nat) (S : Bits) : (bytesOfBits n S).length = n := by
  induction n generalizing S with
  | zero => rfl
  | succ n ih => simp [bytesOfBits, ih]

/-- R66: bit `k` of a string cut into bytes stands in byte `k div 8` at bit number `7 - k mod 8`. -/
theorem getLsbD_bytesOfBits {n k : Nat} {S : Bits} (hS : S.length = 8 * n) (hk : k < S.length) :
    (byteAt (bytesOfBits n S) (k / 8)).getLsbD (7 - k % 8) = S[k] := by
  induction n generalizing S k with
  | zero => omega
  | succ n ih =>
    by_cases h8 : k < 8
    · have hbit := getLsbD_byteOfBits (S := S.take 8) (by rw [List.length_take]; omega) h8
      rw [List.getElem_take] at hbit
      simpa only [bytesOfBits, byteAt, Nat.div_eq_of_lt h8, Nat.mod_eq_of_lt h8, List.getD_cons_zero] using hbit
    · obtain ⟨m, rfl⟩ : ∃ m, k = m + 8 := ⟨k - 8, by omega⟩
      have hrest := ih (S := S.drop 8) (k := m) (by rw [List.length_drop]; omega) (by rw [List.length_drop]; omega)
      rw [List.getElem_drop] at hrest
      simpa [bytesOfBits, byteAt, Nat.add_comm 8] using hrest

/-- The padding is less than a byte and fills the last byte (R175). -/
theorem padCount_fills (t : Nat) : padCount t < 8 ∧ 8 * ((t + padCount t) / 8) = t + padCount t := by
  unfold padCount
  omega

/-- Settles O32: the payload is the code stream and its padding cut into bytes, so every bit is `getLsbD_bytesOfBits`, and `bits`
reads the same positions (R179). -/
theorem packIsMsbFirst : Obligations.PackIsMsbFirst := by
  intro T D P pad hpack
  obtain ⟨hlt, hfill⟩ := padCount_fills (codeStream T D).length
  obtain ⟨hP, rfl⟩ := Prod.mk.inj hpack
  generalize codeStream T D = S at hlt hfill hP ⊢
  generalize padCount S.length = pad at hlt hfill hP ⊢
  have hlen : (S ++ List.replicate pad false).length = 8 * ((S.length + pad) / 8) := by simp [hfill]
  have hbit : ∀ k, ∀ h : k < (S ++ List.replicate pad false).length,
      (byteAt P (k / 8)).getLsbD (7 - k % 8) = (S ++ List.replicate pad false)[k] :=
    fun k h => hP ▸ getLsbD_bytesOfBits hlen h
  have hcode : ∀ k, ∀ h : k < S.length, (byteAt P (k / 8)).getLsbD (7 - k % 8) = S[k] := fun k h => by
    rw [hbit k (by simp; omega), List.getElem_append_left h]
  have hbytes : 8 * P.length = S.length + pad := by rw [← hP, bytesOfBits_length, hfill]
  refine ⟨hlt, hbytes, hcode, fun k hle hk => ?_, List.ext_getElem ?_ fun k _ hk => ?_⟩
  · rw [hbit k (by simpa [← hbytes] using hk), List.getElem_append_right hle, List.getElem_replicate]
  · simp [payloadBits, hbytes]
  · simpa [payloadBits] using hcode k hk

end Sys2Proof.Machine
end

section
/-! PROOFS. What the host may not do: the writes that BUSY and ERROR ignore (R72, R316), and the accesses that are no operation
of the hardware (R62, U5, U6). -/

namespace Sys2Proof.Machine

/-! ### Ignored writes -/

theorem hostWriteIbuf_ignored {s : State} {a : Nat} {b : Byte} (hs : s.status = .busy ∨ s.status = .error)
    (ha : a < s.ibufBytes) : hostWriteIbuf a b s = .next s := by
  rcases hs with hs | hs <;> simp [hostWriteIbuf, ha, hs]

/-- R72: while BUSY a read of STATUS returns BUSY. -/
theorem hostReadReg_status_busy {s : State} (hs : s.status = .busy) : hostReadReg 1 s = .next (s.returnRead (.word 1)) := by
  simp [hostReadReg, State.readReg, hs, EngineState.number]

/-- Settles O8: the rules of the two writes in BUSY and ERROR, and `hostMove_read` for the reads. -/
theorem busyAndErrorIgnoreWrites : Obligations.BusyAndErrorIgnoreWrites := by
  intro s
  refine ⟨fun hs => ⟨fun n v hn => hostWriteReg_busy hs hn, fun a b ha => hostWriteIbuf_ignored (.inl hs) ha,
    ⟨_, hostReadReg_status_busy hs, rfl⟩, fun n m t hm h => ?_⟩,
    fun hs => ⟨fun n v hn hclr => ?_, fun a b ha => hostWriteIbuf_ignored (.inr hs) ha⟩⟩
  · have hm' : m ∈ [HostMove.readReg n, .readObuf n, .readFreq n, .readNode n, .readCt n, .wait] :=
      List.mem_append_left [HostMove.wait] hm
    exact (hostMove_read hm' h).1
  · have hne : ¬ (n = 0 ∧ v = clrWord) := fun ⟨hn0, hv⟩ => hclr.elim (· hn0) (· hv)
    rw [hostMove, hostWriteReg_error hs hn, if_neg hne]

/-! ### Refused accesses -/

/-- A move that answers under a check is refused exactly when the check fails. -/
theorem refused_ite_iff {c : Prop} [Decidable c] {t : State} {r : Refusal} :
    (∃ r', (if c then .next t else .refused r : Result) = .refused r') ↔ ¬ c := by
  by_cases hc : c <;> simp [hc]

/-- The same for a check whose proof the answer uses: the index into a table. -/
theorem refused_dite_iff {c : Prop} [Decidable c] {t : c → State} {r : Refusal} :
    (∃ r', (if h : c then .next (t h) else .refused r : Result) = .refused r') ↔ ¬ c := by
  by_cases hc : c <;> simp [hc]

/-- The register file has sixteen registers (R21). -/
theorem State.readReg_eq_none_iff (s : State) (n : Nat) : s.readReg n = none ↔ ¬ n < 16 := by
  by_cases hn : n < 16
  · interval_cases n <;> simp [State.readReg]
  · obtain ⟨m, rfl⟩ := Nat.exists_eq_add_of_le' (not_lt.1 hn)
    simp [State.readReg]

section Refused

variable {s : State} {n a k : Nat}

theorem hostWriteReg_refused_iff {v : Word} : (∃ r, hostWriteReg n v s = .refused r) ↔ ¬ n < 16 := refused_ite_iff

theorem hostReadReg_refused_iff : (∃ r, hostReadReg n s = .refused r) ↔ ¬ n < 16 := by
  rw [← s.readReg_eq_none_iff, hostReadReg]
  cases s.readReg n <;> simp

theorem hostWriteIbuf_refused_iff {b : Byte} : (∃ r, hostWriteIbuf a b s = .refused r) ↔ ¬ a < s.ibufBytes :=
  refused_ite_iff

theorem hostReadObuf_refused_iff : (∃ r, hostReadObuf a s = .refused r) ↔ ¬ a < s.obufBytes := refused_ite_iff

theorem hostReadFreq_refused_iff : (∃ r, hostReadFreq k s = .refused r) ↔ ¬ k < Config.alphabet := refused_dite_iff

theorem hostReadCt_refused_iff : (∃ r, hostReadCt k s = .refused r) ↔ ¬ k < Config.alphabet := refused_dite_iff

/-- U5, log 9: a NODE read is refused at an index out of range, and outside BUSY at or above NNODES. -/
theorem hostReadNode_refused_iff :
    (∃ r, hostReadNode k s = .refused r) ↔ ¬ k < Config.nodeMax ∨ s.status ≠ .busy ∧ s.nnodes.toNat ≤ k := by
  rw [Config.nodeMax, hostReadNode]
  by_cases hk : k < 511
  · by_cases hb : s.status = .busy
    · simp [hk, hb]
    · by_cases hn : k < s.nnodes.toNat
      · simp [hk, hb, hn]
      · simp [hk, hb, hn, not_lt.1 hn]
  · simp [hk]

end Refused

/-- Settles O11: each access is refused exactly when its own check fails. -/
theorem refusesExactlyNonOperations : Obligations.RefusesExactlyNonOperations := by
  intro s m
  cases m with
  | writeReg n v => simpa [hostMove, HostMove.wf] using hostWriteReg_refused_iff
  | readReg n => simpa [hostMove, HostMove.wf] using hostReadReg_refused_iff
  | writeIbuf a b => simpa [hostMove, HostMove.wf, State.ibufBytes] using hostWriteIbuf_refused_iff (s := s)
  | readObuf a => simpa [hostMove, HostMove.wf, State.obufBytes] using hostReadObuf_refused_iff (s := s)
  | readFreq k => simpa [hostMove, HostMove.wf] using hostReadFreq_refused_iff
  | readNode k => simpa [hostMove, HostMove.wf] using hostReadNode_refused_iff (s := s)
  | readCt k => simpa [hostMove, HostMove.wf] using hostReadCt_refused_iff
  | reset => simp [HostMove.wf, hostMove]
  | wait => simp [HostMove.wf, hostMove, hostWait]

end Sys2Proof.Machine
end

section
/-! PROOFS. The decoder read backwards (R86, R91 to R93, R98 to R101): each word is its fields joined again, so what a word decodes
to encodes to it; and the words the opcode map does not list are rejected (R87, R251). -/

namespace Sys2Proof

/-! ### Command words -/

/-- R86: every row of the opcode map decodes to its command. -/
theorem decodeCommand_of_mem {w : Word} {i : Instr} (h : (w, i) ∈ commandTable) : decodeCommand w = .ok i := by
  have hrows : ∀ row ∈ commandTable, decodeCommand row.1 = .ok row.2 := by decide
  exact hrows (w, i) h

/-- R86: the decoder matches the whole word against the opcode map. -/
theorem decodeCommand_eq_ok_iff {w : Word} {i : Instr} : decodeCommand w = .ok i ↔ (w, i) ∈ commandTable := by
  refine ⟨fun h => ?_, decodeCommand_of_mem⟩
  unfold decodeCommand at h
  split at h
  · cases h
  · split at h
    · rename_i row hrow
      cases h
      have hw : row.1 = w := by simpa using List.find?_some hrow
      exact hw ▸ List.mem_of_find?_eq_some hrow
    · cases h

/-- R251: the reserved bits are checked first. -/
theorem decodeCommand_reserved {w : Word} (h : w.extractLsb' 8 24 ≠ 0) : decodeCommand w = .error .reservedBits := by
  rw [decodeCommand, if_pos h]

/-- R87: a word whose reserved bits are 0 and that is no word of the opcode map. -/
theorem decodeCommand_badOpcode {w : Word} (h : w.extractLsb' 8 24 = 0) (hw : ∀ row ∈ commandTable, row.1 ≠ w) :
    decodeCommand w = .error .badOpcode := by
  have hfind : commandTable.find? (fun row => row.1 == w) = none :=
    List.find?_eq_none.2 fun row hrow => by simpa using hw row hrow
  rw [decodeCommand, if_neg (not_not.2 h), hfind]

/-- A command encodes to its word of the opcode map. -/
theorem encode_of_mem_commandTable {w : Word} {i : Instr} (h : (w, i) ∈ commandTable) :
    i.wf = true ∧ encode i = .command w := by
  have hrows : ∀ row ∈ commandTable, row.2.wf = true ∧ encode row.2 = .command row.1 := by decide
  exact hrows (w, i) h

/-! ### Record words -/

/-- The flags byte of a token record whose reserved bits are 0 (R98). -/
theorem extract_flagsByte {w : BitVec 80} (h : w.extractLsb' 9 7 = 0) : w.extractLsb' 8 8 = flagsByte (w.getLsbD 8) := by
  have hbit : w.extractLsb' 8 1 = BitVec.ofBool (w.getLsbD 8) := by
    refine BitVec.eq_of_getLsbD_eq fun k hk => ?_
    obtain rfl : k = 0 := by omega
    simp
  have hjoin : w.extractLsb' 9 7 ++ w.extractLsb' 8 1 = w.extractLsb' 8 8 :=
    BitVec.extractLsb'_append_extractLsb'_eq_extractLsb' rfl
  rw [← hjoin, h, hbit]
  cases w.getLsbD 8 <;> rfl

/-- A token record whose reserved bits are 0 is its fields joined (R98). -/
theorem tokenWord_of_fields {w : BitVec 80} (h : w.extractLsb' 9 7 = 0) :
    tokenWord (w.extractLsb' 48 32) (w.extractLsb' 16 32) (w.getLsbD 8) (w.extractLsb' 0 8) = w := by
  have hlen : w.extractLsb' 48 32 ++ w.extractLsb' 16 32 = w.extractLsb' 16 (32 + 32) :=
    BitVec.extractLsb'_append_extractLsb'_eq_extractLsb' rfl
  have hlitv : w.extractLsb' 16 (32 + 32) ++ w.extractLsb' 8 8 = w.extractLsb' 8 (32 + 32 + 8) :=
    BitVec.extractLsb'_append_extractLsb'_eq_extractLsb' rfl
  have hlit : w.extractLsb' 8 (32 + 32 + 8) ++ w.extractLsb' 0 8 = w.extractLsb' 0 (32 + 32 + 8 + 8) :=
    BitVec.extractLsb'_append_extractLsb'_eq_extractLsb' rfl
  rw [tokenWord, ← extract_flagsByte h, hlen, hlitv, hlit]
  exact BitVec.extractLsb'_eq_self

/-- What a token record decodes to meets the condition of its kind (R99) and encodes to that record. -/
theorem encode_of_decodeToken {w : BitVec 80} {i : Instr} (h : decodeToken w = .ok i) :
    i.wf = true ∧ encode i = .record (.token w) := by
  have hflags : w.extractLsb' 9 7 = 0 := by
    by_contra hc
    rw [decodeToken, if_pos hc] at h
    cases h
  obtain ⟨off, len, litv, lit, rfl⟩ : ∃ off len litv lit, w = tokenWord off len litv lit :=
    ⟨_, _, _, _, (tokenWord_of_fields hflags).symm⟩
  rw [decodeToken_tokenWord] at h
  by_cases hoff : off = 0 <;> by_cases hlen : len = 0
  · subst hoff hlen
    cases litv <;> cases h <;> exact ⟨rfl, rfl⟩
  · subst hoff
    rw [if_pos rfl, if_neg hlen] at h
    cases h
    exact ⟨bne_iff_ne.2 hlen, rfl⟩
  · subst hlen
    rw [if_neg hoff, if_pos rfl] at h
    cases h
    exact ⟨bne_iff_ne.2 hoff, rfl⟩
  · rw [if_neg hoff, if_neg hlen] at h
    have hwf : (off != 0 && len != 0) = true := by rw [bne_iff_ne.2 hoff, bne_iff_ne.2 hlen, Bool.and_self]
    cases litv <;> cases h <;> exact ⟨hwf, rfl⟩

/-- What a record decodes to is well-formed and encodes to that record (R91 to R93, R98). -/
theorem encode_of_decodeRecord {r : RecordWord} {i : Instr} (h : decodeRecord r = .ok i) :
    i.wf = true ∧ encode i = .record r := by
  cases r with
  | header w =>
    cases h
    have hw : w.extractLsb' 16 8 ++ w.extractLsb' 0 16 = w :=
      (BitVec.extractLsb'_append_extractLsb'_eq_extractLsb' rfl).trans BitVec.extractLsb'_eq_self
    exact ⟨rfl, by rw [encode, hw]⟩
  | entry w =>
    cases h
    have hlen : w.extractLsb' 24 8 ++ w.extractLsb' 16 8 = w.extractLsb' 16 (8 + 8) :=
      BitVec.extractLsb'_append_extractLsb'_eq_extractLsb' rfl
    have hw : w.extractLsb' 16 (8 + 8) ++ w.extractLsb' 0 16 = w :=
      (BitVec.extractLsb'_append_extractLsb'_eq_extractLsb' rfl).trans BitVec.extractLsb'_eq_self
    exact ⟨rfl, by rw [encode, hlen, hw]⟩
  | count w =>
    cases h
    exact ⟨rfl, rfl⟩
  | token w => exact encode_of_decodeToken (w := w) h

/-! ### The statements -/

/-- Decoding the words of a well-formed instruction gives it back: the package's encoding law of each constructor. -/
theorem decode_encode (i : Instr) : Laws.Encoding.Statement i := by
  cases i with
  | nop => exact Laws.Encoding.nop
  | clr => exact Laws.Encoding.clr
  | freq => exact Laws.Encoding.freq
  | tbuild => exact Laws.Encoding.tbuild
  | derive => exact Laws.Encoding.derive
  | tser => exact Laws.Encoding.tser
  | tdes => exact Laws.Encoding.tdes
  | hpack => exact Laws.Encoding.hpack
  | hwalk => exact Laws.Encoding.hwalk
  | hcomp => exact Laws.Encoding.hcomp
  | hdecomp => exact Laws.Encoding.hdecomp
  | lzfind => exact Laws.Encoding.lzfind
  | lzreplay => exact Laws.Encoding.lzreplay
  | lzcomp => exact Laws.Encoding.lzcomp
  | lzdecomp => exact Laws.Encoding.lzdecomp
  | hblockHeader padding count => exact Laws.Encoding.hblockHeader padding count
  | hblockEntry sym len bits => exact Laws.Encoding.hblockEntry sym len bits
  | hblockCount n => exact Laws.Encoding.hblockCount n
  | tokenLit lit => exact Laws.Encoding.tokenLit lit
  | tokenMatch off len lit => exact Laws.Encoding.tokenMatch off len lit
  | tokenMatchend off len x => exact Laws.Encoding.tokenMatchend off len x
  | tokenNull x => exact Laws.Encoding.tokenNull x
  | tokenInvalidLenNoOffset len litv x => exact Laws.Encoding.tokenInvalidLenNoOffset len litv x
  | tokenInvalidZeroLength off litv x => exact Laws.Encoding.tokenInvalidZeroLength off litv x

/-- Settles O3: one direction is the encoding law of each instruction, the other the opcode map for a command word and the joined
fields for a record. -/
theorem decodeEncodeAgree : Obligations.DecodeEncodeAgree := by
  refine ⟨decode_encode, fun f i h => ?_⟩
  cases f with
  | command w => exact encode_of_mem_commandTable (decodeCommand_eq_ok_iff.1 h)
  | record r => exact encode_of_decodeRecord h

/-- Settles O1: the decoder evaluated on the eight words. -/
theorem sampleWordsDecode : Obligations.SampleWordsDecode := by
  unfold Obligations.SampleWordsDecode
  decide

/-- Settles O2: the pairs written out are the opcode map that `decodeCommand` searches. -/
theorem commandDecodesExactlyItsWord : Obligations.CommandDecodesExactlyItsWord :=
  fun _ _ => decodeCommand_eq_ok_iff

end Sys2Proof

namespace Sys2Proof.Machine

/-- R87, R251, R270: a word that the decoder rejects ends in the error of its cause and touches no destination. -/
theorem step_rejectedCommand {s : State} {r : Reject} (hb : s.status = .busy) (hh : s.host = []) (hr : s.record = none)
    (hd : decodeCommand s.cmd = .error r) (hw : rejectWrites r = Writes.none) :
    ∃ t, step s = .next t ∧ t.failedWith (rejectCause r).reg.number ∧ KeepsUnlisted Writes.none s t ∧ KeepsInputSide s t ∧
      (s.UnitsClear → t.pq = s.pq ∧ t.acc = s.acc ∧ t.walk = s.walk) := by
  have hstep : step s = .next (s.fail Writes.none (rejectCause r)) := by
    have hcons : s.consume = s := by rw [State.consume, ← hr]
    have hf : s.fetched = .command s.cmd := by rw [State.fetched, hr]
    rw [step_engine hb (by rw [State.engineTurn, hh]), engineStep, hf, decode, hd, hcons, ← hw]
  refine ⟨_, hstep, State.failedWith_fail _ _ _, State.fail_keeps _ _ _, State.fail_input _ _ _, fun hu => ?_⟩
  exact ⟨hu.pq.symm, hu.acc.symm, hu.walk.symm⟩

/-- Settles O4: the word is rejected for its reserved bits, or for standing in no row of the opcode map. -/
theorem illegalWordCompletesWithError : Obligations.IllegalWordCompletesWithError := by
  intro s hb hh hr
  refine ⟨fun hres => step_rejectedCommand hb hh hr (decodeCommand_reserved hres) rfl, fun hres hop => ?_⟩
  have hrows : ∀ row ∈ commandTable, row.1.toNat ∈
      [0x00, 0x01, 0x10, 0x11, 0x12, 0x13, 0x14, 0x15, 0x16, 0x18, 0x19, 0x20, 0x21, 0x28, 0x29] := by decide
  exact step_rejectedCommand hb hh hr (decodeCommand_badOpcode hres fun row hrow hc => hop (hc ▸ hrows row hrow)) rfl

end Sys2Proof.Machine
end

section
/-! PROOFS. The records of a Huffman block (R91 to R93, R157, R189; logs 10 and 11): what a header, an entry and a count record do
when their checks pass, and which error each failing check takes. -/

namespace Sys2Proof.Machine

/-- An instruction that takes an error ends in it (R270). -/
theorem failedWith_of_exec {i : Instr} {s t : State} {w : Writes} {e : ErrorCause} (h : exec i s = .next t)
    (he : exec i s = .next (s.fail w e)) : t.failedWith e.reg.number := by
  cases h.symm.trans he
  exact s.failedWith_fail w e

/-! ### The header record -/

section Header

variable {s : State} {p : Byte} {n : BitVec 16}

theorem headerError_padRange (hp : 7 < p.toNat) : headerError p n = some .padRange := if_pos hp

theorem headerError_countRange (hp : p.toNat ≤ 7) (hn : 256 < n.toNat) : headerError p n = some .countRange :=
  (if_neg (not_lt.2 hp)).trans (if_pos hn)

theorem headerError_none (hp : p.toNat ≤ 7) (hn : n.toNat ≤ 256) : headerError p n = none :=
  (if_neg (not_lt.2 hp)).trans (if_neg (not_lt.2 hn))

theorem exec_hblockHeader_of_none (h : headerError p n = none) : exec (.hblockHeader p n) s =
    .next { s.clearCodeTable with pad := p.setWidth 3, consumed := 3 } := by
  rw [exec, execHblockHeader, h]
  rfl

theorem exec_hblockHeader_of_some {e : ErrorCause} (h : headerError p n = some e) :
    exec (.hblockHeader p n) s = .next (s.fail hblockWrites e) := by
  rw [exec, execHblockHeader, h]
  rfl

end Header

/-- Settles O50: the header's two checks say which way the record ends. -/
theorem headerRecordStartsTable : Obligations.HeaderRecordStartsTable := by
  intro s p n
  obtain ⟨t, ht⟩ := exec_next (.hblockHeader p n) s
  refine ⟨t, ht, fun hp hn => ?_,
    fun hp => failedWith_of_exec ht (exec_hblockHeader_of_some (headerError_padRange hp)),
    fun hp hn => failedWith_of_exec ht (exec_hblockHeader_of_some (headerError_countRange hp hn))⟩
  cases ht.symm.trans (exec_hblockHeader_of_none (headerError_none hp hn))
  have hpad : (p.setWidth 3).toNat = p.toNat := by
    rw [BitVec.toNat_setWidth]
    exact Nat.mod_eq_of_lt (by omega)
  exact ⟨rfl, hpad, CodeTable.at_empty, rfl, rfl, by constructor <;> simp [hblockWrites], rfl, fun _ => rfl⟩

/-! ### The entry record -/

section Entry

variable {s : State} {T : CodeTable} {b len : Byte} {v : BitVec 16}

theorem addEntry_lenRange (h : len.toNat = 0 ∨ 16 < len.toNat) : addEntry T b len v = .error .lenRange :=
  if_pos (h.imp_left fun h0 => BitVec.eq_of_toNat_eq h0)

section InRange

variable (h1 : 1 ≤ len.toNat) (h16 : len.toNat ≤ 16)
include h1 h16

/-- R157: with a length in range the two other checks are left. -/
theorem addEntry_of_lenInRange : addEntry T b len v =
    if 2 ^ len.toNat ≤ v.toNat then .error .bitsPad
    else if (T.at b).valid then .error .dupSymbol
    else .ok (T.put b (CtEntry.ofFields len v)) := by
  refine if_neg ?_
  rintro (rfl | h)
  · exact absurd h1 (by decide)
  · exact absurd h16 (not_le.2 h)

theorem addEntry_bitsPad (hv : 2 ^ len.toNat ≤ v.toNat) : addEntry T b len v = .error .bitsPad := by
  rw [addEntry_of_lenInRange h1 h16, if_pos hv]

theorem addEntry_dupSymbol (hv : v.toNat < 2 ^ len.toNat) (hb : (T.at b).valid = true) :
    addEntry T b len v = .error .dupSymbol := by
  rw [addEntry_of_lenInRange h1 h16, if_neg (not_le.2 hv), if_pos hb]

theorem addEntry_new (hv : v.toNat < 2 ^ len.toNat) (hb : (T.at b).valid = false) :
    addEntry T b len v = .ok (T.put b (CtEntry.ofFields len v)) := by
  rw [addEntry_of_lenInRange h1 h16, if_neg (not_le.2 hv), if_neg (by simp [hb])]

end InRange

theorem exec_hblockEntry_of_ok (h : addEntry s.ct b len v = .ok T) : exec (.hblockEntry b len v) s =
    .next { s with ct := T, nsym := s.nsym + 1, consumed := s.consumed + 4 } := by
  rw [exec, execHblockEntry, h]
  rfl

theorem exec_hblockEntry_of_error {e : ErrorCause} (h : addEntry s.ct b len v = .error e) :
    exec (.hblockEntry b len v) s = .next (s.fail hblockWrites e) := by
  rw [exec, execHblockEntry, h]
  rfl

end Entry

/-- Settles O51: the three checks of `addEntry`, in order, say which way the record ends. -/
theorem entryRecordAddsCode : Obligations.EntryRecordAddsCode := by
  intro s b len v
  obtain ⟨t, ht⟩ := exec_next (.hblockEntry b len v) s
  refine ⟨t, ht, fun h1 h16 hv hb => ?_,
    fun hl => failedWith_of_exec ht (exec_hblockEntry_of_error (addEntry_lenRange hl)),
    fun h1 h16 hv => failedWith_of_exec ht (exec_hblockEntry_of_error (addEntry_bitsPad h1 h16 hv)),
    fun h1 h16 hv hb => failedWith_of_exec ht (exec_hblockEntry_of_error (addEntry_dupSymbol h1 h16 hv hb))⟩
  cases ht.symm.trans (exec_hblockEntry_of_ok (addEntry_new h1 h16 hv hb))
  exact ⟨rfl, CodeTable.at_put_self _ _ _, fun c hc => CodeTable.at_put_ne _ _ hc, rfl, rfl, rfl,
    by constructor <;> simp [hblockWrites], rfl, fun _ => rfl⟩

/-! ### The count record -/

/-- The entries of a table with exactly one symbol. -/
theorem CodeTable.entries_of_single {T : CodeTable} {b : Byte} (h : ∀ c, (T.at c).valid = true ↔ c = b) :
    T.entries = [(b, T.at b)] := by
  have hcount : T.entries.length = 1 :=
    CodeTable.count_eq_length (L := [b]) (List.nodup_singleton b) fun c => by rw [List.mem_singleton, h]
  obtain ⟨x, hx⟩ := List.length_eq_one_iff.1 hcount
  have hb : (b, T.at b) ∈ T.entries := CodeTable.mem_entries.2 ⟨rfl, (h b).2 rfl⟩
  rw [hx, List.mem_singleton] at hb
  rw [hx, hb]

theorem soleSymbol_of_single {T : CodeTable} {b : Byte} (h : ∀ c, (T.at c).valid = true ↔ c = b) (draw : Nat) :
    soleSymbol T draw = b := by
  rw [soleSymbol, CodeTable.entries_of_single h]

section Count

variable {s : State} {n : Word}

theorem exec_hblockCount_of_ok {out : List Byte} (h : repeatSymbol s.obufBytes (soleSymbol s.ct s.draws) n = .ok out) :
    exec (.hblockCount n) s = .next (s.setOutput out) := by
  rw [exec, execHblockCount, h]
  rfl

theorem exec_hblockCount_of_error {e : ErrorCause}
    (h : repeatSymbol s.obufBytes (soleSymbol s.ct s.draws) n = .error e) :
    exec (.hblockCount n) s = .next (s.fail hblockWrites e) := by
  rw [exec, execHblockCount, h]
  rfl

end Count

/-- Settles O52: the one symbol of the table is `soleSymbol`, and `repeatSymbol_cases` says whether the count fits. -/
theorem countRecordRepeatsSymbol : Obligations.CountRecordRepeatsSymbol := by
  intro s b n hb
  obtain ⟨t, ht⟩ := exec_next (.hblockCount n) s
  refine ⟨t, ht, ?_⟩
  have hsole := soleSymbol_of_single hb s.draws
  rcases repeatSymbol_cases s.obufBytes (soleSymbol s.ct s.draws) n with ⟨hle, hr⟩ | ⟨hlt, hr⟩
  · refine ⟨fun _ => ?_, fun hlt => absurd hle (not_le.2 hlt)⟩
    cases ht.symm.trans (exec_hblockCount_of_ok hr)
    have hlen : (s.setOutput (List.replicate n.toNat (soleSymbol s.ct s.draws))).outLen = n := by simp
    have hout := s.output_setOutput (out := List.replicate n.toNat (soleSymbol s.ct s.draws)) (by simpa using n.isLt)
    exact ⟨rfl, hlen, by rw [hout, hsole], by constructor <;> simp⟩
  · exact ⟨fun hle => absurd hle (not_le.2 hlt), fun _ => failedWith_of_exec ht (exec_hblockCount_of_error hr)⟩

end Sys2Proof.Machine
end

section
/-! PROOFS. The token records and LZDECOMP (R98 to R102, R217 to R219, R228; log 10): what one valid token appends, what a list of
them gives, and the streams that are no list of records. -/

namespace Sys2Proof.Machine

/-! ### What a token appends (R218) -/

/-- The output after a valid token: its copy, then its literal if it has one. -/
def Token.extend (out : List Byte) (t : Token) : List Byte :=
  copied t.offset.toNat t.length.toNat out ++ if t.litv then [t.lit] else []

section Extend

variable {cap : Nat} {out : List Byte} {t : Token}

@[simp] theorem Token.extend_length : (Token.extend out t).length = out.length + t.length.toNat + t.litv.toNat := by
  cases h : t.litv <;> simp [Token.extend, h]

theorem Token.prefix_extend : out <+: Token.extend out t :=
  (copied_prefix _ _ out).trans (List.prefix_append _ _)

theorem lzApply_fits (hv : t.validAt out.length) (hfit : out.length + t.length.toNat + t.litv.toNat ≤ cap) :
    lzApply cap out t = .ok (Token.extend out t) := by
  rw [lzApply_valid (by omega) hv, if_pos hfit, Token.extend]

/-- R313: byte `m` of the match is the byte `off` places before it. -/
theorem Token.byteAt_match (hv : t.validAt out.length) {m : Nat} (hm : m < t.length.toNat) :
    byteAt (Token.extend out t) (out.length + m) = byteAt (Token.extend out t) (out.length + m - t.offset.toNat) := by
  have hpre : copied t.offset.toNat t.length.toNat out <+: Token.extend out t := List.prefix_append _ _
  have hoff : 1 ≤ t.offset.toNat := by
    have hne : t.offset ≠ 0 := fun h0 => by simp [hv.1.1 h0] at hm
    exact Nat.one_le_iff_ne_zero.2 fun h0 => hne (BitVec.eq_of_toNat_eq h0)
  rw [byteAt_of_prefix hpre (by simp; omega), byteAt_of_prefix hpre (by simp; omega),
    byteAt_copied _ _ _ hoff hv.2 hm]

theorem Token.byteAt_literal (hl : t.litv = true) : byteAt (Token.extend out t) (out.length + t.length.toNat) = t.lit := by
  simp [Token.extend, hl, byteAt]

end Extend

/-- What a command wrote to OBUF, by `byteAt`. -/
theorem State.obufAt_setOutput_byteAt (s : State) {out : List Byte} {a : Nat} (h : a < out.length) :
    (s.setOutput out).obufAt a = byteAt out a := by
  rw [State.obufAt_setOutput s out h]
  simp [byteAt, h]

/-- OUT_LEN after a command whose output fits OBUF. -/
theorem State.outLen_setOutput_of_fits (s : State) {out : List Byte} (h : out.length ≤ s.obufBytes) :
    (s.setOutput out).outLen.toNat = out.length :=
  s.outLen_setOutput (lt_of_le_of_lt h s.cfg.obufBytes.isLt)

/-! ### One record -/

section Replay

variable {s : State} {t : Token}

theorem replayToken_of_ok {out : List Byte} (h : lzApply s.obufBytes s.output t = .ok out) :
    replayToken t s = .next ((s.setToken t).setOutput out) := by
  rw [replayToken, h]
  rfl

theorem replayToken_of_error {e : ErrorCause} (h : lzApply s.obufBytes s.output t = .error e) :
    replayToken t s = .next (s.fail tokenWrites e) := by
  rw [replayToken, h]
  rfl

theorem State.setToken_setOutput_keeps (out : List Byte) : KeepsUnlisted tokenWrites s ((s.setToken t).setOutput out) := by
  constructor <;> simp [tokenWrites]

/-- R219: a token that is rejected ends in the error of its cause. -/
theorem replayToken_fails {e : ErrorCause} (h : lzApply s.obufBytes s.output t = .error e) :
    ∃ u, replayToken t s = .next u ∧ u.failedWith e.reg.number ∧ KeepsUnlisted tokenWrites s u :=
  ⟨_, replayToken_of_error h, s.failedWith_fail _ e, s.fail_keeps _ e⟩

end Replay

/-- Settles O54: the three checks of R218, each on the tokens it rejects. -/
theorem invalidTokenRecordsRaise : Obligations.InvalidTokenRecordsRaise := by
  intro s off len litv x hoff hlen
  have hrange : ∀ l b, s.outLen.toNat < off.toNat →
      ∃ u, replayToken ⟨off, len, l, b⟩ s = .next u ∧ u.failedWith 0x0302 := fun l b hlt => by
    obtain ⟨u, hu, hf, _⟩ := replayToken_fails
      ((lzApply_invalid s.obufBytes s.output ⟨off, len, l, b⟩).2.2 hoff hlen (by simpa using hlt))
    exact ⟨u, hu, hf⟩
  exact ⟨replayToken_fails ((lzApply_invalid _ _ _).1 rfl hlen), replayToken_fails ((lzApply_invalid _ _ _).2.1 hoff rfl),
    hrange x true, hrange 0 false⟩

/-- A valid token with room, in the terms of the statements: the token registers, OUT_LEN, the bytes before it, its match and its
literal. -/
theorem replayToken_bytes {s : State} {t : Token} (hv : t.validAt s.outLen.toNat)
    (hfit : s.outLen.toNat + t.length.toNat + t.litv.toNat ≤ s.obufBytes) :
    ∃ u, replayToken t s = .next u ∧ u.status = s.status ∧ u.token = t ∧
      u.outLen.toNat = s.outLen.toNat + t.length.toNat + t.litv.toNat ∧ (∀ a < s.outLen.toNat, u.obufAt a = s.obufAt a) ∧
      (∀ m < t.length.toNat, u.obufAt (s.outLen.toNat + m) = u.obufAt (s.outLen.toNat + m - t.offset.toNat)) ∧
      (t.litv = true → u.obufAt (s.outLen.toNat + t.length.toNat) = t.lit) ∧ KeepsUnlisted tokenWrites s u := by
  have hlen := Token.extend_length (out := s.output) (t := t)
  rw [State.output_length] at hlen
  have hbyte : ∀ a, a < s.outLen.toNat + t.length.toNat + t.litv.toNat →
      ((s.setToken t).setOutput (Token.extend s.output t)).obufAt a = byteAt (Token.extend s.output t) a :=
    fun a ha => State.obufAt_setOutput_byteAt _ (hlen ▸ ha)
  have happly : lzApply s.obufBytes s.output t = .ok (Token.extend s.output t) :=
    lzApply_fits (by simpa using hv) (by simpa using hfit)
  refine ⟨_, replayToken_of_ok happly, rfl, rfl, ?_, fun a ha => ?_, fun m hm => ?_, fun hl => ?_,
    State.setToken_setOutput_keeps _⟩
  · exact ((s.setToken t).outLen_setOutput_of_fits (hlen ▸ hfit)).trans hlen
  · rw [hbyte a (by omega), byteAt_of_prefix Token.prefix_extend (by simpa using ha), s.byteAt_output ha]
  · rw [hbyte _ (by omega), hbyte _ (by omega)]
    simpa using Token.byteAt_match (out := s.output) (t := t) (by simpa using hv) hm
  · rw [hbyte _ (by rw [hl]; exact Nat.lt_succ_self _)]
    simpa using Token.byteAt_literal (out := s.output) hl

/-- The output a record leaves, when it is one OUT_LEN can count. -/
theorem replayToken_output {s : State} {t : Token} {out : List Byte} (h : lzApply s.obufBytes s.output t = .ok out)
    (hlt : out.length < 2 ^ 32) : ∃ u, replayToken t s = .next u ∧ u.status = s.status ∧ u.token = t ∧ u.output = out ∧
      KeepsUnlisted tokenWrites s u :=
  ⟨_, replayToken_of_ok h, rfl, rfl, State.output_setOutput _ hlt, State.setToken_setOutput_keeps _⟩

/-- Settles O53: a literal is one byte emitted, NULL appends nothing whatever the room, and a match is `replayToken_bytes`. -/
theorem tokenRecordsReplay : Obligations.TokenRecordsReplay := by
  rintro s x n rfl
  refine ⟨fun hroom => ?_, ?_, fun off len hoff hlen hin => ?_⟩
  · have hlit : lzApply s.obufBytes s.output ⟨0, 0, x, true⟩ = .ok (s.output ++ [x]) :=
      lzApply_fits ⟨Iff.rfl, Nat.zero_le _⟩ (by simpa using hroom)
    have hlt : (s.output ++ [x]).length < 2 ^ 32 := by
      rw [List.length_append, State.output_length]
      exact lt_of_le_of_lt hroom s.cfg.obufBytes.isLt
    exact replayToken_output hlit hlt
  · have hnull : lzApply s.obufBytes s.output ⟨0, 0, 0, false⟩ = .ok s.output := rfl
    exact replayToken_output hnull (by simpa using s.outLen.isLt)
  · have hz : off = 0 ↔ len = 0 := ⟨fun h => absurd h hoff, fun h => absurd h hlen⟩
    refine ⟨fun hroom => ?_, fun hroom => ?_⟩
    · obtain ⟨u, hu, hst, htok, hl, hpre, hmatch, hlit, hk⟩ :=
        replayToken_bytes (s := s) (t := ⟨off, len, x, true⟩) ⟨hz, hin⟩ hroom
      exact ⟨u, hu, hst, htok, hl, hpre, hmatch, hlit rfl, hk⟩
    · obtain ⟨u, hu, hst, htok, hl, hpre, hmatch, _, hk⟩ :=
        replayToken_bytes (s := s) (t := ⟨off, len, 0, false⟩) ⟨hz, hin⟩ hroom
      exact ⟨u, hu, hst, htok, hl, hpre, hmatch, hk⟩

/-! ### Token streams -/

/-- A token record reads back as the token (R217). -/
theorem Token.parse_ser {t : Token} (ht : t.litv = false → t.lit = 0) : Token.parse t.ser = .ok t := by
  have hoff : readBe32 t.ser 0 = t.offset := readBe32_be32 _ _
  have hlen : readBe32 t.ser 4 = t.length :=
    readBe32_be32 t.length [flagsByte t.litv, if t.litv then t.lit else 0]
  have hflags : byteAt t.ser 8 = flagsByte t.litv := rfl
  have hlit : byteAt t.ser 9 = if t.litv then t.lit else 0 := rfl
  have hclear : ¬ flagsByte t.litv &&& 0xFE ≠ 0 := by cases t.litv <;> decide
  have hset : (flagsByte t.litv == 1) = t.litv := by cases t.litv <;> decide
  have hkeep : (if t.litv then if t.litv then t.lit else 0 else 0) = t.lit := by
    cases h : t.litv
    · exact (ht h).symm
    · rfl
  rw [Token.parse, hoff, hlen, hflags, hlit, if_neg hclear, hset]
  dsimp only
  rw [hkeep]

/-- The output a list of valid tokens gives from `out` on. -/
def replayed (out : List Byte) (ts : List Token) : List Byte := ts.foldl Token.extend out

theorem replayed_append (out : List Byte) (pre post : List Token) :
    replayed out (pre ++ post) = replayed (replayed out pre) post := List.foldl_append

theorem prefix_replayed (out : List Byte) (ts : List Token) : out <+: replayed out ts := by
  induction ts generalizing out with
  | nil => exact List.prefix_refl out
  | cons t ts ih => exact Token.prefix_extend.trans (ih _)

theorem producedLength_cons (t : Token) (ts : List Token) :
    producedLength (t :: ts) = t.length.toNat + t.litv.toNat + producedLength ts := by simp [producedLength]

theorem producedLength_append (pre post : List Token) :
    producedLength (pre ++ post) = producedLength pre + producedLength post := by simp [producedLength]

@[simp] theorem replayed_length (out : List Byte) (ts : List Token) :
    (replayed out ts).length = out.length + producedLength ts := by
  induction ts generalizing out with
  | nil => rfl
  | cons t ts ih =>
    rw [replayed, List.foldl_cons, ← replayed, ih, Token.extend_length, producedLength_cons]
    omega

/-- R218: after the bytes of the tokens before it a valid token gives its match, and then its literal. -/
theorem byteAt_replayed {pre post : List Token} {t : Token} (hv : t.validAt (producedLength pre)) :
    (∀ m < t.length.toNat, byteAt (replayed [] (pre ++ t :: post)) (producedLength pre + m) =
      byteAt (replayed [] (pre ++ t :: post)) (producedLength pre + m - t.offset.toNat)) ∧
    (t.litv = true → byteAt (replayed [] (pre ++ t :: post)) (producedLength pre + t.length.toNat) = t.lit) := by
  have hlen : (replayed [] pre).length = producedLength pre := by simp
  have hpre : Token.extend (replayed [] pre) t <+: replayed [] (pre ++ t :: post) := by
    rw [replayed_append]
    exact prefix_replayed _ post
  rw [← hlen] at hv ⊢
  refine ⟨fun m hm => ?_, fun hl => ?_⟩
  · rw [byteAt_of_prefix hpre (by rw [Token.extend_length]; omega), Token.byteAt_match hv hm,
      byteAt_of_prefix hpre (by rw [Token.extend_length]; omega)]
  · rw [byteAt_of_prefix hpre (by rw [Token.extend_length, hl]; exact Nat.lt_succ_self _), Token.byteAt_literal hl]

/-- Tokens that R218 accepts one after another on an output of `n` bytes. -/
def ValidTokens (n : Nat) (ts : List Token) : Prop :=
  ∀ pre t post, ts = pre ++ t :: post → t.validAt (n + producedLength pre)

theorem validTokens_cons {n : Nat} {t : Token} {ts : List Token} (h : ValidTokens n (t :: ts)) :
    t.validAt n ∧ ValidTokens (n + t.length.toNat + t.litv.toNat) ts := by
  refine ⟨h [] t ts rfl, fun pre u post hts => ?_⟩
  have hu := h (t :: pre) u post (by rw [hts, List.cons_append])
  rwa [producedLength_cons, ← Nat.add_assoc, ← Nat.add_assoc] at hu

/-- The record loop on the records of valid tokens with room (R228). -/
theorem replayRecords_ser {cap : Nat} {B : List Byte} {ts : List Token} {a : Nat} {t : Token} {out : List Byte}
    (hB : B.drop a = ts.flatMap Token.ser) (hlit : ∀ t ∈ ts, t.litv = false → t.lit = 0) (hv : ValidTokens out.length ts)
    (hfit : out.length + producedLength ts ≤ cap) :
    replayRecords cap B ts.length a t out = .ok (ts.getLastD t, replayed out ts) := by
  induction ts generalizing a t out with
  | nil => rfl
  | cons u ts ih =>
    obtain ⟨hu, hts⟩ := validTokens_cons hv
    rw [producedLength_cons] at hfit
    have hparse : Token.parse ((B.drop a).take Config.tokenBytes) = .ok u := by
      rw [hB, List.flatMap_cons, Config.tokenBytes, List.take_left' u.ser_length]
      exact Token.parse_ser (hlit u List.mem_cons_self)
    have hdrop : B.drop (a + Config.tokenBytes) = ts.flatMap Token.ser := by
      rw [← List.drop_drop, hB, List.flatMap_cons, Config.tokenBytes, List.drop_left' u.ser_length]
    rw [List.length_cons, replayRecords, hparse, except_ok_bind, lzApply_fits hu (by omega), except_ok_bind,
      ih hdrop (fun t ht => hlit t (List.mem_cons_of_mem _ ht)) (by rwa [Token.extend_length])
        (by rw [Token.extend_length]; omega), List.getLastD_cons]
    rfl

section Lzdecomp

variable {s : State} (hin : s.inLen.toNat ≤ s.ibufBytes)
include hin

/-- R102: LZDECOMP of a stream whose length is no multiple of 10. -/
theorem exec_lzdecomp_trunc (h : s.inLen.toNat % 10 ≠ 0) : exec .lzdecomp s = .next (s.fail tokenWrites .tokenTrunc) := by
  rw [exec, execLzdecomp, requireInput_of_le hin, except_ok_bind, if_pos (by rwa [State.input_length])]
  rfl

/-- LZDECOMP of whole records is its record loop (R228). -/
theorem exec_lzdecomp_records (h : s.inLen.toNat % 10 = 0) : exec .lzdecomp s =
    s.finish tokenWrites ((replayRecords s.obufBytes s.input (s.inLen.toNat / 10) 0 s.token []).map
      fun r => (s.setToken r.1).setOutput r.2) := by
  rw [exec, execLzdecomp, requireInput_of_le hin, except_ok_bind, if_neg (by rwa [State.input_length, not_not]),
    State.input_length]
  rfl

/-- R101: a first record with a reserved flag bit set ends LZDECOMP. -/
theorem exec_lzdecomp_flags (h10 : s.inLen.toNat % 10 = 0) (h0 : s.inLen ≠ 0) (hflag : s.ibufAt 8 &&& 0xFE ≠ 0) :
    exec .lzdecomp s = .next (s.fail tokenWrites .tokenFlags) := by
  have hpos : s.inLen.toNat ≠ 0 := fun h => h0 (BitVec.eq_of_toNat_eq h)
  obtain ⟨n, hn⟩ : ∃ n, s.inLen.toNat / 10 = n + 1 := Nat.exists_eq_succ_of_ne_zero (by omega)
  have hbyte : byteAt ((s.input.drop 0).take Config.tokenBytes) 8 = s.ibufAt 8 := by
    rw [← s.byteAt_input (by omega)]
    simp [byteAt, Config.tokenBytes]
  have hparse : Token.parse ((s.input.drop 0).take Config.tokenBytes) = .error .tokenFlags := by
    rw [Token.parse, hbyte, if_pos hflag]
  rw [exec_lzdecomp_records hin h10, hn, replayRecords, hparse]
  rfl

/-- LZDECOMP of the records of valid tokens with room. -/
theorem exec_lzdecomp_ser {ts : List Token} (hs : s.input = ts.flatMap Token.ser)
    (hlit : ∀ t ∈ ts, t.litv = false → t.lit = 0) (hv : ValidTokens 0 ts) (hfit : producedLength ts ≤ s.obufBytes) :
    exec .lzdecomp s = .next ((s.setToken (ts.getLastD s.token)).setOutput (replayed [] ts)).complete := by
  have hlen : s.inLen.toNat = 10 * ts.length := by
    rw [← s.input_length, hs]
    simp [List.length_flatMap, Nat.mul_comm]
  rw [exec_lzdecomp_records hin (by omega), show s.inLen.toNat / 10 = ts.length by omega,
    replayRecords_ser (out := []) (by simpa using hs) hlit hv (by simpa using hfit)]
  rfl

end Lzdecomp

/-- Settles O47: the record loop gives `replayed`, and `byteAt_replayed` reads its bytes token by token. -/
theorem lzdecompReplaysTokenStream : Obligations.LzdecompReplaysTokenStream := by
  intro s hin
  refine ⟨fun ts hs hlit hv hfit => ?_, fun h => ⟨_, exec_lzdecomp_trunc hin h, s.failedWith_fail _ _⟩,
    fun h10 h0 hflag => ⟨_, exec_lzdecomp_flags hin h10 h0 hflag, s.failedWith_fail _ _⟩⟩
  have hvalid : ValidTokens 0 ts := fun pre t post hts => by
    rw [Nat.zero_add]
    exact hv pre t post hts
  have hlen : (replayed [] ts).length = producedLength ts := by simp
  have hbyte : ∀ a < producedLength ts,
      ((s.setToken (ts.getLastD s.token)).setOutput (replayed [] ts)).complete.obufAt a = byteAt (replayed [] ts) a :=
    fun a ha => State.obufAt_setOutput_byteAt _ (hlen ▸ ha)
  refine ⟨_, exec_lzdecomp_ser hin hs hlit hvalid hfit, ⟨rfl, rfl⟩, ?_, rfl, ?_⟩
  · exact (State.outLen_setOutput_of_fits _ (hlen ▸ hfit)).trans hlen
  · rintro pre t post n rfl rfl
    obtain ⟨hmatch, hlitb⟩ := byteAt_replayed (hv pre t post rfl)
    have hroom : producedLength pre + t.length.toNat + t.litv.toNat ≤ producedLength (pre ++ t :: post) := by
      rw [producedLength_append, producedLength_cons]
      omega
    refine ⟨fun m hm => ?_, fun hl => ?_⟩
    · rw [hbyte _ (by omega), hbyte _ (by omega), hmatch m hm]
    · rw [hbyte _ (by rw [hl, Bool.toNat_true] at hroom; omega), hlitb hl]

end Sys2Proof.Machine
end

section
/-! PROOFS. The frequency count (R120, and R121 for the empty input): FREQ completes with its body, each counter is the number of
positions of its symbol since no input is longer than a 32-bit counter can count, and the tree and the code table are cleared. -/

namespace Sys2Proof.Machine

/-- R120: FREQ on an input that fits IBUF. -/
theorem exec_freq_of_le {s : State} (h : s.inLen.toNat ≤ s.ibufBytes) :
    exec .freq s = .next (freqBody s.input s).complete := by
  rw [exec, execFreq, requireInput_of_le h]
  rfl

/-- R120: how often a byte occurs in the input is at how many positions it stands. -/
theorem State.count_input (s : State) (b : Byte) :
    s.input.count b = ((List.range s.inLen.toNat).filter fun a => s.ibufAt a == b).length := by
  rw [State.input, List.count, List.countP_map, List.countP_eq_length_filter]
  rfl

/-- R120, R32: no 32-bit counter overflows, since no symbol occurs more often than the input is long. -/
theorem freqCount_at_toNat {D : List Byte} (h : D.length < 2 ^ 32) (b : Byte) : ((freqCount D).at b).toNat = D.count b := by
  have hcount : D.count b < 2 ^ 32 := List.count_le_length.trans_lt h
  rw [FreqTable.at, freqCount, getElem_tabulate, BitVec.ofNat_toNat, BitVec.setWidth_eq, BitVec.toNat_ofNat,
    Nat.mod_eq_of_lt hcount]

/-- Settles O21: FREQ completes with its body, whose counters are the counts of the input and whose other writes are constants. -/
theorem freqCountsPositions : Obligations.FreqCountsPositions := by
  intro s hs
  refine ⟨_, exec_freq_of_le hs, ⟨rfl, rfl⟩, fun b => ?_, rfl, rfl, CodeTable.at_empty, rfl⟩
  have hlen : s.input.length < 2 ^ 32 := s.input_length.trans_lt s.inLen.isLt
  exact (freqCount_at_toNat hlen b).trans (s.count_input b)

end Sys2Proof.Machine
end

section
/-! PROOFS. The arbitration order of the priority queue (R131, R132): the key of a member, and the member `extract_min` hands out. -/

namespace Sys2Proof.Machine

variable {nodes : List Node} {pq : List Nat} {a b : Nat}

/-- `key(k) = (NODE[k].FRQ, k)`, the first component deciding (R131). -/
def key (nodes : List Node) (k : Nat) : ℕ ×ₗ ℕ := toLex ((frqAt nodes k).toNat, k)

theorem key_lt_iff : key nodes a < key nodes b ↔
    (frqAt nodes a).toNat < (frqAt nodes b).toNat ∨ (frqAt nodes a = frqAt nodes b ∧ a < b) := by
  simp only [key, Prod.Lex.toLex_lt_toLex, BitVec.toNat_inj]

theorem keyBefore_iff : keyBefore nodes a b = true ↔ key nodes a < key nodes b := by
  simp [keyBefore, key_lt_iff]

/-- No two indices have one key. -/
theorem key_injective (nodes : List Node) : Function.Injective (key nodes) :=
  fun _ _ h => congrArg (fun x => (ofLex x).2) h

/-- The minimum of a queue comes first: no member has a smaller key (R132). -/
theorem key_pqMin_le (nodes : List Node) (k : Nat) (pq : List Nat) :
    ∀ x ∈ k :: pq, key nodes (pqMin nodes k pq) ≤ key nodes x := by
  induction pq generalizing k with
  | nil => simp [pqMin]
  | cons y pq ih =>
    have hturn : key nodes (if keyBefore nodes y k then y else k) ≤ key nodes k ∧
        key nodes (if keyBefore nodes y k then y else k) ≤ key nodes y := by
      split
      · next h => exact ⟨(keyBefore_iff.1 h).le, le_rfl⟩
      · next h => exact ⟨le_rfl, not_lt.1 fun hc => h (keyBefore_iff.2 hc)⟩
    rw [pqMin, List.foldl_cons, ← pqMin]
    generalize (if keyBefore nodes y k then y else k) = m at hturn ⊢
    obtain ⟨hk, hy⟩ := hturn
    obtain ⟨hm, hrest⟩ := List.forall_mem_cons.1 (ih m)
    exact List.forall_mem_cons.2 ⟨hm.trans hk, List.forall_mem_cons.2 ⟨hm.trans hy, hrest⟩⟩

/-- Everything the member handed out is: in the queue, which is left without it, and before every other member (R131, R132). -/
theorem extractMin_some {rest : List Nat} (h : extractMin nodes pq = some (a, rest)) :
    a ∈ pq ∧ rest = pq.erase a ∧ ∀ x ∈ pq, x ≠ a → key nodes a < key nodes x := by
  cases pq with
  | nil => cases h
  | cons k pq =>
    cases h
    refine ⟨pqMin_mem nodes k pq, rfl, fun x hx hne => (key_pqMin_le nodes k pq x hx).lt_of_ne fun hc => ?_⟩
    exact hne (key_injective nodes hc).symm

/-- Settles O22: a queue with a member hands one out (`extractMin_cases`), and it is the one with the least key. -/
theorem extractMinIsFirst : Obligations.ExtractMinIsFirst := by
  intro nodes pq
  refine ⟨fun hne => ?_, fun k rest h => ?_⟩
  · rcases extractMin_cases nodes pq with ⟨hnil, _⟩ | ⟨a, _, he⟩
    · exact absurd hnil hne
    · exact ⟨a, _, he⟩
  · obtain ⟨hmem, hrest, hfirst⟩ := extractMin_some h
    exact ⟨hmem, hrest, fun x hx hne => key_lt_iff.1 (hfirst x hx hne)⟩

end Sys2Proof.Machine
end

section
/-! PROOFS. What TBUILD builds (R130, R133, R136, R137): the leaves in ascending order of symbol, which the merge loop leaves in
front, and one node less than two per leaf, the last one ROOT. -/

namespace Sys2Proof.Machine

/-! ### The leaves (R130) -/

/-- The present symbols in ascending order (R122). -/
def FreqTable.present (F : FreqTable) : List Nat :=
  (List.range 256).filter fun b => decide (0 < (F.at (BitVec.ofNat 8 b)).toNat)

/-- The leaf of symbol `b` (R130). -/
def FreqTable.leaf (F : FreqTable) (b : Nat) : Node := Node.ofSymbol (BitVec.ofNat 8 b) (F.at (BitVec.ofNat 8 b))

/-- The counters with their symbols, in ascending order of symbol. -/
theorem FreqTable.toList_zipIdx (F : FreqTable) :
    F.toList.zipIdx = (List.range 256).map fun b => (F.at (BitVec.ofNat 8 b), b) := by
  refine List.ext_getElem (by simp) fun k _ h => ?_
  have hk : k < 256 := by simpa using h
  simp [FreqTable.at, Nat.mod_eq_of_lt hk]

theorem treeLeaves_eq (F : FreqTable) : treeLeaves F = F.present.map F.leaf := by
  rw [treeLeaves, FreqTable.toList_zipIdx, List.filterMap_map, FreqTable.present, ← List.filterMap_eq_map,
    List.filterMap_filter]
  refine List.filterMap_congr fun b _ => ?_
  simp [FreqTable.leaf]

@[simp] theorem treeLeaves_length (F : FreqTable) : (treeLeaves F).length = F.present.length := by
  rw [treeLeaves_eq, List.length_map]

/-! ### The merge loop (R134) -/

/-- What two extractions and the merge of what they hand out keep, the merge loop keeps. -/
theorem mergeLoop_keeps {P : List Node → List Nat → Prop}
    (hmerge : ∀ nodes pq a b, P nodes pq → extractMin nodes pq = some (a, pq.erase a) →
      extractMin nodes (pq.erase a) = some (b, (pq.erase a).erase b) →
      P (nodes ++ [Node.ofChildren (frqAt nodes a + frqAt nodes b) a b]) ((pq.erase a).erase b ++ [nodes.length]))
    (fuel : Nat) {nodes : List Node} {pq : List Nat} (h : P nodes pq) :
    P (mergeLoop fuel nodes pq).1 (mergeLoop fuel nodes pq).2 := by
  induction fuel generalizing nodes pq with
  | zero => exact h
  | succ fuel ih =>
    unfold mergeLoop
    rcases extractMin_cases nodes pq with ⟨_, ha⟩ | ⟨a, _, ha⟩ <;> rw [ha] <;> dsimp only
    · exact h
    · rcases extractMin_cases nodes (pq.erase a) with ⟨_, hb⟩ | ⟨b, _, hb⟩ <;> rw [hb] <;> dsimp only
      · exact h
      · exact ih (hmerge nodes pq a b h ha hb)

/-- The leaves stay in front. -/
theorem treeLeaves_prefix_buildTree (F : FreqTable) : treeLeaves F <+: (buildTree F).1 :=
  mergeLoop_keeps (P := fun nodes _ => treeLeaves F <+: nodes) (fun _ _ _ _ h _ _ => h.trans (List.prefix_append _ _))
    _ List.prefix_rfl

/-- R130: node `k` is the leaf of the `k`-th present symbol. -/
theorem buildTree_getElem?_leaf (F : FreqTable) {k : Nat} (h : k < F.present.length) :
    (buildTree F).1[k]? = some (F.leaf F.present[k]) := by
  obtain ⟨merged, hmerged⟩ := treeLeaves_prefix_buildTree F
  rw [← hmerged, List.getElem?_append_left (by simpa using h), treeLeaves_eq, List.getElem?_map, List.getElem?_eq_getElem h,
    Option.map_some]

/-- R133: `n` leaves make `2n - 1` nodes. -/
theorem buildTree_length (F : FreqTable) : (buildTree F).1.length = 2 * F.present.length - 1 := by
  obtain ⟨hforest, hone⟩ := mergeLoop_forest (treeLeaves_length_le F) (fuel := (treeLeaves F).length) (Forest.leaves F) (by simp)
  have hroot := fun h => List.length_pos_of_mem (hforest.last h)
  have hsize := hforest.size
  rw [← treeLeaves_length, buildTree]
  dsimp only
  omega

theorem tbuildBody_nnodes (s : State) : (tbuildBody s).nnodes.toNat = 2 * s.freq.present.length - 1 := by
  have := (buildTree_treeOk s.freq s.node).small
  simp only [tbuildBody, BitVec.toNat_ofNat, buildTree_length] at this ⊢
  omega

/-- TBUILD cannot fail (R134). -/
theorem exec_tbuild_eq (s : State) : exec .tbuild s = .next (tbuildBody s).complete := rfl

/-- A node that TBUILD built. -/
theorem tbuildBody_node_at {s : State} {k : Nat} {x : Node} (h : (buildTree s.freq).1[k]? = some x) :
    (tbuildBody s).node.at (BitVec.ofNat 9 k) = x := by
  have hk := (List.getElem?_eq_some_iff.1 h).1
  have := (buildTree_treeOk s.freq s.node).small
  exact at_storeNodes s.node (by omega) h

theorem tbuildBody_node_at_index {s : State} {i : NodeIndex} (h : i.toNat < (buildTree s.freq).1.length) :
    (tbuildBody s).node.at i = (buildTree s.freq).1[i.toNat] := by
  simpa only [BitVec.ofNat_toNat, BitVec.setWidth_eq] using tbuildBody_node_at (List.getElem?_eq_getElem h)

/-- Settles O23: the leaves are `treeLeaves_eq` and stay in front, the forest of one root has `2n - 1` nodes, and the other writes
are constants. -/
theorem tbuildLeavesAndCounts : Obligations.TbuildLeavesAndCounts := by
  rintro s _ rfl
  have htree := tbuildBody_treeOk s
  rw [tbuildBody_nnodes] at htree
  refine ⟨_, exec_tbuild_eq s, ⟨rfl, rfl⟩, fun k hk => tbuildBody_node_at (buildTree_getElem?_leaf s.freq hk),
    fun hnil => ?_, fun hne => ?_, CodeTable.at_empty, rfl⟩
  · have hzero : s.freq.present.length = 0 := List.length_eq_zero_iff.2 hnil
    exact ⟨BitVec.eq_of_toNat_eq ((tbuildBody_nnodes s).trans (by simp [hzero])), htree.empty (by omega)⟩
  · have hpos : 0 < s.freq.present.length := List.length_pos_iff.2 hne
    exact ⟨tbuildBody_nnodes s, (htree.last (by omega)).trans (by simp only [FreqTable.present]; omega)⟩

end Sys2Proof.Machine
end

section
/-! PROOFS. The order of the children (R131, R134, R135, R138): every node that the merge loop adds has the frequency of its
children together and the child of smaller key on the left, and nodes added later change no key. -/

namespace Sys2Proof.Machine

variable {m : Nat} {nodes : List Node} {pq : List Nat} {a b k : Nat} {x y : Node}

/-! ### Keys -/

theorem frqAt_of_getElem? (h : nodes[k]? = some x) : frqAt nodes k = x.frq := by
  rw [frqAt, h, Option.map_some, Option.getD_some]

theorem frqAt_concat (h : k < nodes.length) : frqAt (nodes ++ [y]) k = frqAt nodes k := by
  rw [frqAt, List.getElem?_append_left h, frqAt]

theorem key_concat (h : k < nodes.length) : key (nodes ++ [y]) k = key nodes k := by
  rw [key, frqAt_concat h, key]

/-! ### Merged nodes -/

/-- `x` merges two of `nodes`: SYM is 0, FRQ is the children's together, LEFT comes before RIGHT (R134, R135). -/
structure Node.Merges (nodes : List Node) (x : Node) : Prop where
  sym : x.sym = 0
  left_lt : x.left.toNat < nodes.length
  right_lt : x.right.toNat < nodes.length
  frq : x.frq = frqAt nodes x.left.toNat + frqAt nodes x.right.toNat
  first : key nodes x.left.toNat < key nodes x.right.toNat

theorem Node.Merges.concat (h : x.Merges nodes) : x.Merges (nodes ++ [y]) where
  sym := h.sym
  left_lt := by simpa using h.left_lt.le
  right_lt := by simpa using h.right_lt.le
  frq := by rw [frqAt_concat h.left_lt, frqAt_concat h.right_lt, h.frq]
  first := by simpa only [key_concat h.left_lt, key_concat h.right_lt] using h.first

theorem Node.merges_ofChildren (hn : nodes.length ≤ 512) (ha : a < nodes.length) (hb : b < nodes.length)
    (h : key nodes a < key nodes b) : (Node.ofChildren (frqAt nodes a + frqAt nodes b) a b).Merges nodes := by
  have hleft : (BitVec.ofNat 9 a).toNat = a := Nat.mod_eq_of_lt (by omega)
  have hright : (BitVec.ofNat 9 b).toNat = b := Nat.mod_eq_of_lt (by omega)
  constructor <;> simp only [Node.ofChildren, hleft, hright, ha, hb, h]

/-- Every Internal node built so far merges two of them. -/
def AllMerged (nodes : List Node) : Prop := ∀ x ∈ nodes, x.kind = .internal → x.Merges nodes

/-- The two members that are handed out one after the other are different roots, so the first comes before the second. -/
theorem Forest.merge_allMerged (h : Forest m nodes pq) (hm : m ≤ 256) (hn : AllMerged nodes)
    (ha : extractMin nodes pq = some (a, pq.erase a))
    (hb : extractMin nodes (pq.erase a) = some (b, (pq.erase a).erase b)) :
    AllMerged (nodes ++ [Node.ofChildren (frqAt nodes a + frqAt nodes b) a b]) := by
  obtain ⟨ha, _, hfirst⟩ := extractMin_some ha
  obtain ⟨hba, hb⟩ := h.nodup.mem_erase_iff.1 (extractMin_some hb).1
  intro x hx hi
  rcases List.mem_append.1 hx with hx | hx
  · exact (hn x hx hi).concat
  · rw [List.mem_singleton.1 hx]
    exact (Node.merges_ofChildren (h.length_lt hm ha).le (h.inUse a ha) (h.inUse b hb) (hfirst b hb hba)).concat

theorem buildTree_allMerged (F : FreqTable) : AllMerged (buildTree F).1 := by
  have hm := treeLeaves_length_le F
  refine (mergeLoop_keeps (P := fun nodes pq => Forest (treeLeaves F).length nodes pq ∧ AllMerged nodes) ?_ _
    ⟨Forest.leaves F, fun x hx hi => ?_⟩).2
  · rintro nodes pq a b ⟨h, hn⟩ ha hb
    exact ⟨h.merge hm _ (extractMin_some ha).1 (extractMin_some hb).1, h.merge_allMerged hm hn ha hb⟩
  · rw [treeLeaves_leaf hx] at hi
    cases hi

theorem tbuildBody_frq_at {s : State} {i : NodeIndex} (h : i.toNat < (buildTree s.freq).1.length) :
    ((tbuildBody s).node.at i).frq = frqAt (buildTree s.freq).1 i.toNat := by
  rw [tbuildBody_node_at_index h, frqAt_of_getElem? (List.getElem?_eq_getElem h)]

/-- Settles O24: the merge loop keeps `AllMerged`, and the store holds the nodes built. -/
theorem tbuildLeftComesFirst : Obligations.TbuildLeftComesFirst := by
  rintro s t k n l r h hk rfl hi rfl rfl
  cases (exec_tbuild_eq s).symm.trans h
  simp only [State.complete_node, State.complete_nnodes, tbuildBody_nnodes, ← buildTree_length] at hk hi ⊢
  rw [tbuildBody_node_at (List.getElem?_eq_getElem hk)] at hi ⊢
  obtain ⟨hsym, hl, hr, hfrq, hfirst⟩ := buildTree_allMerged s.freq _ (List.getElem_mem hk) hi
  rw [tbuildBody_frq_at hl, tbuildBody_frq_at hr]
  exact ⟨hsym, hfrq, key_lt_iff.1 hfirst⟩

end Sys2Proof.Machine
end

section
/-! PROOFS. HCOMP on few symbols (R141, R153, R185, R186): a path of a tree leaves at least one Internal node per edge behind, and
the leaves are the first nodes, so with at most 17 leaves none is deeper than 16; the block of a table is at most its entries and
two bytes per byte of input. -/

namespace Sys2Proof.Machine

/-! ### Which nodes are leaves -/

/-- The merge loop adds no leaf. -/
theorem buildTree_leaf_mem {F : FreqTable} : ∀ x ∈ (buildTree F).1, x.kind = .leaf → x ∈ treeLeaves F := by
  refine mergeLoop_keeps (P := fun nodes _ => ∀ x ∈ nodes, x.kind = .leaf → x ∈ treeLeaves F) ?_ _ fun _ hx _ => hx
  intro nodes pq a b h _ _ x hx hl
  rcases List.mem_append.1 hx with hx | hx
  · exact h x hx hl
  · rw [List.mem_singleton.1 hx] at hl
    cases hl

/-- The first nodes are the leaves. -/
theorem buildTree_internal_ge {F : FreqTable} {k : Nat} {x : Node} (hx : (buildTree F).1[k]? = some x) (hi : x.kind = .internal) :
    F.present.length ≤ k := by
  by_contra hk
  rw [buildTree_getElem?_leaf F (not_le.1 hk)] at hx
  cases hx
  cases hi

theorem tbuildBody_internal_ge {s : State} {k : NodeIndex} (hk : k.toNat < (tbuildBody s).nnodes.toNat)
    (hi : ((tbuildBody s).node.at k).kind = .internal) : s.freq.present.length ≤ k.toNat := by
  rw [tbuildBody_nnodes, ← buildTree_length] at hk
  rw [tbuildBody_node_at_index hk] at hi
  exact buildTree_internal_ge (List.getElem?_eq_getElem hk) hi

theorem tbuildBody_leaf_mem {s : State} {k : NodeIndex} (hk : k.toNat < (tbuildBody s).nnodes.toNat)
    (hl : ((tbuildBody s).node.at k).kind = .leaf) : (tbuildBody s).node.at k ∈ treeLeaves s.freq := by
  rw [tbuildBody_nnodes, ← buildTree_length] at hk
  rw [tbuildBody_node_at_index hk] at hl ⊢
  exact buildTree_leaf_mem _ (List.getElem_mem hk) hl

/-! ### DERIVE on a tree of few leaves -/

theorem FreqTable.present_of_anyPresent {F : FreqTable} (h : F.anyPresent = true) : F.present ≠ [] := by
  rw [FreqTable.anyPresent, ← List.zipIdx_map_fst 0 F.toList, F.toList_zipIdx, List.map_map, List.any_map, List.any_eq_true] at h
  obtain ⟨b, hb, hpos⟩ := h
  exact List.ne_nil_of_mem (List.mem_filter.2 ⟨hb, hpos⟩)

/-- The codes below an Internal node are those below its children (R152). -/
theorem deriveLeaves_internal {N : NodeStore} {fuel : Nat} {k : NodeIndex} {p : Bits} {l r : List (Byte × Bits)}
    (hi : (N.at k).kind = .internal) (hl : deriveLeaves N fuel (edge N k false) (p ++ [false]) = .ok l)
    (hr : deriveLeaves N fuel (edge N k true) (p ++ [true]) = .ok r) : deriveLeaves N (fuel + 1) k p = .ok (l ++ r) := by
  simp only [edge, Bool.false_eq_true, if_false, if_true] at hl hr
  rw [deriveLeaves, hi]
  dsimp only
  rw [hl, except_ok_bind, hr, except_ok_bind]

section Tree

variable {N : NodeStore} {n m : Nat} {root : NodeIndex}

/-- Below a node of index less than `m + fuel` the walk of R152 needs no more than `fuel` edges, where every Internal node has
index `m` or more. -/
theorem TreeOk.deriveLeaves_completes (h : TreeOk N n root)
    (hm : ∀ k : NodeIndex, k.toNat < n → (N.at k).kind = .internal → m ≤ k.toNat) {fuel : Nat} {k : NodeIndex}
    (hk : k.toNat < n) (hf : k.toNat < m + fuel) (p : Bits) : ∃ codes, deriveLeaves N (fuel + 1) k p = .ok codes := by
  induction fuel generalizing k p with
  | zero =>
    cases hi : (N.at k).kind with
    | leaf => exact ⟨_, by rw [deriveLeaves, hi]⟩
    | internal => exact absurd (hm k hk hi) (by omega)
  | succ fuel ih =>
    cases hi : (N.at k).kind with
    | leaf => exact ⟨_, by rw [deriveLeaves, hi]⟩
    | internal =>
      have below : ∀ b, ∃ codes, deriveLeaves N (fuel + 1) (edge N k b) (p ++ [b]) = .ok codes := fun b => by
        have := h.edge_lt hk hi b
        exact ih (by omega) (by omega) _
      obtain ⟨l, hl⟩ := below false
      obtain ⟨r, hr⟩ := below true
      exact ⟨l ++ r, deriveLeaves_internal hi hl hr⟩

/-- R153: with `m` leaves first and at most 16 Internal nodes after them no leaf is too deep. -/
theorem TreeOk.deriveTable_completes (h : TreeOk N n root)
    (hm : ∀ k : NodeIndex, k.toNat < n → (N.at k).kind = .internal → m ≤ k.toNat) {present : Bool} (hroot : n ≤ m + 16)
    (hp : present = true → n ≠ 0) : ∃ T c, deriveTable N root present = .ok (T, c) := by
  unfold deriveTable
  split
  · next hnull =>
    have hn : n = 0 := by
      by_contra hn
      have hlast := h.last hn
      have hsmall := h.small
      rw [hnull] at hlast
      change 511 = n - 1 at hlast
      omega
    rw [if_neg fun ht => hp ht hn]
    exact ⟨_, _, rfl⟩
  · next hnull =>
    obtain ⟨hlast, hpos⟩ := h.root_lt hnull
    split
    · exact ⟨_, _, rfl⟩
    · obtain ⟨codes, hc⟩ := h.deriveLeaves_completes hm (fuel := Config.codeMax) (k := root) (by omega)
        (by simp only [Config.codeMax]; omega) []
      exact ⟨_, _, by rw [hc]; rfl⟩

/-- The table has no more entries than the symbols of leaves that a list holds. -/
theorem TreeOk.derive_le_length (h : TreeOk N n root) {present : Bool} {T : CodeTable} {c : Nat} {L : List Byte}
    (hL : ∀ k : NodeIndex, k.toNat < n → (N.at k).kind = .leaf → (N.at k).sym ∈ L)
    (hd : deriveTable N root present = .ok (T, c)) : c ≤ max 1 L.length := by
  rcases deriveTable_ok hd with ⟨_, _, rfl⟩ | ⟨codes, hn, _, rfl, _, hp, ⟨s, rfl⟩ | hl⟩
  · omega
  · simp
  · obtain ⟨hlast, hpos⟩ := h.root_lt hn
    have hsub : codes.map Prod.fst ⊆ L := by
      intro s hs
      obtain ⟨c, hc, rfl⟩ := List.mem_map.1 hs
      obtain ⟨p, j, _, _, hr, hj, hsym⟩ := hl c hc
      have hle := h.reaches_le (by omega) hr
      exact hsym ▸ hL j (by omega) hj
    have := (List.subperm_of_subset (h.symbols_nodup hn hl hp) hsub).length_le
    rw [List.length_map] at this
    omega

end Tree

/-! ### The length of a block (R185) -/

/-- Every code has at most 16 bits (R35). -/
theorem CodeTable.Good.code_length_le {T : CodeTable} (h : T.Good) (s : Byte) : (T.at s).code.length ≤ 16 := by
  rw [CtEntry.code_length]
  cases hv : (T.at s).valid with
  | true => exact (CtEntry.legal_bits (h.legal s) hv).2.1
  | false =>
    have hinvalid : T.at s = CtEntry.invalid := by simpa [CtEntry.legal, hv] using h.legal s
    simp [hinvalid, CtEntry.invalid]

theorem CodeTable.Good.codeStream_length_le {T : CodeTable} (h : T.Good) (D : List Byte) :
    (codeStream T D).length ≤ 16 * D.length := by
  induction D with
  | nil => simp [codeStream]
  | cons b D ih =>
    have hb := h.code_length_le b
    rw [codeStream] at ih ⊢
    rw [List.flatMap_cons, List.length_append, List.length_cons]
    omega

theorem CodeTable.Good.pack_length_le {T : CodeTable} (h : T.Good) (D : List Byte) : (pack T D).1.length ≤ 2 * D.length := by
  have hbits := h.codeStream_length_le D
  simp only [pack, bytesOfBits_length, padCount]
  omega

theorem huffBlock_length_le {T : CodeTable} (h : T.Good) (D : List Byte) :
    (huffBlock T T.count D).length ≤ 3 + 4 * max 2 T.count + 2 * D.length := by
  have hpack := h.pack_length_le D
  unfold huffBlock
  split
  · simp only [List.length_cons, List.length_nil]
    omega
  · split
    · simp only [List.length_append, List.length_singleton, serTable_length, be32_length]
      omega
    · simp only [List.length_append, List.length_singleton, serTable_length]
      omega

/-! ### HCOMP -/

theorem deriveBody_of_table {s : State} {T : CodeTable} {n : Nat}
    (h : deriveTable s.node s.root s.freq.anyPresent = .ok (T, n)) : deriveBody s = .ok (s.setCodeTable T n) := by
  rw [deriveBody, h]
  rfl

/-- R186: HCOMP when the tree has a table and the block fits. -/
theorem exec_hcomp_of_fits {s u : State} (hin : s.inLen.toNat ≤ s.ibufBytes)
    (hd : deriveBody (tbuildBody (freqBody s.input s)) = .ok u)
    (hfits : (huffBlock u.ct u.nsym.toNat s.input).length ≤ s.obufBytes) : ∃ t, exec .hcomp s = .next t ∧ t.completed := by
  rw [exec, execHcomp, requireInput_of_le hin, except_ok_bind, hd, except_ok_bind]
  dsimp only
  rw [if_neg (not_lt.2 hfits)]
  exact ⟨_, rfl, rfl, rfl⟩

/-- R120: only symbols of the input become leaves. -/
theorem freqCount_leaf_sym_mem {D : List Byte} {x : Node} (h : x ∈ treeLeaves (freqCount D)) : x.sym ∈ D := by
  rw [treeLeaves_eq] at h
  obtain ⟨b, hb, rfl⟩ := List.mem_map.1 h
  have hpos := of_decide_eq_true (List.mem_filter.1 hb).2
  by_contra hnot
  change BitVec.ofNat 8 b ∉ D at hnot
  rw [FreqTable.at, freqCount, getElem_tabulate, BitVec.ofNat_toNat, BitVec.setWidth_eq, List.count_eq_zero_of_not_mem hnot] at hpos
  exact absurd hpos (by decide)

/-- There are as many leaves as the input has different symbols, at most. -/
theorem freqCount_present_length_le (D : List Byte) : (freqCount D).present.length ≤ D.dedup.length := by
  have hnodup : ((treeLeaves (freqCount D)).map Node.sym).Nodup := List.pairwise_map.2 (treeLeaves_symbols _)
  have hsub : (treeLeaves (freqCount D)).map Node.sym ⊆ D.dedup := fun s hs => by
    obtain ⟨x, hx, rfl⟩ := List.mem_map.1 hs
    exact List.mem_dedup.2 (freqCount_leaf_sym_mem hx)
  simpa using (List.subperm_of_subset hnodup hsub).length_le

/-- Settles O38: few symbols give a tree of few leaves, on which DERIVE completes with a table of few entries. -/
theorem hcompCompletesOnFewSymbols : Obligations.HcompCompletesOnFewSymbols := by
  intro s hin hfew hroom
  have htree := tbuildBody_treeOk (freqBody s.input s)
  have hleaves : (freqBody s.input s).freq.present.length ≤ 17 := (freqCount_present_length_le s.input).trans hfew
  have hnodes := tbuildBody_nnodes (freqBody s.input s)
  obtain ⟨T, n, hd⟩ := htree.deriveTable_completes (present := (freqBody s.input s).freq.anyPresent)
    (fun _ => tbuildBody_internal_ge) (by omega) fun hp => by
      have := List.length_pos_iff.2 (FreqTable.present_of_anyPresent hp)
      omega
  have hcount := htree.count_derive hd
  have hn : n ≤ max 1 s.input.dedup.length := htree.derive_le_length
    (fun k hk hl => List.mem_dedup.2 (freqCount_leaf_sym_mem (tbuildBody_leaf_mem hk hl))) hd
  have hblock := huffBlock_length_le (deriveTable_good hd) s.input
  have hnsym : (BitVec.ofNat 9 n).toNat = n := Nat.mod_eq_of_lt (by omega)
  refine exec_hcomp_of_fits hin (deriveBody_of_table hd) ?_
  rw [State.setCodeTable_ct, State.setCodeTable_nsym, hnsym, ← hcount]
  rw [State.input_length] at hblock
  omega

end Sys2Proof.Machine
end

section
/-! PROOFS. Parsing a serialized table (R157 to R159, R189, R272): the header's checks, the entries in stored order up to the first
that fails a check, and the table that entries without a fault make; what TDES and HDECOMP do with it, and that a written table is
read back. -/

namespace Sys2Proof.Machine

/-! ### The header (R157) -/

section Header

variable {B : List Byte} {p : Nat}

theorem parseTable_hdrTrunc (h : B.length < p + 2) : parseTable B p = .error .hdrTrunc := if_pos h

variable (h2 : p + 2 ≤ B.length)
include h2

theorem parseTable_countRange (hn : 256 < (readBe16 B p).toNat) : parseTable B p = .error .countRange :=
  (if_neg (not_lt.2 h2)).trans (if_pos hn)

variable (hn : (readBe16 B p).toNat ≤ 256)
include hn

theorem parseTable_tableTrunc (h : B.length < p + 2 + 4 * (readBe16 B p).toNat) : parseTable B p = .error .tableTrunc :=
  (if_neg (not_lt.2 h2)).trans ((if_neg (not_lt.2 hn)).trans (if_pos h))

end Header

/-- R157: with a header that passes, the entries and the test of their codes are left. -/
theorem parseTable_of_header {B : List Byte} {p n : Nat} (hn : n = (readBe16 B p).toNat) (h256 : n ≤ 256)
    (hl : p + 2 + 4 * n ≤ B.length) : parseTable B p =
      addEntries B n (p + 2) CodeTable.empty >>= fun T => if T.prefixFree then .ok (T, n) else .error .notPrefixFree := by
  subst hn
  have h2 : p + 2 ≤ B.length := by omega
  exact (if_neg (not_lt.2 h2)).trans ((if_neg (not_lt.2 h256)).trans (if_neg (not_lt.2 hl)))

/-! ### The entries in stored order (R157) -/

/-- The last of `j + 1` entries is added to the table of the first `j`. -/
theorem addEntries_succ (B : List Byte) (p j : Nat) (T : CodeTable) : addEntries B (j + 1) (p + 2) T =
    addEntries B j (p + 2) T >>= fun U => addEntry U (entrySym B p j) (entryLen B p j) (entryBits B p j) := by
  induction j generalizing p T with
  | zero => exact bind_pure _
  | succ j ih =>
    have hsym : entrySym B (p + 4) j = entrySym B p (j + 1) := congrArg (byteAt B) (by omega)
    have hlen : entryLen B (p + 4) j = entryLen B p (j + 1) := congrArg (byteAt B) (by omega)
    have hbits : entryBits B (p + 4) j = entryBits B p (j + 1) := congrArg (readBe16 B) (by omega)
    rw [addEntries, addEntries, bind_assoc]
    refine congrArg _ (funext fun T' => ?_)
    rw [← hsym, ← hlen, ← hbits]
    exact ih (p + 4) T'

/-- The first entry that fails a check ends the table (R272). -/
theorem addEntries_error_of_le {B : List Byte} {p j n : Nat} {T : CodeTable} {e : ErrorCause} (hj : j ≤ n)
    (h : addEntries B j (p + 2) T = .error e) : addEntries B n (p + 2) T = .error e := by
  induction n, hj using Nat.le_induction with
  | base => exact h
  | succ n _ ih => rw [addEntries_succ, ih, except_error_bind]

/-- The table `U` holds the first `j` entries, and no other. -/
structure HoldsEntries (B : List Byte) (p j : Nat) (U : CodeTable) : Prop where
  entry : ∀ k < j, U.at (entrySym B p k) = CtEntry.ofFields (entryLen B p k) (entryBits B p k)
  other : ∀ b, (∀ k < j, entrySym B p k ≠ b) → U.at b = CtEntry.invalid

section Fit

variable {B : List Byte} {p j : Nat}

theorem entriesFit.mono {n : Nat} (h : entriesFit B p n) (hj : j ≤ n) : entriesFit B p j :=
  fun k hk => h k (by omega)

/-- Entries without a fault have different symbols. -/
theorem entriesFit.sym_ne {i k : Nat} (h : entriesFit B p j) (hi : i < j) (hk : k < j) (hne : i ≠ k) :
    entrySym B p i ≠ entrySym B p k := by
  rcases Nat.lt_or_gt_of_ne hne with hlt | hlt
  · exact (h k hk).2 i hlt
  · exact ((h i hi).2 k hlt).symm

/-- One more entry of a new symbol. -/
theorem HoldsEntries.put {U : CodeTable} (h : HoldsEntries B p j U) (hnew : ∀ k < j, entrySym B p k ≠ entrySym B p j) :
    HoldsEntries B p (j + 1) (U.put (entrySym B p j) (CtEntry.ofFields (entryLen B p j) (entryBits B p j))) where
  entry k hk := by
    rcases Nat.lt_succ_iff_lt_or_eq.1 hk with hk | rfl
    · rw [CodeTable.at_put_ne _ _ (hnew k hk), h.entry k hk]
    · exact CodeTable.at_put_self _ _ _
  other b hb := by
    rw [CodeTable.at_put_ne _ _ (hb j (by omega)).symm]
    exact h.other b fun k hk => hb k (by omega)

/-- Entries that pass their checks are loaded, each for its symbol (R157). -/
theorem addEntries_of_fit (h : entriesFit B p j) :
    ∃ U, addEntries B j (p + 2) CodeTable.empty = .ok U ∧ HoldsEntries B p j U := by
  induction j with
  | zero => exact ⟨_, rfl, fun k hk => absurd hk (Nat.not_lt_zero k), fun b _ => CodeTable.at_empty b⟩
  | succ j ih =>
    obtain ⟨U, hU, hold⟩ := ih (h.mono (Nat.le_succ j))
    obtain ⟨⟨h1, h16, hbits⟩, hnew⟩ := h j (Nat.lt_succ_self j)
    have hfree : (U.at (entrySym B p j)).valid = false := by
      rw [hold.other _ hnew]
      rfl
    refine ⟨_, ?_, hold.put hnew⟩
    rw [addEntries_succ, hU, except_ok_bind, addEntry_new h1 h16 hbits hfree]

/-- After `j` entries without a fault, an error of entry `j` is the error of the table. -/
theorem addEntries_error_of_fit {n : Nat} {e : ErrorCause} (h : entriesFit B p j) (hj : j < n)
    (he : ∀ U, HoldsEntries B p j U → addEntry U (entrySym B p j) (entryLen B p j) (entryBits B p j) = .error e) :
    addEntries B n (p + 2) CodeTable.empty = .error e := by
  obtain ⟨U, hU, hold⟩ := addEntries_of_fit h
  refine addEntries_error_of_le (Nat.succ_le_of_lt hj) ?_
  rw [addEntries_succ, hU, except_ok_bind, he U hold]

theorem HoldsEntries.legal {U : CodeTable} (h : HoldsEntries B p j U) (hfit : entriesFit B p j) (b : Byte) :
    (U.at b).legal := by
  by_cases hb : ∃ k < j, entrySym B p k = b
  · obtain ⟨k, hk, rfl⟩ := hb
    obtain ⟨h1, h16, hbits⟩ := (hfit k hk).1
    rw [h.entry k hk]
    exact CtEntry.legal_ofFields h1 h16 hbits
  · rw [h.other b fun k hk hs => hb ⟨k, hk, hs⟩]
    exact CtEntry.legal_invalid

theorem HoldsEntries.code {U : CodeTable} (h : HoldsEntries B p j U) (hfit : entriesFit B p j) {k : Nat} (hk : k < j) :
    (U.at (entrySym B p k)).code = entryCode B p k := by
  obtain ⟨_, h16, _⟩ := (hfit k hk).1
  have hlen : (entryLen B p k).toNat % 2 ^ 5 = (entryLen B p k).toNat := Nat.mod_eq_of_lt (by omega)
  rw [h.entry k hk, CtEntry.code, CtEntry.ofFields, entryCode, BitVec.toNat_setWidth, hlen]

theorem HoldsEntries.valid {U : CodeTable} (h : HoldsEntries B p j U) {b : Byte} :
    (U.at b).valid = true ↔ ∃ k < j, entrySym B p k = b := by
  by_cases hb : ∃ k < j, entrySym B p k = b
  · obtain ⟨k, hk, rfl⟩ := hb
    rw [h.entry k hk]
    exact iff_of_true rfl ⟨k, hk, rfl⟩
  · rw [h.other b fun k hk hs => hb ⟨k, hk, hs⟩]
    exact iff_of_false (by simp [CtEntry.invalid]) hb

/-- R157: the loaded table passes the test of its codes exactly when no entry's code begins another's. -/
theorem HoldsEntries.prefixFree_iff {U : CodeTable} (h : HoldsEntries B p j U) (hfit : entriesFit B p j) :
    U.prefixFree = true ↔ ∀ i < j, ∀ k < j, i ≠ k → ¬ entryCode B p i <+: entryCode B p k := by
  rw [CodeTable.prefixFree_iff (h.legal hfit)]
  constructor
  · intro hp i hi k hk hne
    rw [← h.code hfit hi, ← h.code hfit hk]
    exact hp _ _ (hfit.sym_ne hi hk hne) (h.valid.2 ⟨i, hi, rfl⟩) (h.valid.2 ⟨k, hk, rfl⟩)
  · intro hp a b hab ha hb
    obtain ⟨i, hi, rfl⟩ := h.valid.1 ha
    obtain ⟨k, hk, rfl⟩ := h.valid.1 hb
    rw [h.code hfit hi, h.code hfit hk]
    exact hp i hi k hk fun hik => hab (hik ▸ rfl)

end Fit

section Parse

variable {B : List Byte} {p n : Nat} (hn : n = (readBe16 B p).toNat) (h256 : n ≤ 256) (hl : p + 2 + 4 * n ≤ B.length)
include hn h256 hl

/-- R272: the first entry that fails a check gives the error of the table. -/
theorem parseTable_entry_error {j : Nat} {e : ErrorCause} (h : entriesFit B p j) (hj : j < n)
    (he : ∀ U, HoldsEntries B p j U → addEntry U (entrySym B p j) (entryLen B p j) (entryBits B p j) = .error e) :
    parseTable B p = .error e := by
  rw [parseTable_of_header hn h256 hl, addEntries_error_of_fit h hj he, except_error_bind]

theorem parseTable_lenRange {j : Nat} (h : entriesFit B p j) (hj : j < n)
    (hlen : entryLen B p j = 0 ∨ 16 < (entryLen B p j).toNat) : parseTable B p = .error .lenRange :=
  parseTable_entry_error hn h256 hl h hj fun _ _ => addEntry_lenRange (hlen.imp_left (congrArg BitVec.toNat))

theorem parseTable_bitsPad {j : Nat} (h : entriesFit B p j) (hj : j < n) (h1 : 1 ≤ (entryLen B p j).toNat)
    (h16 : (entryLen B p j).toNat ≤ 16) (hbits : 2 ^ (entryLen B p j).toNat ≤ (entryBits B p j).toNat) :
    parseTable B p = .error .bitsPad :=
  parseTable_entry_error hn h256 hl h hj fun _ _ => addEntry_bitsPad h1 h16 hbits

theorem parseTable_dupSymbol {j : Nat} (h : entriesFit B p j) (hj : j < n) (hin : entryInRange B p j)
    (hdup : ∃ k < j, entrySym B p k = entrySym B p j) : parseTable B p = .error .dupSymbol := by
  obtain ⟨h1, h16, hbits⟩ := hin
  exact parseTable_entry_error hn h256 hl h hj fun _ hold => addEntry_dupSymbol h1 h16 hbits (hold.valid.2 hdup)

variable (hfit : entriesFit B p n)
include hfit

theorem parseTable_notPrefixFree (h : ∃ j < n, ∃ k < n, j ≠ k ∧ entryCode B p j <+: entryCode B p k) :
    parseTable B p = .error .notPrefixFree := by
  obtain ⟨j, hj, k, hk, hne, hpre⟩ := h
  obtain ⟨U, hU, hold⟩ := addEntries_of_fit hfit
  have hclash : ¬ U.prefixFree = true := fun hp => (hold.prefixFree_iff hfit).1 hp j hj k hk hne hpre
  rw [parseTable_of_header hn h256 hl, hU, except_ok_bind, if_neg hclash]

/-- R157: a header and entries that pass every check give the table of the entries. -/
theorem parseTable_of_fit (h : ∀ j < n, ∀ k < n, j ≠ k → ¬ entryCode B p j <+: entryCode B p k) :
    ∃ U, parseTable B p = .ok (U, n) ∧ HoldsEntries B p n U := by
  obtain ⟨U, hU, hold⟩ := addEntries_of_fit hfit
  refine ⟨U, ?_, hold⟩
  rw [parseTable_of_header hn h256 hl, hU, except_ok_bind, if_pos ((hold.prefixFree_iff hfit).2 h)]

end Parse

/-! ### TDES and HDECOMP on a table (R158, R189) -/

section Commands

variable {s : State} (hin : s.inLen.toNat ≤ s.ibufBytes)
include hin

/-- R158: TDES on a table without a fault. -/
theorem exec_tdes_of_ok {T : CodeTable} {n : Nat} (h : parseTable s.input 0 = .ok (T, n)) : exec .tdes s =
    .next { s.setCodeTable T n with consumed := BitVec.ofNat 32 (2 + 4 * n) }.complete := by
  rw [exec, execTdes, requireInput_of_le hin, except_ok_bind, h]
  rfl

theorem exec_tdes_of_error {e : ErrorCause} (h : parseTable s.input 0 = .error e) :
    exec .tdes s = .next (s.fail (listedWrites .tdes) e) := by
  rw [exec, execTdes, requireInput_of_le hin, except_ok_bind, h]
  rfl

theorem exec_hdecomp_of_error {e : ErrorCause} (h : huffUnblock s.obufBytes s.draws s.input = .error e) :
    exec .hdecomp s = .next (s.fail (listedWrites .hdecomp) e) := by
  rw [exec, execHdecomp, requireInput_of_le hin, except_ok_bind, h]
  rfl

end Commands

section Block

variable {cap draw : Nat} {B : List Byte}

theorem huffUnblock_hdrTrunc (h : B.length < 3) : huffUnblock cap draw B = .error .hdrTrunc := if_pos h

variable (h3 : 3 ≤ B.length)
include h3

theorem huffUnblock_padRange (hp : 7 < (byteAt B 0).toNat) : huffUnblock cap draw B = .error .padRange :=
  (if_neg (not_lt.2 h3)).trans (if_pos hp)

/-- R189: after the checks of its header a block has the errors of its table. -/
theorem huffUnblock_of_table_error (hp : (byteAt B 0).toNat ≤ 7) {e : ErrorCause} (h : parseTable B 1 = .error e) :
    huffUnblock cap draw B = .error e := by
  refine (if_neg (not_lt.2 h3)).trans ((if_neg (not_lt.2 hp)).trans ?_)
  rw [h, except_error_bind]

end Block

/-- The error of a table is the error of the command that reads it. -/
theorem exec_of_table_error {s : State} {i : Instr} {p : Nat} {e : ErrorCause} (hin : s.inLen.toNat ≤ s.ibufBytes)
    (hi : (i = .tdes ∧ p = 0) ∨ (i = .hdecomp ∧ p = 1 ∧ (byteAt s.input 0).toNat ≤ 7)) (hl : p + 2 ≤ s.input.length)
    (h : parseTable s.input p = .error e) : exec i s = .next (s.fail (listedWrites i) e) := by
  rcases hi with ⟨rfl, rfl⟩ | ⟨rfl, rfl, hpad⟩
  · exact exec_tdes_of_error hin h
  · exact exec_hdecomp_of_error hin (huffUnblock_of_table_error hl hpad h)

/-- Settles O31: the checks of `parseTable` in order; HDECOMP makes two checks of its own first. -/
theorem tableChecksInOrder : Obligations.TableChecksInOrder := by
  rintro s B hin rfl
  refine ⟨?_, ?_, fun i p n hi hn h256 hl => ?_⟩
  · obtain ⟨t, ht⟩ := exec_next .tdes s
    have fails : ∀ {e}, parseTable s.input 0 = .error e → t.failedWith e.reg.number :=
      fun h => failedWith_of_exec ht (exec_tdes_of_error hin h)
    exact ⟨t, ht, fun h => fails (parseTable_hdrTrunc h), fun h2 hn => fails (parseTable_countRange h2 hn),
      fun h2 hn h => fails (parseTable_tableTrunc h2 hn (by omega))⟩
  · obtain ⟨t, ht⟩ := exec_next .hdecomp s
    have fails : ∀ {e}, huffUnblock s.obufBytes s.draws s.input = .error e → t.failedWith e.reg.number :=
      fun h => failedWith_of_exec ht (exec_hdecomp_of_error hin h)
    exact ⟨t, ht, fun h => fails (huffUnblock_hdrTrunc h), fun h3 hp => fails (huffUnblock_padRange h3 hp),
      fun h3 hp hn => fails (huffUnblock_of_table_error h3 hp (parseTable_countRange h3 hn)),
      fun h3 hp hn h => fails (huffUnblock_of_table_error h3 hp (parseTable_tableTrunc h3 hn (by omega)))⟩
  · obtain ⟨t, ht⟩ := exec_next i s
    have fails : ∀ {e}, parseTable s.input p = .error e → t.failedWith e.reg.number :=
      fun h => failedWith_of_exec ht (exec_of_table_error hin hi (by omega) h)
    exact ⟨t, ht, fun j hj hfit =>
      ⟨fun hlen => fails (parseTable_lenRange hn h256 hl hfit hj hlen),
        fun h1 h16 hbits => fails (parseTable_bitsPad hn h256 hl hfit hj h1 h16 hbits),
        fun hrange hdup => fails (parseTable_dupSymbol hn h256 hl hfit hj hrange hdup)⟩,
      fun hfit hclash => fails (parseTable_notPrefixFree hn h256 hl hfit hclash)⟩

/-! ### The bytes of a list of entries (R92) -/

/-- The four bytes of a symbol with its entry. -/
def rowBytes (x : Byte × CtEntry) : List Byte := entryBytes x.1 x.2

/-- A table as it is stored, with the bytes after it: the count, then the entries in the order of the list. -/
def storedTable (L : List (Byte × CtEntry)) (rest : List Byte) : List Byte :=
  be16 (BitVec.ofNat 16 L.length) ++ L.flatMap rowBytes ++ rest

theorem serTable_append (T : CodeTable) (rest : List Byte) : serTable T ++ rest = storedTable T.entries rest := rfl

@[simp] theorem rowBytes_length (x : Byte × CtEntry) : (rowBytes x).length = 4 := rfl

theorem flatMap_rowBytes_length (L : List (Byte × CtEntry)) : (L.flatMap rowBytes).length = 4 * L.length := by
  simp [List.length_flatMap, Nat.mul_comm]

theorem storedTable_length (L : List (Byte × CtEntry)) (rest : List Byte) :
    (storedTable L rest).length = 2 + 4 * L.length + rest.length := by
  simp only [storedTable, List.length_append, be16_length, flatMap_rowBytes_length]

theorem byteAt_append_left_length (A B : List Byte) (k : Nat) : byteAt (A ++ B) (A.length + k) = byteAt B k := by
  rw [byteAt, List.getD_append_right _ _ _ _ (Nat.le_add_right _ _), Nat.add_sub_cancel_left]
  rfl

section Stored

variable {L : List (Byte × CtEntry)} {rest : List Byte}

theorem readBe16_storedTable (h : L.length ≤ 256) : (readBe16 (storedTable L rest) 0).toNat = L.length := by
  rw [storedTable, List.append_assoc, readBe16_be16, BitVec.toNat_ofNat]
  exact Nat.mod_eq_of_lt (by omega)

/-- The bytes of row `j` stand from address `2 + 4 * j` on. -/
theorem byteAt_storedTable {j : Nat} (hj : j < L.length) : ∃ C, ∀ k,
    byteAt (storedTable L rest) (2 + 4 * j + k) = byteAt (rowBytes L[j] ++ C) k := by
  refine ⟨(L.drop (j + 1)).flatMap rowBytes ++ rest, fun k => ?_⟩
  have hrows : L.flatMap rowBytes = (L.take j).flatMap rowBytes ++ (rowBytes L[j] ++ (L.drop (j + 1)).flatMap rowBytes) := by
    rw [← List.flatMap_cons, ← List.drop_eq_getElem_cons hj, ← List.flatMap_append, List.take_append_drop]
  have hlen : (be16 (BitVec.ofNat 16 L.length) ++ (L.take j).flatMap rowBytes).length = 2 + 4 * j := by
    rw [List.length_append, be16_length, flatMap_rowBytes_length, List.length_take_of_le hj.le]
  rw [storedTable, hrows, ← List.append_assoc, List.append_assoc (_ ++ _), List.append_assoc (rowBytes _), ← hlen,
    byteAt_append_left_length]

theorem entry_storedTable {j : Nat} (hj : j < L.length) : entrySym (storedTable L rest) 0 j = L[j].1 ∧
    entryLen (storedTable L rest) 0 j = L[j].2.len.setWidth 8 ∧ entryBits (storedTable L rest) 0 j = L[j].2.bits := by
  obtain ⟨C, hbyte⟩ := byteAt_storedTable (rest := rest) hj
  refine ⟨?_, ?_, ?_⟩
  · rw [entrySym, Nat.zero_add]
    exact hbyte 0
  · rw [entryLen, show 0 + 3 + 4 * j = 2 + 4 * j + 1 by omega]
    exact hbyte 1
  · rw [entryBits, readBe16, show 0 + 4 + 4 * j = 2 + 4 * j + 2 by omega, hbyte 2, hbyte 3]
    exact append_extract16 _

/-- A valid entry is its length and bits. -/
theorem CtEntry.ofFields_of_valid {e : CtEntry} (h : e.valid = true) : CtEntry.ofFields (e.len.setWidth 8) e.bits = e := by
  obtain ⟨v, len, bits⟩ := e
  obtain rfl : v = true := h
  simp [CtEntry.ofFields]

theorem entryCode_storedTable {j : Nat} (hj : j < L.length) : entryCode (storedTable L rest) 0 j = L[j].2.code := by
  obtain ⟨_, hlen, hbits⟩ := entry_storedTable (rest := rest) hj
  rw [entryCode, hlen, hbits, CtEntry.code, BitVec.toNat_setWidth_of_le (by omega)]

variable (hnodup : (L.map Prod.fst).Nodup) (hlegal : ∀ x ∈ L, x.2.valid = true ∧ x.2.legal)
include hnodup hlegal

theorem entriesFit_storedTable : entriesFit (storedTable L rest) 0 L.length := by
  intro k hk
  obtain ⟨hsym, hlen, hbits⟩ := entry_storedTable (rest := rest) hk
  obtain ⟨hvalid, hleg⟩ := hlegal L[k] (List.getElem_mem hk)
  refine ⟨?_, fun i hi => ?_⟩
  · rw [entryInRange, hlen, hbits, BitVec.toNat_setWidth_of_le (by omega)]
    exact CtEntry.legal_bits hleg hvalid
  · rw [hsym, (entry_storedTable (by omega)).1]
    exact List.pairwise_iff_getElem.1 (List.pairwise_map.1 hnodup) i k (by omega) hk hi

/-- R157, R159: rows of different symbols with legal entries, no code beginning another, parse to exactly these entries. -/
theorem parseTable_storedTable (h256 : L.length ≤ 256)
    (hcodes : ∀ x ∈ L, ∀ y ∈ L, x.1 ≠ y.1 → ¬ x.2.code <+: y.2.code) :
    ∃ U, parseTable (storedTable L rest) 0 = .ok (U, L.length) ∧ (∀ x ∈ L, U.at x.1 = x.2) ∧
      ∀ b, b ∉ L.map Prod.fst → U.at b = CtEntry.invalid := by
  have hfit := entriesFit_storedTable (rest := rest) hnodup hlegal
  have hroom : 0 + 2 + 4 * L.length ≤ (storedTable L rest).length := by
    rw [storedTable_length]
    omega
  obtain ⟨U, hU, hold⟩ := parseTable_of_fit (readBe16_storedTable h256).symm h256 hroom hfit fun j hj k hk hne => by
    rw [entryCode_storedTable hj, entryCode_storedTable hk]
    refine hcodes _ (List.getElem_mem hj) _ (List.getElem_mem hk) ?_
    rw [← (entry_storedTable (rest := rest) hj).1, ← (entry_storedTable (rest := rest) hk).1]
    exact hfit.sym_ne hj hk hne
  refine ⟨U, hU, fun x hx => ?_, fun b hb => hold.other b fun k hk hs => hb ?_⟩
  · obtain ⟨k, hk, rfl⟩ := List.mem_iff_getElem.1 hx
    obtain ⟨hsym, hlen, hbits⟩ := entry_storedTable (rest := rest) hk
    rw [← hsym, hold.entry k hk, hlen, hbits, CtEntry.ofFields_of_valid (hlegal _ hx).1]
  · rw [← hs, (entry_storedTable hk).1]
    exact List.mem_map_of_mem (List.getElem_mem hk)

end Stored

/-- Settles O30: the parsed table is loaded. -/
theorem tdesLoadsEntriesInAnyOrder : Obligations.TdesLoadsEntriesInAnyOrder := by
  intro s L rest hin h256 hnodup hlegal hcodes hinput
  obtain ⟨U, hU, hentry, hother⟩ := parseTable_storedTable (rest := rest) hnodup hlegal h256 hcodes
  have hparse : parseTable s.input 0 = .ok (U, L.length) := hinput ▸ hU
  exact ⟨_, exec_tdes_of_ok hin hparse, ⟨rfl, rfl⟩, hentry, hother, Nat.mod_eq_of_lt (by omega), Nat.mod_eq_of_lt (by omega)⟩

/-- Settles O29: the entries of a good table, stored in ascending order, parse to a table that holds for every symbol what the
table holds. -/
theorem tableRoundTrip : Obligations.TableRoundTrip := by
  intro T rest hgood
  have hprefix := (CodeTable.prefixFree_iff hgood.legal).1 hgood.prefixFree
  have hat : ∀ x ∈ T.entries, T.at x.1 = x.2 ∧ x.2.valid = true := fun x hx => CodeTable.mem_entries.1 hx
  obtain ⟨U, hU, hentry, hother⟩ := parseTable_storedTable (rest := rest) T.entries_nodup
    (fun x hx => ⟨(hat x hx).2, (hat x hx).1 ▸ hgood.legal x.1⟩) T.count_le fun x hx y hy hne => by
      obtain ⟨hx, hxv⟩ := hat x hx
      obtain ⟨hy, hyv⟩ := hat y hy
      rw [← hx, ← hy]
      exact hprefix _ _ hne (hx ▸ hxv) (hy ▸ hyv)
  have hUT : U = T := CodeTable.ext_at fun b => by
    cases hb : (T.at b).valid with
    | true => exact hentry (b, T.at b) (CodeTable.mem_entries.2 ⟨rfl, hb⟩)
    | false =>
      rw [hother b (by simp [CodeTable.mem_entries_fst, hb])]
      exact (by simpa [CtEntry.legal, hb] using hgood.legal b : T.at b = CtEntry.invalid).symm
  rw [serTable_append, hU, hUT]
  rfl

end Sys2Proof.Machine
end

section
/-! PROOFS. DERIVE (R150 to R154): on a tree the walk of R152 fails only on a leaf deeper than its bound, and it visits every leaf,
so the codes are exactly the paths; the root that is a Leaf, and no tree at all. -/

namespace Sys2Proof.Machine

/-! ### The command and its root -/

section Command

variable {s : State}

theorem exec_derive_of_table {T : CodeTable} {n : Nat} (h : deriveTable s.node s.root s.freq.anyPresent = .ok (T, n)) :
    exec .derive s = .next (s.setCodeTable T n).complete := by
  rw [exec, execDerive, deriveBody_of_table h]
  rfl

theorem exec_derive_of_error {e : ErrorCause} (h : deriveTable s.node s.root s.freq.anyPresent = .error e) :
    exec .derive s = .next (s.fail (listedWrites .derive) e) := by
  rw [exec, execDerive, deriveBody, h]
  rfl

end Command

/-- Whether some symbol is present (R122), by its counter. -/
theorem FreqTable.anyPresent_iff {F : FreqTable} : F.anyPresent = true ↔ ∃ b, 0 < (F.at b).toNat := by
  simp only [FreqTable.anyPresent, List.any_eq_true, decide_eq_true_eq, Vector.mem_toList_iff, Vector.mem_iff_getElem]
  constructor
  · rintro ⟨_, ⟨k, hk, rfl⟩, hpos⟩
    exact ⟨BitVec.ofNat 8 k, by simpa [FreqTable.at, Nat.mod_eq_of_lt hk] using hpos⟩
  · rintro ⟨b, hpos⟩
    exact ⟨F.at b, ⟨b.toNat, b.isLt, rfl⟩, hpos⟩

section Root

variable {N : NodeStore} {root : NodeIndex} {present : Bool}

/-- R154: with no tree the presence of a symbol decides. -/
theorem deriveTable_nodeNull : deriveTable N Config.nodeNull present =
    if present then .error .nullRoot else .ok (CodeTable.empty, 0) := if_pos rfl

variable (hn : root ≠ Config.nodeNull)
include hn

/-- R151. -/
theorem deriveTable_leaf (hl : (N.at root).kind = .leaf) :
    deriveTable N root present = .ok (tableOfCodes [((N.at root).sym, [false])], 1) := by
  rw [deriveTable, if_neg hn, hl]

/-- R152: below an Internal root the walk decides. -/
theorem deriveTable_internal (hi : (N.at root).kind = .internal) : deriveTable N root present =
    deriveLeaves N (Config.codeMax + 1) root [] >>= fun codes => .ok (tableOfCodes codes, codes.length) := by
  rw [deriveTable, if_neg hn, hi]

end Root

/-! ### The walk (R150, R152) -/

theorem deriveLeaves_leaf {N : NodeStore} {k : NodeIndex} (hl : (N.at k).kind = .leaf) (fuel : Nat) (p : Bits) :
    deriveLeaves N (fuel + 1) k p = .ok [((N.at k).sym, p)] := by
  rw [deriveLeaves, hl]

/-- A walk that succeeds visits every leaf, and none is deeper than its bound (R150, R153). -/
theorem deriveLeaves_visits {N : NodeStore} {fuel : Nat} {k j : NodeIndex} {p q : Bits} {codes : List (Byte × Bits)}
    (h : deriveLeaves N fuel k p = .ok codes) (hr : reaches N k q j) (hj : (N.at j).kind = .leaf) :
    ((N.at j).sym, p ++ q) ∈ codes ∧ q.length < fuel := by
  induction fuel generalizing k p q codes with
  | zero => cases h
  | succ fuel ih =>
    cases q with
    | nil =>
      cases hr
      rw [deriveLeaves_leaf hj] at h
      cases h
      simp
    | cons b q =>
      obtain ⟨hi, hr⟩ := reaches_cons.1 hr
      rcases deriveLeaves_ok h with ⟨hk, _⟩ | ⟨l, r, _, hl, hr', rfl⟩
      · simp [hi] at hk
      · have below : ((N.at j).sym, p ++ b :: q) ∈ l ++ r ∧ q.length < fuel := by
          rw [List.append_cons]
          cases b with
          | false => exact (ih hl hr).imp_left (List.mem_append_left r)
          | true => exact (ih hr' hr).imp_left (List.mem_append_right l)
        exact below.imp_right Nat.succ_lt_succ

section Tree

variable {N : NodeStore} {n : Nat} {root : NodeIndex}

theorem TreeOk.root_ne_nodeNull (h : TreeOk N n root) (hn : n ≠ 0) : root ≠ Config.nodeNull := by
  rintro rfl
  have hlast : 511 = n - 1 := h.last hn
  have := h.small
  omega

/-- Every node of a tree has a leaf below it, since an edge leads to a node of smaller index (R133). -/
theorem TreeOk.exists_leaf (h : TreeOk N n root) {k : NodeIndex} (hk : k.toNat < n) :
    ∃ q j, reaches N k q j ∧ (N.at j).kind = .leaf := by
  induction hm : k.toNat using Nat.strong_induction_on generalizing k with
  | _ m ih =>
    cases hi : (N.at k).kind with
    | leaf => exact ⟨[], k, rfl, hi⟩
    | internal =>
      have hlt := h.edge_lt hk hi false
      obtain ⟨q, j, hr, hj⟩ := ih _ (hm ▸ hlt) (hlt.trans hk) rfl
      exact ⟨false :: q, j, reaches_cons.2 ⟨hi, hr⟩, hj⟩

/-- On a tree the walk succeeds when every leaf is within its bound (R153). -/
theorem TreeOk.deriveLeaves_of_shallow (h : TreeOk N n root) {fuel : Nat} {k : NodeIndex} (hk : k.toNat < n)
    (hs : ∀ q j, reaches N k q j → (N.at j).kind = .leaf → q.length ≤ fuel) (p : Bits) :
    ∃ codes, deriveLeaves N (fuel + 1) k p = .ok codes := by
  induction fuel generalizing k p with
  | zero =>
    obtain ⟨q, j, hr, hj⟩ := h.exists_leaf hk
    obtain rfl := List.length_eq_zero_iff.1 (Nat.le_zero.1 (hs q j hr hj))
    cases hr
    exact ⟨_, deriveLeaves_leaf hj 0 p⟩
  | succ fuel ih =>
    cases hi : (N.at k).kind with
    | leaf => exact ⟨_, deriveLeaves_leaf hi (fuel + 1) p⟩
    | internal =>
      have below : ∀ b, ∃ codes, deriveLeaves N (fuel + 1) (edge N k b) (p ++ [b]) = .ok codes := fun b =>
        ih ((h.edge_lt hk hi b).trans hk)
          (fun q j hr hj => Nat.le_of_succ_le_succ (hs (b :: q) j (reaches_cons.2 ⟨hi, hr⟩) hj)) _
      obtain ⟨l, hl⟩ := below false
      obtain ⟨r, hr⟩ := below true
      exact ⟨l ++ r, deriveLeaves_internal hi hl hr⟩

end Tree

/-- Codes of different symbols of at most 16 bits are the codes of their symbols in the table (R152). -/
theorem code_tableOfCodes {codes : List (Byte × Bits)} (hnodup : (codes.map Prod.fst).Nodup) {s : Byte} {c : Bits}
    (hc : (s, c) ∈ codes) (h16 : c.length ≤ 16) : ((tableOfCodes codes).at s).code = c := by
  rcases at_tableOfCodes codes s with ⟨d, hd, hs, he⟩ | ⟨hs, _⟩
  · obtain rfl : d = (s, c) := List.inj_on_of_nodup_map hnodup hd hc hs
    rw [he, CtEntry.code_ofCode h16]
  · exact absurd (List.mem_map_of_mem hc) hs

/-! ### The statements -/

/-- Settles O26: a walk that succeeds would have the deep leaf within its bound. -/
theorem deriveRejectsDeepLeaf : Obligations.DeriveRejectsDeepLeaf := by
  intro s p k hroot hr hk hdeep
  have hi : (s.node.at s.root).kind = .internal := by
    cases p with
    | nil => exact absurd hdeep (by simp)
    | cons b p => exact (reaches_cons.1 hr).1
  have hwalk : deriveLeaves s.node (Config.codeMax + 1) s.root [] = .error .codeTooLong := by
    cases hd : deriveLeaves s.node (Config.codeMax + 1) s.root [] with
    | error e => rw [deriveLeaves_error hd]
    | ok codes =>
      have hlen : p.length < 16 + 1 := (deriveLeaves_visits hd hr hk).2
      omega
  have htable : deriveTable s.node s.root s.freq.anyPresent = .error .codeTooLong := by
    rw [deriveTable_internal hroot hi, hwalk, except_error_bind]
  exact ⟨_, exec_derive_of_error htable, s.failedWith_fail _ _⟩

/-- Settles O25: the walk completes since the tree is shallow; each code is the path of a leaf, each leaf's path is a code, and the
symbols differ. -/
theorem deriveCodesArePaths : Obligations.DeriveCodesArePaths := by
  intro s htree hnodes hi hshallow
  have hpos : s.nnodes.toNat ≠ 0 := fun h => hnodes (BitVec.eq_of_toNat_eq h)
  have hroot := htree.root_ne_nodeNull hpos
  have hlast := htree.last hpos
  obtain ⟨codes, hwalk⟩ := htree.deriveLeaves_of_shallow (fuel := Config.codeMax) (by omega) hshallow []
  have htable : deriveTable s.node s.root s.freq.anyPresent = .ok (tableOfCodes codes, codes.length) := by
    rw [deriveTable_internal hroot hi, hwalk, except_ok_bind]
  have hleaf := deriveLeaves_codesLeaf hwalk
  have hnodup := htree.symbols_nodup hroot hleaf (deriveLeaves_incomparable hwalk)
  refine ⟨_, exec_derive_of_table htable, ⟨rfl, rfl⟩, fun p k hr hk => ?_, fun b hb => ?_, ?_⟩
  · have hmem : ((s.node.at k).sym, p) ∈ codes := (deriveLeaves_visits hwalk hr hk).1
    exact ⟨(valid_tableOfCodes codes _).2 (List.mem_map_of_mem hmem), code_tableOfCodes hnodup hmem (hshallow p k hr hk)⟩
  · obtain ⟨c, hc, rfl⟩ := List.mem_map.1 ((valid_tableOfCodes codes b).1 hb)
    obtain ⟨p, k, _, _, hr, hk, hsym⟩ := hleaf c hc
    exact ⟨p, k, hr, hk, hsym⟩
  · have hcount := htree.count_derive htable
    have hle := (tableOfCodes codes).count_le
    refine Eq.trans ?_ (tableOfCodes codes).count_eq
    rw [hcount] at hle ⊢
    exact Nat.mod_eq_of_lt (by omega)

/-- Settles O27: the three cases of `deriveTable` without an Internal root. -/
theorem deriveWithoutInternalRoot : Obligations.DeriveWithoutInternalRoot := by
  refine fun s => ⟨fun hroot hl => ?_, fun hroot hp => ?_, fun hroot hp => ?_⟩
  · refine ⟨_, exec_derive_of_table (deriveTable_leaf hroot hl), ⟨rfl, rfl⟩, rfl, CodeTable.at_put_self _ _ _, fun b hb => ?_⟩
    exact (CodeTable.at_put_ne _ _ hb).trans (CodeTable.at_empty b)
  · have htable : deriveTable s.node s.root s.freq.anyPresent = .error .nullRoot := by
      rw [hroot, FreqTable.anyPresent_iff.2 hp]
      exact deriveTable_nodeNull
    exact ⟨_, exec_derive_of_error htable, s.failedWith_fail _ _⟩
  · have hnone : s.freq.anyPresent = false := by
      rw [← Bool.not_eq_true, FreqTable.anyPresent_iff]
      rintro ⟨b, hb⟩
      simp [hp b] at hb
    have htable : deriveTable s.node s.root s.freq.anyPresent = .ok (CodeTable.empty, 0) := by
      rw [hroot, hnone]
      exact deriveTable_nodeNull
    exact ⟨_, exec_derive_of_table htable, ⟨rfl, rfl⟩, rfl, CodeTable.at_empty⟩

end Sys2Proof.Machine
end

section
/-! PROOFS. TSER (R92, R156): what it writes, byte by byte, when it fits. -/

namespace Sys2Proof.Machine

section Command

variable {s : State}

theorem exec_tser_of_fits (h : 2 + 4 * s.nsym.toNat ≤ s.obufBytes) :
    exec .tser s = .next (s.setOutput (serTable s.ct)).complete := by
  rw [exec, execTser, if_neg (not_lt.2 h)]
  rfl

theorem exec_tser_of_lt (h : s.obufBytes < 2 + 4 * s.nsym.toNat) :
    exec .tser s = .next (s.fail Writes.none .outFull) := by
  rw [exec, execTser, if_pos h]
  rfl

end Command

/-- R11, R63: the two bytes of a number, the high one first. -/
theorem be16_ofNat (n : Nat) : be16 (BitVec.ofNat 16 n) = [BitVec.ofNat 8 (n / 256), BitVec.ofNat 8 n] := by
  have hhigh : (BitVec.ofNat 16 n).extractLsb' 8 8 = BitVec.ofNat 8 (n / 256) := by
    apply BitVec.eq_of_toNat_eq
    rw [BitVec.extractLsb'_toNat, BitVec.toNat_ofNat, BitVec.toNat_ofNat, Nat.shiftRight_eq_div_pow]
    omega
  have hlow : (BitVec.ofNat 16 n).extractLsb' 0 8 = BitVec.ofNat 8 n := by
    apply BitVec.eq_of_toNat_eq
    rw [BitVec.extractLsb'_toNat, BitVec.toNat_ofNat, BitVec.toNat_ofNat, Nat.shiftRight_zero]
    omega
  rw [be16, hhigh, hlow]

/-- R92, R156: the bytes of a table, written out by symbol. -/
theorem serTable_eq (T : CodeTable) : serTable T = [BitVec.ofNat 8 (T.count / 256), BitVec.ofNat 8 T.count] ++
    ((List.range 256).filter fun b => (T.at (BitVec.ofNat 8 b)).valid).flatMap
      fun b => entryBytes (BitVec.ofNat 8 b) (T.at (BitVec.ofNat 8 b)) := by
  rw [serTable, be16_ofNat, CodeTable.entries_eq, List.flatMap_map]

/-- Settles O28: TSER's output is `serTable`, whose length is the capacity it checks. -/
theorem tserWritesTable : Obligations.TserWritesTable := by
  intro s hcount
  refine ⟨fun hfits => ?_, fun hlt => ⟨_, exec_tser_of_lt hlt, s.failedWith_fail _ _⟩⟩
  have hlen : (serTable s.ct).length = 2 + 4 * s.nsym.toNat := by rw [serTable_length, hcount]
  have hlt : (serTable s.ct).length < 2 ^ 32 := by
    have := s.nsym.isLt
    omega
  refine ⟨_, exec_tser_of_fits hfits, ⟨rfl, rfl⟩, (s.outLen_setOutput hlt).trans hlen, ?_⟩
  refine (s.output_setOutput hlt).trans ?_
  rw [serTable_eq, ← hcount]
  rfl

end Sys2Proof.Machine
end

section
/-! PROOFS. The tree-walker (R181, R182): what `walk` does with the codes of a good table and with bits that are no code, and
that the registers WALK.PATH and WALK.LEN hold the path, so that HWALK's loop does what `walk` does. -/

namespace Sys2Proof.Machine

/-! ### Paths and codes (R181) -/

section Codes

variable {T : CodeTable} {b : Byte} {p : Bits}

theorem codeSymbol_eq_none_iff : codeSymbol T p = none ↔ ∀ b, (T.at b).valid = true → (T.at b).code ≠ p := by
  simp only [codeSymbol, Option.map_eq_none_iff, List.find?_eq_none, decide_eq_true_eq]
  constructor
  · exact fun h b hb => h (b, T.at b) (CodeTable.mem_entries.2 ⟨rfl, hb⟩)
  · rintro h ⟨b, e⟩ he
    obtain ⟨rfl, hb⟩ := CodeTable.mem_entries.1 he
    exact h b hb

theorem codeSymbol_some (h : codeSymbol T p = some b) : (T.at b).valid = true ∧ (T.at b).code = p := by
  obtain ⟨⟨c, e⟩, he, rfl⟩ := Option.map_eq_some_iff.1 h
  obtain ⟨rfl, hb⟩ := CodeTable.mem_entries.1 (List.mem_of_find?_eq_some he)
  have hcode := List.find?_some he
  exact ⟨hb, of_decide_eq_true hcode⟩

theorem properPrefix_iff : properPrefix T p = true ↔
    ∃ b, (T.at b).valid = true ∧ p <+: (T.at b).code ∧ p ≠ (T.at b).code := by
  simp only [properPrefix, List.any_eq_true, Bool.and_eq_true, decide_eq_true_eq, List.isPrefixOf_iff_prefix]
  constructor
  · rintro ⟨⟨b, e⟩, he, hlt, hp⟩
    obtain ⟨rfl, hb⟩ := CodeTable.mem_entries.1 he
    exact ⟨b, hb, hp, fun hc => hlt.ne (congrArg List.length hc)⟩
  · rintro ⟨b, hb, hp, hne⟩
    have hlt := lt_of_le_of_ne hp.length_le fun hl => hne (hp.eq_of_length hl)
    exact ⟨(b, T.at b), CodeTable.mem_entries.2 ⟨rfl, hb⟩, hlt, hp⟩

variable (hT : T.Good)
include hT

/-- R157: in a good table only a code itself begins it. -/
theorem CodeTable.Good.eq_of_prefix {a : Byte} (ha : (T.at a).valid = true) (hb : (T.at b).valid = true)
    (h : (T.at a).code <+: (T.at b).code) : a = b := by
  by_contra hne
  exact (CodeTable.prefixFree_iff hT.legal).1 hT.prefixFree a b hne ha hb h

theorem CodeTable.Good.code_ne_nil (hb : (T.at b).valid = true) : (T.at b).code ≠ [] := by
  have hpos := (CtEntry.legal_bits (hT.legal b) hb).1
  rw [← CtEntry.code_length] at hpos
  exact List.length_pos_iff.1 hpos

theorem CodeTable.Good.codeSymbol_code (hb : (T.at b).valid = true) : codeSymbol T (T.at b).code = some b := by
  cases hc : codeSymbol T (T.at b).code with
  | none => exact absurd rfl (codeSymbol_eq_none_iff.1 hc b hb)
  | some a =>
    obtain ⟨ha, hcode⟩ := codeSymbol_some hc
    rw [hT.eq_of_prefix ha hb (hcode ▸ List.prefix_rfl)]

theorem CodeTable.Good.codeSymbol_of_properPrefix (hp : properPrefix T p = true) : codeSymbol T p = none := by
  obtain ⟨b, hb, hpre, hne⟩ := properPrefix_iff.1 hp
  refine codeSymbol_eq_none_iff.2 fun a ha hcode => ?_
  subst hcode
  exact hne (hT.eq_of_prefix ha hb hpre ▸ rfl)

theorem CodeTable.Good.length_lt_of_properPrefix (hp : properPrefix T p = true) : p.length < 16 := by
  obtain ⟨b, _, hpre, hne⟩ := properPrefix_iff.1 hp
  have hlt : p.length < (T.at b).code.length := lt_of_le_of_ne hpre.length_le fun hl => hne (hpre.eq_of_length hl)
  exact hlt.trans_le (hT.code_length_le b)

end Codes

theorem codeStream_cons (T : CodeTable) (b : Byte) (D : List Byte) :
    codeStream T (b :: D) = (T.at b).code ++ codeStream T D := rfl

theorem covers_cons {T : CodeTable} {b : Byte} {D : List Byte} :
    covers T (b :: D) ↔ (T.at b).valid = true ∧ covers T D := List.forall_mem_cons

/-! ### The walk (R181) -/

section Walk

variable {cap : Nat} {T : CodeTable} {b : Byte} {x : Bool} {S path q : Bits} {out D : List Byte}

theorem walk_nil : walk cap T [] path out = if path = [] then .ok out else .error .midPath := rfl

theorem walk_symbol (h : codeSymbol T (path ++ [x]) = some b) :
    walk cap T (x :: S) path out = emit cap out b >>= walk cap T S [] := by
  rw [walk, h]

theorem walk_noSymbol (h : codeSymbol T (path ++ [x]) = none) : walk cap T (x :: S) path out =
    if properPrefix T (path ++ [x]) then walk cap T S (path ++ [x]) out else .error .deadPath := by
  rw [walk, h]

variable (hT : T.Good)

section Good

include hT

/-- Bits inside a code only lengthen the path. -/
theorem CodeTable.Good.walk_inside (hb : (T.at b).valid = true) (hpre : path ++ q <+: (T.at b).code)
    (hne : path ++ q ≠ (T.at b).code) : walk cap T (q ++ S) path out = walk cap T S (path ++ q) out := by
  induction q generalizing path with
  | nil => simp
  | cons x q ih =>
    rw [List.append_cons] at hpre hne
    have hbegin : path ++ [x] <+: (T.at b).code := (List.prefix_append _ q).trans hpre
    have hproper : properPrefix T (path ++ [x]) = true := by
      refine properPrefix_iff.2 ⟨b, hb, hbegin, fun hc => hne (hpre.eq_of_length_le ?_)⟩
      rw [← hc]
      exact (List.prefix_append _ q).length_le
    rw [List.cons_append, walk_noSymbol (hT.codeSymbol_of_properPrefix hproper), if_pos hproper, ih hpre hne,
      List.append_cons path x q]

/-- A code emits its symbol. -/
theorem CodeTable.Good.walk_code (hb : (T.at b).valid = true) :
    walk cap T ((T.at b).code ++ S) [] out = emit cap out b >>= walk cap T S [] := by
  obtain hnil | ⟨p, x, hcode⟩ := List.eq_nil_or_concat' (T.at b).code
  · exact absurd hnil (hT.code_ne_nil hb)
  · have hsymbol := hT.codeSymbol_code hb
    rw [hcode] at hsymbol
    rw [hcode, List.append_assoc, hT.walk_inside hb, List.nil_append, List.singleton_append, walk_symbol hsymbol]
    · exact hcode ▸ List.prefix_append p [x]
    · simp [hcode]

/-- The codes of bytes that fit emit the bytes. -/
theorem CodeTable.Good.walk_codeStream (hD : covers T D) (hfits : out.length + D.length ≤ cap) :
    walk cap T (codeStream T D ++ S) [] out = walk cap T S [] (out ++ D) := by
  induction D generalizing out with
  | nil => simp [codeStream]
  | cons b D ih =>
    obtain ⟨hb, hD⟩ := covers_cons.1 hD
    rw [List.length_cons] at hfits
    rw [codeStream_cons, List.append_assoc, hT.walk_code hb, emit_of_lt b (by omega), except_ok_bind, ih hD, ← List.append_cons]
    rw [List.length_append, List.length_singleton]
    omega

/-- The codes of more bytes than fit raise OUT_FULL (R276). -/
theorem CodeTable.Good.walk_codeStream_full (hD : covers T D) (hout : out.length ≤ cap) (hfull : cap < out.length + D.length) :
    walk cap T (codeStream T D ++ S) [] out = .error .outFull := by
  induction D generalizing out with
  | nil => exact absurd hfull (not_lt.2 hout)
  | cons b D ih =>
    obtain ⟨hb, hD⟩ := covers_cons.1 hD
    rw [List.length_cons] at hfull
    rw [codeStream_cons, List.append_assoc, hT.walk_code hb]
    rcases emit_cases cap out b with ⟨hne, he⟩ | ⟨_, he⟩
    · rw [he, except_ok_bind, ih hD] <;> rw [List.length_append, List.length_singleton] <;> omega
    · rw [he, except_error_bind]

/-- Bits that end inside a code raise MID_PATH. -/
theorem CodeTable.Good.walk_midPath (hq : q ≠ []) (hb : (T.at b).valid = true) (hpre : q <+: (T.at b).code)
    (hne : q ≠ (T.at b).code) : walk cap T q [] out = .error .midPath := by
  have h := hT.walk_inside (cap := cap) (S := []) (path := []) (out := out) hb hpre hne
  rwa [List.append_nil, List.nil_append, walk_nil, if_neg hq] at h

end Good

/-- Bits that neither begin a code nor begin with one raise DEAD_PATH, wherever the walk stands in them. -/
theorem walk_deadPath (hq : q ≠ [])
    (hno : ∀ b, (T.at b).valid = true → ¬ path ++ q <+: (T.at b).code ∧ ¬ (T.at b).code <+: path ++ q) :
    walk cap T (q ++ S) path out = .error .deadPath := by
  induction q generalizing path with
  | nil => exact absurd rfl hq
  | cons x q ih =>
    simp only [List.append_cons path x q] at hno
    have hnone : codeSymbol T (path ++ [x]) = none := codeSymbol_eq_none_iff.2 fun b hb hcode =>
      (hno b hb).2 (hcode ▸ List.prefix_append _ q)
    rw [List.cons_append, walk_noSymbol hnone]
    split
    · next hproper =>
      refine ih ?_ hno
      rintro rfl
      obtain ⟨b, hb, hpre, _⟩ := properPrefix_iff.1 hproper
      exact (hno b hb).1 (by rwa [List.append_nil])
    · rfl

include hT in
/-- R273: what the walk answers is what the bits decode to. -/
theorem CodeTable.Good.decodes_of_walk {t : State}
    (hok : ∀ out, walk cap T S [] [] = .ok out → t.completed ∧ t.output = out ∧ t.outLen.toNat = out.length)
    (herr : ∀ e, walk cap T S [] [] = .error e → t.failedWith e.reg.number) : t.decodes cap T S where
  data D hD hS hfits := by
    refine hok D ?_
    rw [hS, ← List.append_nil (codeStream T D), hT.walk_codeStream hD (by simpa using hfits)]
    rfl
  full D rest hD hS hfull := by
    refine herr .outFull ?_
    rw [hS, hT.walk_codeStream_full hD (Nat.zero_le _) (by simpa using hfull)]
  midPath D q b hD hS hfits hq hb hpre hne := by
    refine herr .midPath ?_
    rw [hS, hT.walk_codeStream hD (by simpa using hfits), hT.walk_midPath hq hb hpre hne]
  deadPath D q rest hD hS hfits hq hno := by
    refine herr .deadPath ?_
    rw [hS, List.append_assoc, hT.walk_codeStream hD (by simpa using hfits), walk_deadPath hq hno]

end Walk

/-! ### The registers of the walker (R182) -/

/-- WALK.LEN and WALK.PATH are the length and the number of the path `p`. -/
structure Walk.Holds (w : Walk) (p : Bits) : Prop where
  len : w.len.toNat = p.length
  path : w.path.toNat = bitsVal p

section Registers

variable {w : Walk} {p : Bits} {T : CodeTable}

theorem Walk.holds_nil : Walk.Holds ⟨0, 0⟩ [] := ⟨rfl, rfl⟩

theorem Walk.Holds.len_eq_zero_iff (h : w.Holds p) : w.len = 0 ↔ p = [] := by
  rw [← List.length_eq_zero_iff, ← h.len, ← BitVec.toNat_inj]
  rfl

/-- One more bit of a path that is shorter than a code can be. -/
theorem Walk.Holds.push (h : w.Holds p) (hp : p.length < 16) (x : Bool) :
    Walk.Holds ⟨(w.path <<< 1) ||| (BitVec.ofBool x).setWidth 16, w.len + 1⟩ (p ++ [x]) where
  len := by
    rw [BitVec.toNat_add, h.len, List.length_append, List.length_singleton]
    exact Nat.mod_eq_of_lt (show p.length + 1 < 2 ^ 5 by omega)
  path := by
    have hlt : bitsVal p <<< 1 < 2 ^ 16 := by
      have h1 := bitsVal_lt p
      have h2 : 2 ^ p.length ≤ 2 ^ 15 := Nat.pow_le_pow_right (by decide) (by omega)
      rw [Nat.shiftLeft_eq]
      omega
    have hx : ((BitVec.ofBool x).setWidth 16).toNat = x.toNat := by cases x <;> rfl
    rw [BitVec.toNat_or, BitVec.toNat_shiftLeft, h.path, hx, Nat.mod_eq_of_lt hlt, bitsVal_append_singleton,
      ← Nat.shiftLeft_add_eq_or_of_lt (by cases x <;> decide), Nat.shiftLeft_eq, Nat.mul_comm, pow_one]

/-- The registers as an entry hold the path as its code. -/
theorem Walk.Holds.code (h : w.Holds p) : CtEntry.code ⟨true, w.len, w.path⟩ = p := by
  rw [CtEntry.code, h.len, h.path, bitsOf_bitsVal]

theorem Walk.Holds.bits_lt (h : w.Holds p) : w.path.toNat < 2 ^ w.len.toNat := by
  rw [h.path, h.len]
  exact bitsVal_lt p

/-- HWALK's first test of an entry asks whether the path is its code. -/
theorem Walk.Holds.code_eq_iff (h : w.Holds p) {e : CtEntry} (he : e.bits.toNat < 2 ^ e.len.toNat) :
    e.code = p ↔ e.len = w.len ∧ e.bits = w.path := by
  constructor
  · rintro rfl
    refine ⟨BitVec.eq_of_toNat_eq ?_, BitVec.eq_of_toNat_eq ?_⟩
    · rw [h.len, CtEntry.code_length]
    · rw [h.path, CtEntry.code, bitsVal_bitsOf _ _ he]
  · rintro ⟨hlen, hbits⟩
    rw [CtEntry.code, hlen, hbits]
    exact h.code

/-- HWALK's second test of an entry asks whether the path begins its code and is not all of it. -/
theorem Walk.Holds.properPrefix_iff (h : w.Holds p) {e : CtEntry} (he : e.bits.toNat < 2 ^ e.len.toNat) :
    (p.length < e.code.length ∧ p <+: e.code) ↔
      (w.len < e.len ∧ e.bits >>> (e.len.toNat - w.len.toNat) = w.path) := by
  have hprefix : (⟨true, w.len, w.path⟩ : CtEntry).isPrefix e = true ↔ p <+: e.code := by
    rw [CtEntry.isPrefix_iff h.bits_lt he, h.code]
  rw [← hprefix, ← h.len, CtEntry.code_length, ← BitVec.lt_def, CtEntry.isPrefix, Bool.and_eq_true, decide_eq_true_eq,
    beq_iff_eq]
  exact and_congr_right fun hlt => and_iff_right (BitVec.le_of_lt hlt)

variable (hT : T.Good)
include hT

/-- The bits of the entries of a good table fit their lengths. -/
theorem CodeTable.Good.entry_bits {x : Byte × CtEntry} (hx : x ∈ T.entries) : x.2.bits.toNat < 2 ^ x.2.len.toNat := by
  obtain ⟨hat, hvalid⟩ := CodeTable.mem_entries.1 hx
  exact (CtEntry.legal_bits (hat ▸ hT.legal x.1) hvalid).2.2

theorem Walk.Holds.walkSymbol_eq (h : w.Holds p) : walkSymbol T w = codeSymbol T p := by
  refine congrArg _ (List.find?_congr fun x hx => ?_)
  rw [Bool.eq_iff_iff, Bool.and_eq_true, beq_iff_eq, beq_iff_eq, decide_eq_true_eq]
  exact (h.code_eq_iff (hT.entry_bits hx)).symm

theorem Walk.Holds.walkExtends_eq (h : w.Holds p) : walkExtends T w = properPrefix T p := by
  rw [Bool.eq_iff_iff, walkExtends, properPrefix]
  simp only [List.any_eq_true, Bool.and_eq_true, decide_eq_true_eq, beq_iff_eq, List.isPrefixOf_iff_prefix]
  exact exists_congr fun x => and_congr_right fun hx => (h.properPrefix_iff (hT.entry_bits hx)).symm

end Registers

/-- How HWALK ends when its bits are used up (R182). -/
def walkEnd (r : Walk × List Byte) : Except ErrorCause (List Byte) :=
  if r.1.len = 0 then .ok r.2 else .error .midPath

/-- R182: the loop on the registers is the walk from the path that they hold. -/
theorem CodeTable.Good.walkLoop_eq_walk {T : CodeTable} (hT : T.Good) {cap : Nat} {S p : Bits} {w : Walk} {out : List Byte}
    (h : w.Holds p) (hp : p.length < 16) : walkLoop cap T S w out >>= walkEnd = walk cap T S p out := by
  induction S generalizing w p out with
  | nil =>
    rw [walkLoop, except_ok_bind, walkEnd, walk_nil]
    simp only [h.len_eq_zero_iff]
  | cons x S ih =>
    have hpush := h.push hp x
    rw [walkLoop, hpush.walkSymbol_eq hT, hpush.walkExtends_eq hT]
    cases hsymbol : codeSymbol T (p ++ [x]) with
    | some b =>
      rw [walk_symbol hsymbol, bind_assoc]
      exact congrArg _ (funext fun o => ih Walk.holds_nil (by decide))
    | none =>
      rw [walk_noSymbol hsymbol]
      dsimp only
      split
      · next hproper => exact ih hpush (hT.length_lt_of_properPrefix hproper)
      · rfl

/-! ### HWALK (R182) -/

section Hwalk

variable {s : State} (hin : s.inLen.toNat ≤ s.ibufBytes)
include hin

theorem exec_hwalk_padExceeds (hpad : 8 * s.inLen.toNat < s.pad.toNat) :
    exec .hwalk s = .next (s.fail Writes.none .padExceeds) := by
  rw [exec, execHwalk, requireInput_of_le hin, except_ok_bind, s.input_length, if_pos hpad]
  rfl

variable (hpad : s.pad.toNat ≤ 8 * s.inLen.toNat)
include hpad

/-- R182: with enough bits the walker runs. -/
theorem exec_hwalk_of_pad : exec .hwalk s = s.finish Writes.none
    (walkLoop s.obufBytes s.ct (payloadBits s.input s.pad.toNat) ⟨0, 0⟩ [] >>= fun r =>
      if r.1.len = 0 then .ok { s.setOutput r.2 with walk := r.1 } else .error .midPath) := by
  rw [exec, execHwalk, requireInput_of_le hin, except_ok_bind, s.input_length, if_neg (not_lt.2 hpad)]

variable (hT : s.ct.Good)
include hT

theorem exec_hwalk_of_walk_ok {out : List Byte} (h : walk s.obufBytes s.ct (payloadBits s.input s.pad.toNat) [] [] = .ok out) :
    ∃ w, exec .hwalk s = .next { s.setOutput out with walk := w }.complete := by
  rw [← hT.walkLoop_eq_walk Walk.holds_nil (by decide)] at h
  obtain ⟨⟨w, o⟩, hloop, hend⟩ := except_bind_ok h
  rw [walkEnd] at hend
  split at hend
  · next hzero =>
    cases hend
    refine ⟨w, ?_⟩
    rw [exec_hwalk_of_pad hin hpad, hloop, except_ok_bind, if_pos hzero]
    rfl
  · cases hend

theorem exec_hwalk_of_walk_error {e : ErrorCause}
    (h : walk s.obufBytes s.ct (payloadBits s.input s.pad.toNat) [] [] = .error e) :
    exec .hwalk s = .next (s.fail Writes.none e) := by
  rw [← hT.walkLoop_eq_walk Walk.holds_nil (by decide)] at h
  rw [exec_hwalk_of_pad hin hpad]
  rcases except_bind_error h with hloop | ⟨⟨w, o⟩, hloop, hend⟩
  · rw [hloop, except_error_bind]
    rfl
  · rw [walkEnd] at hend
    split at hend
    · cases hend
    · next hzero =>
      cases hend
      rw [hloop, except_ok_bind, if_neg hzero]
      rfl

end Hwalk

/-- Settles O34: the register loop is the walk (`walkLoop_eq_walk`). -/
theorem hwalkAgreesWithWalk : Obligations.HwalkAgreesWithWalk := by
  intro s hin hT hpad
  refine ⟨fun out h => ?_, fun e h => ⟨_, exec_hwalk_of_walk_error hin hpad hT h, rfl, rfl, rfl⟩⟩
  obtain ⟨w, hexec⟩ := exec_hwalk_of_walk_ok hin hpad hT h
  have hlt : out.length < 2 ^ 32 := (walk_ok_le (Nat.zero_le _) h).trans_lt s.cfg.obufBytes.isLt
  exact ⟨_, hexec, ⟨rfl, rfl⟩, s.output_setOutput hlt, s.outLen_setOutput hlt⟩

/-- Settles O35: HWALK does what `walk` does, and the walk decodes (`decodes_of_walk`). -/
theorem hwalkDecodesCodeStream : Obligations.HwalkDecodesCodeStream := by
  intro s hin hT
  obtain ⟨t, ht⟩ := exec_next .hwalk s
  refine ⟨t, ht, fun hpad => hT.decodes_of_walk (fun out h => ?_) fun e h => ?_,
    fun hpad => failedWith_of_exec ht (exec_hwalk_padExceeds hin hpad)⟩
  · obtain ⟨u, hu, hdone⟩ := (hwalkAgreesWithWalk s hin hT hpad).1 out h
    cases ht.symm.trans hu
    exact hdone
  · exact failedWith_of_exec ht (exec_hwalk_of_walk_error hin hpad hT h)

end Sys2Proof.Machine
end

section
/-! PROOFS. HDECOMP (R189, R190): what it gives for a block whose table parses, by the number of entries. -/

namespace Sys2Proof.Machine

/-! ### The output of a block (R189) -/

/-- What `huff_unblock` outputs once the table `T` of `n` entries is parsed. -/
def unblockOutput (cap draw : Nat) (B : List Byte) (T : CodeTable) (n : Nat) : Except ErrorCause (List Byte) :=
  if n = 0 then .ok []
  else if n = 1 then
    if B.length - (3 + 4 * n) ≠ 4 then .error .countField
    else repeatSymbol cap (soleSymbol T draw) (readBe32 B (3 + 4 * n))
  else if 8 * (B.drop (3 + 4 * n)).length < (byteAt B 0).toNat then .error .padExceeds
  else walk cap T (payloadBits (B.drop (3 + 4 * n)) (byteAt B 0).toNat) [] []

section Output

variable {cap draw : Nat} {B : List Byte} {T : CodeTable} {n : Nat}

theorem huffUnblock_of_table (h3 : 3 ≤ B.length) (hpad : (byteAt B 0).toNat ≤ 7) (h : parseTable B 1 = .ok (T, n)) :
    huffUnblock cap draw B = unblockOutput cap draw B T n >>= fun out => .ok (T, n, out) := by
  refine (if_neg (not_lt.2 h3)).trans ((if_neg (not_lt.2 hpad)).trans ?_)
  rw [h, except_ok_bind, unblockOutput]
  dsimp only
  split
  · rfl
  · split <;> split <;> rfl

theorem unblockOutput_zero : unblockOutput cap draw B T 0 = .ok [] := rfl

theorem unblockOutput_countField (h : B.length ≠ 11) : unblockOutput cap draw B T 1 = .error .countField := by
  have htail : B.length - (3 + 4 * 1) ≠ 4 := by omega
  exact if_pos htail

theorem unblockOutput_one (h : B.length = 11) :
    unblockOutput cap draw B T 1 = repeatSymbol cap (soleSymbol T draw) (readBe32 B 7) := by
  have htail : ¬ B.length - (3 + 4 * 1) ≠ 4 := by omega
  exact if_neg htail

section Payload

variable (hn : 2 ≤ n)
include hn

theorem unblockOutput_padExceeds (h : 8 * (B.length - (3 + 4 * n)) < (byteAt B 0).toNat) :
    unblockOutput cap draw B T n = .error .padExceeds := by
  rw [unblockOutput, if_neg (by omega), if_neg (by omega), List.length_drop, if_pos h]

theorem unblockOutput_walk (h : (byteAt B 0).toNat ≤ 8 * (B.length - (3 + 4 * n))) :
    unblockOutput cap draw B T n = walk cap T (payloadBits (B.drop (3 + 4 * n)) (byteAt B 0).toNat) [] [] := by
  rw [unblockOutput, if_neg (by omega), if_neg (by omega), List.length_drop, if_neg (not_lt.2 h)]

end Payload

end Output

/-- The symbols of a table with one entry. -/
theorem CodeTable.valid_iff_of_count_one {T : CodeTable} {b : Byte} (hcount : T.count = 1) (hb : (T.at b).valid = true)
    (c : Byte) : (T.at c).valid = true ↔ c = b := by
  obtain ⟨x, hx⟩ := List.length_eq_one_iff.1 hcount
  have hmem : ∀ c, (T.at c).valid = true ↔ c = x.1 := fun c => by
    rw [← CodeTable.mem_entries_fst, hx, List.map_singleton, List.mem_singleton]
  rw [hmem, (hmem b).1 hb]

/-- R91: a legal padding count fits PAD. -/
theorem toNat_setWidth_pad {p : Byte} (h : p.toNat ≤ 7) : (p.setWidth 3).toNat = p.toNat := by
  rw [BitVec.toNat_setWidth]
  exact Nat.mod_eq_of_lt (by omega)

/-! ### HDECOMP (R190) -/

theorem exec_hdecomp_of_ok {s : State} {T : CodeTable} {n : Nat} {out : List Byte} (hin : s.inLen.toNat ≤ s.ibufBytes)
    (h : huffUnblock s.obufBytes s.draws s.input = .ok (T, n, out)) : exec .hdecomp s =
      .next { (s.setCodeTable T n).setOutput out with
        walk := ⟨0, 0⟩
        pad := (byteAt s.input 0).setWidth 3
        consumed := BitVec.ofNat 32 (3 + 4 * n) }.complete := by
  rw [exec, execHdecomp, requireInput_of_le hin, except_ok_bind, h]
  rfl

section Block

variable {s t : State} {T : CodeTable} {n : Nat} (hin : s.inLen.toNat ≤ s.ibufBytes) (h3 : 3 ≤ s.input.length)
  (hpad : (byteAt s.input 0).toNat ≤ 7) (hparse : parseTable s.input 1 = .ok (T, n)) (ht : exec .hdecomp s = .next t)
include hin h3 hpad hparse ht

/-- R190: an output is written, and what the block holds is loaded. -/
theorem hdecomp_of_output {out : List Byte} (h : unblockOutput s.obufBytes s.draws s.input T n = .ok out) :
    (t.completed ∧ t.output = out ∧ t.outLen.toNat = out.length) ∧
      t.ct = T ∧ t.nsym.toNat = n ∧ t.pad.toNat = (byteAt s.input 0).toNat ∧ t.consumed.toNat = 3 + 4 * n := by
  have hok : huffUnblock s.obufBytes s.draws s.input = .ok (T, n, out) := by
    rw [huffUnblock_of_table h3 hpad hparse, h, except_ok_bind]
  have hlt : out.length < 2 ^ 32 := (huffUnblock_ok_le hok).trans_lt s.cfg.obufBytes.isLt
  have hcount := T.count_le
  rw [(parseTable_good hparse).2] at hcount
  cases ht.symm.trans (exec_hdecomp_of_ok hin hok)
  exact ⟨⟨⟨rfl, rfl⟩, (s.setCodeTable T n).output_setOutput hlt, (s.setCodeTable T n).outLen_setOutput hlt⟩, rfl,
    Nat.mod_eq_of_lt (by omega), toNat_setWidth_pad hpad, Nat.mod_eq_of_lt (by omega)⟩

theorem hdecomp_of_output_error {e : ErrorCause} (h : unblockOutput s.obufBytes s.draws s.input T n = .error e) :
    t.failedWith e.reg.number := by
  refine failedWith_of_exec ht (exec_hdecomp_of_error hin ?_)
  rw [huffUnblock_of_table h3 hpad hparse, h, except_error_bind]

/-- R190: when HDECOMP completes there was an output. -/
theorem hdecomp_loads (hdone : t.completed) :
    t.ct = T ∧ t.nsym.toNat = n ∧ t.pad.toNat = (byteAt s.input 0).toNat ∧ t.consumed.toNat = 3 + 4 * n := by
  cases h : unblockOutput s.obufBytes s.draws s.input T n with
  | ok out => exact (hdecomp_of_output hin h3 hpad hparse ht h).2
  | error e =>
    have hfail := (hdecomp_of_output_error hin h3 hpad hparse ht h).1
    rw [hdone.1] at hfail
    cases hfail

end Block

/-- Settles O39: the output of the block is `unblockOutput`, by the number of entries; the payload's walk decodes
(`decodes_of_walk`). -/
theorem hdecompDecodesBlock : Obligations.HdecompDecodesBlock := by
  rintro s T n _ hin rfl h3 hpad hparse
  obtain ⟨t, ht⟩ := exec_next .hdecomp s
  obtain ⟨hgood, hcount⟩ := parseTable_good hparse
  have gives : ∀ {out}, unblockOutput s.obufBytes s.draws s.input T n = .ok out →
      t.completed ∧ t.output = out ∧ t.outLen.toNat = out.length := fun h => (hdecomp_of_output hin h3 hpad hparse ht h).1
  have fails : ∀ {e}, unblockOutput s.obufBytes s.draws s.input T n = .error e → t.failedWith e.reg.number :=
    hdecomp_of_output_error hin h3 hpad hparse ht
  refine ⟨t, ht, hdecomp_loads hin h3 hpad hparse ht, ?_, ?_, ?_, ?_, fun hn h => fails (unblockOutput_padExceeds hn h),
    fun hn h => hgood.decodes_of_walk (fun out ho => gives ((unblockOutput_walk hn h).trans ho))
      fun e he => fails ((unblockOutput_walk hn h).trans he)⟩
  · rintro rfl
    exact (gives unblockOutput_zero).imp_right And.left
  · rintro rfl hlen
    exact fails (unblockOutput_countField hlen)
  · rintro rfl hlen b hb hfits
    have hsole := soleSymbol_of_single (CodeTable.valid_iff_of_count_one hcount hb) s.draws
    refine (gives ?_).imp_right And.left
    rw [unblockOutput_one hlen, hsole, repeatSymbol, if_neg (not_lt.2 hfits)]
  · rintro rfl hlen hfull
    refine fails (e := .outFull) ?_
    rw [unblockOutput_one hlen, repeatSymbol, if_pos hfull]

end Sys2Proof.Machine
end

section
/-! PROOFS. HCOMP (R185 to R187): it is FREQ, TBUILD and DERIVE one after another and then the block; the blocks of the empty
input and of one symbol repeated. -/

namespace Sys2Proof.Machine

/-! ### The tree and the table of the input (R186) -/

/-- The state after the bodies of FREQ and TBUILD. -/
def State.hcompTree (s : State) : State := tbuildBody (freqBody s.input s)

/-- What the body of DERIVE makes of that tree. -/
def State.hcompTable (s : State) : Except ErrorCause (CodeTable × Nat) :=
  deriveTable s.hcompTree.node s.hcompTree.root s.hcompTree.freq.anyPresent

section Table

variable {s : State} {T : CodeTable} {n : Nat}

theorem hcompTree_treeOk (s : State) : TreeOk s.hcompTree.node s.hcompTree.nnodes.toNat s.hcompTree.root :=
  tbuildBody_treeOk _

theorem hcompTree_nnodes (s : State) : s.hcompTree.nnodes.toNat = 2 * (freqCount s.input).present.length - 1 :=
  tbuildBody_nnodes _

theorem hcompTable_count (h : s.hcompTable = .ok (T, n)) : n = T.count := ((hcompTree_treeOk s).count_derive h).symm

/-- R122: every byte of the input has a counter above 0. -/
theorem freqCount_input_pos {b : Byte} (hb : b ∈ s.input) : 0 < ((freqCount s.input).at b).toNat := by
  rw [freqCount_at_toNat (s.input_length.trans_lt s.inLen.isLt)]
  exact List.count_pos_iff.2 hb

theorem freqCount_anyPresent (hne : s.input ≠ []) : (freqCount s.input).anyPresent = true := by
  obtain ⟨b, hb⟩ := List.exists_mem_of_ne_nil _ hne
  exact FreqTable.anyPresent_iff.2 ⟨b, freqCount_input_pos hb⟩

/-- With a symbol present there is a tree (R136). -/
theorem hcompTree_root_ne (h : (freqCount s.input).anyPresent = true) : s.hcompTree.root ≠ Config.nodeNull := by
  refine (hcompTree_treeOk s).root_ne_nodeNull ?_
  have := List.length_pos_iff.2 (FreqTable.present_of_anyPresent h)
  rw [hcompTree_nnodes]
  omega

/-- R154: NULL_ROOT is the error of a symbol without a tree only. -/
theorem deriveTable_nullRoot {N : NodeStore} {root : NodeIndex} {present : Bool}
    (h : deriveTable N root present = .error .nullRoot) : root = Config.nodeNull ∧ present = true := by
  by_cases hroot : root = Config.nodeNull
  · subst hroot
    rw [deriveTable_nodeNull] at h
    split at h
    · exact ⟨rfl, by assumption⟩
    · cases h
  · cases hk : (N.at root).kind with
    | leaf =>
      rw [deriveTable_leaf hroot hk] at h
      cases h
    | internal =>
      rw [deriveTable_internal hroot hk] at h
      rcases except_bind_error h with hwalk | ⟨_, _, h⟩
      · cases deriveLeaves_error hwalk
      · cases h

/-- R186: DERIVE after FREQ and TBUILD fails on a code too long only. -/
theorem hcompTable_error {e : ErrorCause} (h : s.hcompTable = .error e) : e = .codeTooLong := by
  have hbody : deriveBody s.hcompTree = .error e := by
    rw [State.hcompTable] at h
    rw [deriveBody, h, except_error_bind]
  rcases deriveBody_error hbody with rfl | rfl
  · obtain ⟨hroot, hpresent⟩ := deriveTable_nullRoot h
    exact absurd hroot (hcompTree_root_ne hpresent)
  · rfl

/-- With no symbol present there is no tree and no code (R137, R154). -/
theorem hcompTable_empty (h : s.input = []) : s.hcompTable = .ok (CodeTable.empty, 0) := by
  have hfew := freqCount_present_length_le s.input
  have hnodes := hcompTree_nnodes s
  have hsize : s.input.dedup.length = 0 := by rw [h]; rfl
  have hroot : s.hcompTree.root = Config.nodeNull := (hcompTree_treeOk s).empty (by omega)
  have hnone : s.hcompTree.freq.anyPresent = false := by
    by_contra hp
    have := List.length_pos_iff.2 (FreqTable.present_of_anyPresent (F := freqCount s.input) (Bool.not_eq_false _ ▸ hp))
    omega
  rw [State.hcompTable, hroot, hnone]
  exact deriveTable_nodeNull

/-- One symbol gives a tree of one leaf, and the code 0 (R136, R151). -/
theorem hcompTable_single {b : Byte} (hne : s.input ≠ []) (h : ∀ x ∈ s.input, x = b) :
    s.hcompTable = .ok (tableOfCodes [(b, [false])], 1) := by
  have hinput : s.input = List.replicate s.input.length b := List.eq_replicate_of_mem h
  have hsize : s.input.dedup.length = 1 := by
    rw [hinput, List.replicate_dedup (List.length_pos_iff.2 hne).ne', List.length_singleton]
  have hfew := freqCount_present_length_le s.input
  have hpos := List.length_pos_iff.2 (FreqTable.present_of_anyPresent (freqCount_anyPresent hne))
  have hnodes := hcompTree_nnodes s
  have hlast := (hcompTree_treeOk s).last (by omega)
  have hroot := hcompTree_root_ne (freqCount_anyPresent hne)
  have hlt : s.hcompTree.root.toNat < s.hcompTree.nnodes.toNat := by omega
  have hleaf : (s.hcompTree.node.at s.hcompTree.root).kind = .leaf := by
    cases hk : (s.hcompTree.node.at s.hcompTree.root).kind with
    | leaf => rfl
    | internal =>
      have hge : (freqCount s.input).present.length ≤ s.hcompTree.root.toNat := tbuildBody_internal_ge hlt hk
      omega
  have hsym := h _ (freqCount_leaf_sym_mem (tbuildBody_leaf_mem hlt hleaf))
  rw [State.hcompTable, deriveTable_leaf hroot hleaf]
  exact congrArg (fun c => Except.ok (tableOfCodes [(c, [false])], 1)) hsym

end Table

/-! ### HCOMP (R186) -/

/-- A block begins with a legal padding count. -/
theorem byteAt_huffBlock_le (T : CodeTable) (n : Nat) (D : List Byte) : (byteAt (huffBlock T n D) 0).toNat ≤ 7 := by
  have hpad := (padCount_fills (codeStream T D).length).1
  unfold huffBlock
  split
  · decide
  · split
    · exact Nat.zero_le 7
    · exact (Nat.mod_le _ _).trans (Nat.le_of_lt_succ hpad)

/-- What HCOMP leaves: the tree and the table of its input, with the block as output and its padding count in PAD. -/
def State.hcompResult (s : State) (T : CodeTable) : State :=
  { (s.hcompTree.setCodeTable T T.count).setOutput (huffBlock T T.count s.input) with
    acc := ⟨0, 0⟩
    pad := (byteAt (huffBlock T T.count s.input) 0).setWidth 3 }.complete

theorem State.hcompResult_pad (s : State) (T : CodeTable) :
    (s.hcompResult T).pad.toNat = (byteAt (huffBlock T T.count s.input) 0).toNat :=
  toNat_setWidth_pad (byteAt_huffBlock_le _ _ _)

section Hcomp

variable {s : State} {T : CodeTable} {n : Nat}

section Result

variable (hfits : (huffBlock T T.count s.input).length ≤ s.obufBytes)
include hfits

theorem State.hcompResult_output : (s.hcompResult T).output = huffBlock T T.count s.input :=
  (s.hcompTree.setCodeTable T T.count).output_setOutput (hfits.trans_lt s.cfg.obufBytes.isLt)

theorem State.hcompResult_outLen : (s.hcompResult T).outLen.toNat = (huffBlock T T.count s.input).length :=
  (s.hcompTree.setCodeTable T T.count).outLen_setOutput (hfits.trans_lt s.cfg.obufBytes.isLt)

end Result

theorem exec_hcomp_of_lt (h : s.ibufBytes < s.inLen.toNat) :
    exec .hcomp s = .next (s.fail (listedWrites .hcomp) .paramInLen) := by
  rw [exec, execHcomp, requireInput_of_lt h, except_error_bind]
  rfl

variable (hin : s.inLen.toNat ≤ s.ibufBytes)
include hin

theorem exec_hcomp_of_error {e : ErrorCause} (h : s.hcompTable = .error e) :
    exec .hcomp s = .next (s.fail (listedWrites .hcomp) e) := by
  rw [State.hcompTable, State.hcompTree] at h
  rw [exec, execHcomp, requireInput_of_le hin, except_ok_bind, deriveBody, h]
  rfl

variable (h : s.hcompTable = .ok (T, n))
include h

/-- R186: with a table the block's room decides. -/
theorem exec_hcomp_of_table : exec .hcomp s =
    if s.obufBytes < (huffBlock T T.count s.input).length then .next (s.fail (listedWrites .hcomp) .outFull)
    else .next (s.hcompResult T) := by
  obtain rfl := hcompTable_count h
  have hnsym : (s.hcompTree.setCodeTable T T.count).nsym.toNat = T.count :=
    Nat.mod_eq_of_lt (T.count_le.trans_lt (by decide))
  rw [exec, execHcomp, requireInput_of_le hin, except_ok_bind, ← State.hcompTree, deriveBody_of_table h, except_ok_bind]
  dsimp only
  rw [hnsym, State.setCodeTable_ct]
  split <;> rfl

theorem exec_hcomp_of_room (hfits : (huffBlock T T.count s.input).length ≤ s.obufBytes) :
    exec .hcomp s = .next (s.hcompResult T) := by
  rw [exec_hcomp_of_table hin h, if_neg (not_lt.2 hfits)]

theorem exec_hcomp_of_noRoom (hfull : s.obufBytes < (huffBlock T T.count s.input).length) :
    exec .hcomp s = .next (s.fail (listedWrites .hcomp) .outFull) := by
  rw [exec_hcomp_of_table hin h, if_pos hfull]

end Hcomp

/-- Settles O36: the three commands leave the tree and the table of the input, from which HCOMP makes its block. -/
theorem hcompMatchesUnitCommands : Obligations.HcompMatchesUnitCommands := by
  intro s a b c hin ha hb hc
  cases ha.symm.trans (exec_freq_of_le hin)
  cases hb.symm.trans (exec_tbuild_eq _)
  cases htable : s.hcompTable with
  | ok r =>
    obtain ⟨T, n⟩ := r
    obtain rfl := hcompTable_count htable
    cases hc.symm.trans (exec_derive_of_table htable)
    refine ⟨fun _ block hblock => ?_, fun herr => (nomatch herr)⟩
    subst hblock
    refine ⟨fun hfits => ?_, fun hfull => ⟨_, exec_hcomp_of_noRoom hin htable hfull, s.failedWith_fail _ _⟩⟩
    exact ⟨_, exec_hcomp_of_room hin htable hfits, ⟨rfl, rfl⟩, rfl, rfl, rfl, rfl, rfl, rfl, State.hcompResult_output hfits,
      State.hcompResult_outLen hfits, State.hcompResult_pad s T⟩
  | error e =>
    cases hc.symm.trans (exec_derive_of_error htable)
    obtain rfl := hcompTable_error htable
    exact ⟨fun hdone => (nomatch hdone.1), fun _ => ⟨_, exec_hcomp_of_error hin htable, s.failedWith_fail _ _⟩⟩

/-! ### The short circuits (R187) -/

theorem huffBlock_empty (D : List Byte) : huffBlock CodeTable.empty CodeTable.empty.count D = [0x00, 0x00, 0x00] := by
  rw [CodeTable.count_empty]
  rfl

/-- R11: the four bytes of a number. -/
theorem be32_eq (v : Word) : be32 v = [v.extractLsb' 24 8, v.extractLsb' 16 8, v.extractLsb' 8 8, v.extractLsb' 0 8] := by
  have hinner : ∀ i j, j + 8 ≤ 16 → (v.extractLsb' i 16).extractLsb' j 8 = v.extractLsb' (i + j) 8 := fun i j hj => by
    ext k hk
    simp only [BitVec.getElem_extractLsb', BitVec.getLsbD_extractLsb', Nat.add_assoc]
    simp only [show j + k < 16 by omega, decide_true, Bool.true_and]
  simp only [be32, be16, hinner, Nat.reduceAdd, Nat.reduceLeDiff, List.cons_append, List.nil_append]

/-- The table of one symbol holds the entry of the code 0 for it (R151). -/
theorem entries_tableOfCodes_single (b : Byte) : (tableOfCodes [(b, [false])]).entries = [(b, ⟨true, 1, 0⟩)] := by
  rw [CodeTable.entries_of_single fun c => by rw [valid_tableOfCodes]; exact List.mem_singleton]
  exact congrArg (fun e => [(b, e)]) (CodeTable.at_put_self _ _ _)

theorem huffBlock_single (b : Byte) (D : List Byte) :
    huffBlock (tableOfCodes [(b, [false])]) (tableOfCodes [(b, [false])]).count D =
      [0x00, 0x00, 0x01, b, 0x01, 0x00, 0x00] ++ be32 (BitVec.ofNat 32 D.length) := by
  have hcount : (tableOfCodes [(b, [false])]).count = 1 := count_tableOfCodes (List.nodup_singleton b)
  have hser : serTable (tableOfCodes [(b, [false])]) = [0x00, 0x01, b, 0x01, 0x00, 0x00] := by
    rw [serTable, hcount, entries_tableOfCodes_single]
    rfl
  rw [hcount, huffBlock, if_neg one_ne_zero, if_pos rfl, hser]
  rfl

/-- HCOMP on an input whose block is known and fits. -/
theorem hcomp_completes_with {s : State} {T : CodeTable} {n : Nat} {block : List Byte} (hin : s.inLen.toNat ≤ s.ibufBytes)
    (htable : s.hcompTable = .ok (T, n)) (hblock : huffBlock T T.count s.input = block) (hfits : block.length ≤ s.obufBytes) :
    ∃ t, exec .hcomp s = .next t ∧ t.completed ∧ t.output = block ∧ t.outLen.toNat = block.length ∧
      t.pad.toNat = (byteAt block 0).toNat := by
  subst hblock
  exact ⟨_, exec_hcomp_of_room hin htable hfits, ⟨rfl, rfl⟩, State.hcompResult_output hfits, State.hcompResult_outLen hfits,
    State.hcompResult_pad s T⟩

/-- Settles O37: no symbol gives the empty table, one symbol the table of one entry. -/
theorem hcompShortCircuits : Obligations.HcompShortCircuits := by
  intro s hin
  refine ⟨fun hzero hroom => ?_, fun b hne hall hroom => ?_⟩
  · have hempty : s.input = [] := List.length_eq_zero_iff.1 (by rw [s.input_length, hzero]; rfl)
    obtain ⟨t, ht, hdone, hout, hlen, hpad⟩ := hcomp_completes_with hin (hcompTable_empty hempty) (huffBlock_empty _) hroom
    exact ⟨t, ht, hdone, hout, BitVec.eq_of_toNat_eq hlen, BitVec.eq_of_toNat_eq hpad⟩
  · have hinput : s.input ≠ [] := fun hnil => hne (BitVec.eq_of_toNat_eq (s.input_length.symm.trans (by rw [hnil]; rfl)))
    have hsame : ∀ x ∈ s.input, x = b := fun x hx => by
      obtain ⟨a, ha, rfl⟩ := List.mem_map.1 hx
      exact hall a (List.mem_range.1 ha)
    have hblock := huffBlock_single b s.input
    rw [s.input_length, BitVec.ofNat_toNat, BitVec.setWidth_eq, be32_eq] at hblock
    obtain ⟨t, ht, hdone, hout, hlen, hpad⟩ := hcomp_completes_with hin (hcompTable_single hinput hsame) hblock hroom
    exact ⟨t, ht, hdone, BitVec.eq_of_toNat_eq hlen, BitVec.eq_of_toNat_eq hpad, hout⟩

end Sys2Proof.Machine
end

section
/-! PROOFS. Decompressing what HCOMP made (R193): HCOMP's table has a code for every byte of its input, its block parses to that
table, and the payload is the code stream of the input. -/

namespace Sys2Proof.Machine

/-! ### Every symbol of the input has a code (R150, R152) -/

section Tree

variable {N : NodeStore} {n : Nat} {root : NodeIndex}

/-- Every node in use is below the root (R133). -/
theorem TreeOk.exists_path (h : TreeOk N n root) {k : NodeIndex} (hk : k.toNat < n) : ∃ p, reaches N root p k := by
  induction hm : n - k.toNat using Nat.strong_induction_on generalizing k with
  | _ m ih =>
    have hlast := h.last (by omega)
    by_cases hroot : k.toNat = n - 1
    · exact ⟨[], BitVec.eq_of_toNat_eq (hlast.trans hroot.symm)⟩
    · obtain ⟨j, hj, ⟨_, hkind, hchild⟩, _⟩ := h.owned k.toNat (by omega)
      obtain ⟨hl, hr, _⟩ := h.children j hj hkind
      have hjn : (BitVec.ofNat 9 j).toNat = j := Nat.mod_eq_of_lt (by have := h.small; omega)
      obtain ⟨p, hp⟩ := ih (n - j) (by omega) (k := BitVec.ofNat 9 j) (by omega) (by omega)
      rcases hchild with hleft | hright
      · exact ⟨p ++ [false], reaches_snoc.2 ⟨_, hp, hkind, BitVec.eq_of_toNat_eq hleft⟩⟩
      · exact ⟨p ++ [true], reaches_snoc.2 ⟨_, hp, hkind, BitVec.eq_of_toNat_eq hright⟩⟩

/-- DERIVE gives the symbol of every leaf a code (R150, R151). -/
theorem TreeOk.valid_of_leaf (h : TreeOk N n root) {present : Bool} {T : CodeTable} {m : Nat}
    (hd : deriveTable N root present = .ok (T, m)) {k : NodeIndex} (hk : k.toNat < n) (hl : (N.at k).kind = .leaf) :
    (T.at (N.at k).sym).valid = true := by
  obtain ⟨p, hp⟩ := h.exists_path hk
  have hroot := h.root_ne_nodeNull (by omega)
  cases hkind : (N.at root).kind with
  | leaf =>
    rw [deriveTable_leaf hroot hkind] at hd
    cases hd
    cases p with
    | nil =>
      cases hp
      exact (valid_tableOfCodes _ _).2 (List.mem_singleton.2 rfl)
    | cons x p =>
      have hinternal := (reaches_cons.1 hp).1
      rw [hkind] at hinternal
      cases hinternal
  | internal =>
    rw [deriveTable_internal hroot hkind] at hd
    obtain ⟨codes, hwalk, hd⟩ := except_bind_ok hd
    cases hd
    exact (valid_tableOfCodes _ _).2 (List.mem_map_of_mem (deriveLeaves_visits hwalk hp hl).1)

end Tree

/-- HCOMP's table covers its input (R185). -/
theorem hcompTable_covers {s : State} {T : CodeTable} {n : Nat} (h : s.hcompTable = .ok (T, n)) : covers T s.input := by
  intro b hb
  have hmem : b.toNat ∈ (freqCount s.input).present := by
    refine List.mem_filter.2 ⟨List.mem_range.2 b.isLt, decide_eq_true ?_⟩
    rw [BitVec.ofNat_toNat, BitVec.setWidth_eq]
    exact freqCount_input_pos hb
  obtain ⟨k, hk, hkb⟩ := List.mem_iff_getElem.1 hmem
  have hle : (freqCount s.input).present.length ≤ 256 := by
    rw [← treeLeaves_length]
    exact treeLeaves_length_le _
  have hk9 : (BitVec.ofNat 9 k).toNat = k := Nat.mod_eq_of_lt (by omega)
  have hleaf : s.hcompTree.node.at (BitVec.ofNat 9 k) = (freqCount s.input).leaf b.toNat := by
    rw [← hkb]
    exact tbuildBody_node_at (buildTree_getElem?_leaf (freqCount s.input) hk)
  have hvalid := (hcompTree_treeOk s).valid_of_leaf h (k := BitVec.ofNat 9 k) (by rw [hcompTree_nnodes]; omega)
    (by rw [hleaf]; rfl)
  rw [hleaf] at hvalid
  simpa [FreqTable.leaf, Node.ofSymbol] using hvalid

/-! ### The block (R185) parses -/

theorem readBe16_cons_succ (x : Byte) (B : List Byte) (a : Nat) : readBe16 (x :: B) (a + 1) = readBe16 B a := by
  rw [readBe16, readBe16, byteAt_cons_succ, byteAt_cons_succ]

theorem addEntries_cons_succ (x : Byte) (B : List Byte) (n e : Nat) (T : CodeTable) :
    addEntries (x :: B) n (e + 1) T = addEntries B n e T := by
  induction n generalizing e T with
  | zero => rfl
  | succ n ih =>
    rw [addEntries, addEntries, byteAt_cons_succ, byteAt_cons_succ, Nat.add_right_comm e 1 2, readBe16_cons_succ]
    exact congrArg _ (funext fun T' => by rw [Nat.add_right_comm e 1 4, ih])

/-- A table parses the same behind one more byte. -/
theorem parseTable_cons_succ (x : Byte) (B : List Byte) (p : Nat) : parseTable (x :: B) (p + 1) = parseTable B p := by
  simp only [parseTable, List.length_cons, Nat.add_right_comm p 1, Nat.add_right_comm (p + 2) 1, Nat.add_lt_add_iff_right,
    readBe16_cons_succ, addEntries_cons_succ]

/-- The padding count a block begins with (R185). -/
def blockPad (T : CodeTable) (D : List Byte) : Nat := if T.count ≤ 1 then 0 else (pack T D).2

/-- What follows the table in a block (R185). -/
def blockTail (T : CodeTable) (D : List Byte) : List Byte :=
  if T.count = 0 then [] else if T.count = 1 then be32 (BitVec.ofNat 32 D.length) else (pack T D).1

section Block

variable (T : CodeTable) (D : List Byte)

theorem huffBlock_eq : huffBlock T T.count D = BitVec.ofNat 8 (blockPad T D) :: (serTable T ++ blockTail T D) := by
  rw [huffBlock, blockPad, blockTail]
  by_cases h0 : T.count = 0
  · have hentries : T.entries = [] := List.length_eq_zero_iff.1 h0
    rw [if_pos h0, if_pos h0, if_pos (by omega), serTable, h0, hentries]
    rfl
  · rw [if_neg h0, if_neg h0]
    by_cases h1 : T.count = 1
    · rw [if_pos h1, if_pos h1, if_pos (by omega)]
      rfl
    · rw [if_neg h1, if_neg h1, if_neg (by omega)]
      rfl

theorem byteAt_huffBlock_zero : (byteAt (huffBlock T T.count D) 0).toNat = blockPad T D := by
  have hlt := (padCount_fills (codeStream T D).length).1
  rw [huffBlock_eq, byteAt_cons_zero, BitVec.toNat_ofNat, blockPad]
  refine Nat.mod_eq_of_lt ?_
  split
  · decide
  · exact hlt.trans (by decide)

theorem huffBlock_length : (huffBlock T T.count D).length = 3 + 4 * T.count + (blockTail T D).length := by
  rw [huffBlock_eq, List.length_cons, List.length_append, serTable_length]
  omega

theorem drop_huffBlock : (huffBlock T T.count D).drop (3 + 4 * T.count) = blockTail T D := by
  have hlen : (BitVec.ofNat 8 (blockPad T D) :: serTable T).length = 3 + 4 * T.count := by
    rw [List.length_cons, serTable_length]
    omega
  rw [huffBlock_eq, ← List.cons_append, ← hlen, List.drop_left]

theorem parseTable_huffBlock (hT : T.Good) : parseTable (huffBlock T T.count D) 1 = .ok (T, T.count) := by
  rw [huffBlock_eq, parseTable_cons_succ]
  exact tableRoundTrip T _ hT

end Block

theorem readBe32_append_left_length (A B : List Byte) (k : Nat) : readBe32 (A ++ B) (A.length + k) = readBe32 B k := by
  simp only [readBe32, readBe16, Nat.add_assoc, byteAt_append_left_length]

/-- The count of a one-entry block reads back (R93). -/
theorem readBe32_huffBlock_one {T : CodeTable} {D : List Byte} (h : T.count = 1) (hlt : D.length < 2 ^ 32) :
    (readBe32 (huffBlock T T.count D) 7).toNat = D.length := by
  have hseven : (BitVec.ofNat 8 (blockPad T D) :: serTable T).length = 7 := by rw [List.length_cons, serTable_length, h]
  have hread := readBe32_append_left_length (BitVec.ofNat 8 (blockPad T D) :: serTable T) (be32 (BitVec.ofNat 32 D.length)) 0
  rw [Nat.add_zero, hseven, ← List.append_nil (be32 _), readBe32_be32, List.append_nil] at hread
  rw [huffBlock_eq, blockTail, if_neg (by omega), if_pos h, ← List.cons_append, hread]
  exact Nat.mod_eq_of_lt hlt

theorem payloadBits_huffBlock {T : CodeTable} {D : List Byte} (h : 2 ≤ T.count) :
    blockPad T D ≤ 8 * (blockTail T D).length ∧ payloadBits (blockTail T D) (blockPad T D) = codeStream T D := by
  obtain ⟨_, hlen, _, _, hbits⟩ := packIsMsbFirst T D (pack T D).1 (pack T D).2 rfl
  rw [blockPad, blockTail, if_neg (by omega), if_neg (by omega), if_neg (by omega)]
  exact ⟨by omega, hbits⟩

/-! ### The round trip (R193) -/

/-- Everything HCOMP does when it completes. -/
theorem hcomp_completed {s t : State} (h : exec .hcomp s = .next t) (hdone : t.completed) : ∃ T,
    s.hcompTable = .ok (T, T.count) ∧ (huffBlock T T.count s.input).length ≤ s.obufBytes ∧ t = s.hcompResult T := by
  have noFail : ∀ {e}, exec .hcomp s ≠ .next (s.fail (listedWrites .hcomp) e) := fun he => by
    cases h.symm.trans he
    cases hdone.1
  have hin : s.inLen.toNat ≤ s.ibufBytes := by
    by_contra hlt
    exact noFail (exec_hcomp_of_lt (not_le.1 hlt))
  cases htable : s.hcompTable with
  | error e => exact absurd (exec_hcomp_of_error hin htable) noFail
  | ok r =>
    obtain ⟨T, n⟩ := r
    obtain rfl := hcompTable_count htable
    have hfits : (huffBlock T T.count s.input).length ≤ s.obufBytes := by
      by_contra hfull
      exact noFail (exec_hcomp_of_noRoom hin htable (not_le.1 hfull))
    cases h.symm.trans (exec_hcomp_of_room hin htable hfits)
    exact ⟨T, rfl, hfits, rfl⟩

/-- An input that is another machine's output. -/
theorem State.input_eq_output {u t : State} (hlen : u.inLen = t.outLen) (h : ∀ a < t.outLen.toNat, u.ibufAt a = t.obufAt a) :
    u.input = t.output := by
  rw [State.input, State.output, hlen]
  exact List.map_congr_left fun a ha => h a (List.mem_range.1 ha)

/-- R193: a block of a covered input decodes to the input. -/
theorem hdecomp_huffBlock {u : State} {T : CodeTable} {D : List Byte} (hT : T.Good) (hD : covers T D)
    (hin : u.inLen.toNat ≤ u.ibufBytes) (hinput : u.input = huffBlock T T.count D) (hroom : D.length ≤ u.obufBytes) :
    ∃ v, exec .hdecomp u = .next v ∧ v.completed ∧ v.output = D := by
  have hlen := huffBlock_length T D
  have hpad := byteAt_huffBlock_zero T D
  obtain ⟨v, hv, _, hzero, _, hone, _, _, hmany⟩ := hdecompDecodesBlock u T T.count _ hin hinput (by omega)
    (byteAt_huffBlock_le T T.count D) (parseTable_huffBlock T D hT)
  refine ⟨v, hv, ?_⟩
  rcases Nat.lt_trichotomy T.count 1 with h | h | h
  · have hempty : D = [] := List.eq_nil_iff_forall_not_mem.2 fun b hb => by
      have hpos : 0 < T.count := by
        simpa [CodeTable.count] using List.length_pos_of_mem (CodeTable.mem_entries_fst.2 (hD b hb))
      omega
    exact hempty ▸ hzero (by omega)
  · obtain ⟨x, hx⟩ := List.length_eq_one_iff.1 h
    have hvalid : (T.at x.1).valid = true := CodeTable.mem_entries_fst.1 (by rw [hx]; exact List.mem_singleton.2 rfl)
    have hsame : D = List.replicate D.length x.1 :=
      List.eq_replicate_of_mem fun b hb => (CodeTable.valid_iff_of_count_one h hvalid b).1 (hD b hb)
    have hcount := readBe32_huffBlock_one h (hroom.trans_lt u.cfg.obufBytes.isLt)
    have heleven : (huffBlock T T.count D).length = 11 := by
      rw [hlen, blockTail, if_neg (by omega), if_pos h, be32_length, h]
    have hdone := hone h heleven x.1 hvalid (hcount.trans_le hroom)
    rwa [hcount, ← hsame] at hdone
  · obtain ⟨hle, hbits⟩ := payloadBits_huffBlock (D := D) h
    have hdecodes := hmany h (by omega)
    rw [hpad, drop_huffBlock, hbits] at hdecodes
    obtain ⟨hdone, hout, _⟩ := hdecodes.data D hD rfl hroom
    exact ⟨hdone, hout⟩

/-- Settles O40: HCOMP's block is that of a table that covers the input. -/
theorem huffmanRoundTrip : Obligations.HuffmanRoundTrip := by
  intro s t u hexec hdone hlen hin hbytes hroom
  obtain ⟨T, htable, hfits, rfl⟩ := hcomp_completed hexec hdone
  have hinput := (State.input_eq_output hlen hbytes).trans (State.hcompResult_output hfits)
  exact hdecomp_huffBlock (deriveTable_good htable) (hcompTable_covers htable) hin hinput (by rwa [s.input_length])

end Sys2Proof.Machine
end

section
/-! PROOFS. The bit-packer (R175 to R178): ACC holds the bits of the code stream that are not yet output, so that HPACK's loop
outputs the full bytes of the stream and its tail the rest, padded. -/

namespace Sys2Proof.Machine

/-! ### Bit-strings as numbers and as bytes (R10, R175) -/

theorem bitsVal_append (c d : Bits) : bitsVal (c ++ d) = bitsVal c * 2 ^ d.length + bitsVal d := by
  induction d using List.reverseRecOn with
  | nil => simp
  | append_singleton d x ih =>
    rw [← List.append_assoc, bitsVal_append_singleton, bitsVal_append_singleton, ih, List.length_append, List.length_singleton,
      pow_succ]
    ring

theorem bitsVal_replicate_false (n : Nat) : bitsVal (List.replicate n false) = 0 := by
  induction n with
  | zero => rfl
  | succ n ih => rw [List.replicate_succ', bitsVal_append_singleton, ih]; rfl

/-- The first `k` bits of a string, as a number and what is left. -/
theorem bitsVal_take_drop (p : Bits) (k : Nat) :
    bitsVal p = bitsVal (p.take k) * 2 ^ (p.length - k) + bitsVal (p.drop k) := by
  rw [← List.length_drop, ← bitsVal_append, List.take_append_drop]

theorem bitsVal_drop_lt (p : Bits) (k : Nat) : bitsVal (p.drop k) < 2 ^ (p.length - k) := by
  rw [← List.length_drop]
  exact bitsVal_lt _

theorem bytesOfBits_add (m n : Nat) (S : Bits) : bytesOfBits (m + n) S = bytesOfBits m S ++ bytesOfBits n (S.drop (8 * m)) := by
  induction m generalizing S with
  | zero => simp [bytesOfBits]
  | succ m ih =>
    rw [Nat.add_right_comm, bytesOfBits, bytesOfBits, ih, List.drop_drop, List.cons_append, Nat.mul_succ, Nat.add_comm 8]

theorem bytesOfBits_append {m : Nat} {S : Bits} (h : 8 * m ≤ S.length) (R : Bits) :
    bytesOfBits m (S ++ R) = bytesOfBits m S := by
  induction m generalizing S with
  | zero => rfl
  | succ m ih =>
    rw [bytesOfBits, bytesOfBits, List.take_append_of_le_length (by omega), List.drop_append_of_le_length (by omega),
      ih (by rw [List.length_drop]; omega)]

/-! ### The accumulator (R36, R176) -/

/-- ACC holds the bits `p`. -/
structure Acc.Holds (a : Acc) (p : Bits) : Prop where
  cnt : a.cnt.toNat = p.length
  val : a.val.toNat = bitsVal p

section Accumulator

variable {a : Acc} {p : Bits}

theorem Acc.holds_nil : Acc.Holds ⟨0, 0⟩ [] := ⟨rfl, rfl⟩

/-- A code enters below the bits already there. -/
theorem Acc.Holds.enter (h : a.Holds p) {e : CtEntry} (he : e.bits.toNat < 2 ^ e.len.toNat)
    (hroom : p.length + e.len.toNat ≤ 23) :
    Acc.Holds ⟨(a.val <<< e.len.toNat) ||| e.bits.setWidth 23, a.cnt + e.len⟩ (p ++ e.code) where
  cnt := by
    rw [BitVec.toNat_add, h.cnt, List.length_append, CtEntry.code_length]
    exact Nat.mod_eq_of_lt (by omega)
  val := by
    have hlt : bitsVal p <<< e.len.toNat < 2 ^ 23 := by
      rw [Nat.shiftLeft_eq]
      calc bitsVal p * 2 ^ e.len.toNat < 2 ^ p.length * 2 ^ e.len.toNat := by gcongr; exact bitsVal_lt p
        _ = 2 ^ (p.length + e.len.toNat) := (pow_add _ _ _).symm
        _ ≤ 2 ^ 23 := Nat.pow_le_pow_right (by decide) hroom
    rw [BitVec.toNat_or, BitVec.toNat_shiftLeft, h.val, Nat.mod_eq_of_lt hlt, BitVec.toNat_setWidth_of_le (by decide),
      ← Nat.shiftLeft_add_eq_or_of_lt he, Nat.shiftLeft_eq, bitsVal_append, CtEntry.code_length, CtEntry.code,
      bitsVal_bitsOf _ _ he]

/-- The byte that leaves is the first eight bits. -/
theorem Acc.Holds.first_byte (h : a.Holds p) :
    (a.val >>> (a.cnt.toNat - 8)).setWidth 8 = BitVec.ofNat 8 (bitsVal (p.take 8)) := by
  have hdiv : bitsVal p / 2 ^ (p.length - 8) = bitsVal (p.take 8) := by
    rw [bitsVal_take_drop p 8, Nat.mul_comm, Nat.mul_add_div (by positivity), Nat.div_eq_of_lt (bitsVal_drop_lt p 8),
      Nat.add_zero]
  apply BitVec.eq_of_toNat_eq
  rw [BitVec.toNat_setWidth, BitVec.toNat_ushiftRight, h.val, h.cnt, Nat.shiftRight_eq_div_pow, hdiv, BitVec.toNat_ofNat]

/-- After a byte has left the other bits stay. -/
theorem Acc.Holds.rest (h : a.Holds p) (h8 : 8 ≤ p.length) :
    Acc.Holds ⟨a.val &&& BitVec.ofNat 23 (2 ^ (a.cnt - 8).toNat - 1), a.cnt - 8⟩ (p.drop 8) := by
  have hcnt : (a.cnt - 8).toNat = p.length - 8 := by
    rw [BitVec.toNat_sub_of_le (BitVec.le_def.2 (h.cnt ▸ h8)), h.cnt]
    rfl
  have hle : p.length ≤ 31 := h.cnt ▸ Nat.le_of_lt_succ a.cnt.isLt
  have hmask : 2 ^ (p.length - 8) - 1 < 2 ^ 23 := by
    have : 2 ^ (p.length - 8) ≤ 2 ^ 23 := Nat.pow_le_pow_right (by decide) (by omega)
    have : 0 < 2 ^ (p.length - 8) := by positivity
    omega
  refine ⟨by rw [hcnt, List.length_drop], ?_⟩
  rw [BitVec.toNat_and, BitVec.toNat_ofNat, hcnt, h.val, Nat.mod_eq_of_lt hmask, Nat.and_two_pow_sub_one_eq_mod,
    bitsVal_take_drop p 8, Nat.mul_add_mod', Nat.mod_eq_of_lt (bitsVal_drop_lt p 8)]

end Accumulator

/-! ### The full bytes (R176) -/

/-- What a packer that has the bits `p` answers from the output `out`: the full bytes of `p` appended and the other bits held,
or OUT_FULL when the bytes do not fit. -/
def Flushed (cap : Nat) (out : List Byte) (p : Bits) (r : Except ErrorCause (Acc × List Byte)) : Prop :=
  if out.length + p.length / 8 ≤ cap then
    ∃ a, Acc.Holds a (p.drop (8 * (p.length / 8))) ∧ r = .ok (a, out ++ bytesOfBits (p.length / 8) p)
  else r = .error .outFull

section Flush

variable {cap : Nat} {out : List Byte} {a : Acc} {p : Bits} {r : Except ErrorCause (Acc × List Byte)}

theorem Flushed.of_short (h : a.Holds p) (h8 : p.length < 8) (hout : out.length ≤ cap) : Flushed cap out p (.ok (a, out)) := by
  rw [Flushed, Nat.div_eq_of_lt h8, Nat.add_zero, if_pos hout]
  exact ⟨a, h, by rw [bytesOfBits, List.append_nil]⟩

theorem Flushed.of_full (h : cap < out.length + p.length / 8) : Flushed cap out p (.error .outFull) := by
  rw [Flushed, if_neg (not_le.2 h)]

/-- Bytes already out and the rest of the bits to come. -/
theorem Flushed.of_bytes {m : Nat} (hm : 8 * m ≤ p.length) (h : Flushed cap (out ++ bytesOfBits m p) (p.drop (8 * m)) r) :
    Flushed cap out p r := by
  have hdiv : p.length / 8 = m + (p.drop (8 * m)).length / 8 := by
    rw [List.length_drop]
    omega
  rw [Flushed, List.length_append, bytesOfBits_length, Nat.add_assoc, ← hdiv, List.drop_drop, ← Nat.mul_add, ← hdiv,
    List.append_assoc] at h
  rwa [Flushed, hdiv, bytesOfBits_add, ← hdiv]

/-- The flush loop outputs the full bytes of ACC. -/
theorem accFlush_flushed {fuel : Nat} (h : a.Holds p) (hfuel : p.length < 8 * (fuel + 1)) (hout : out.length ≤ cap) :
    Flushed cap out p (accFlush cap fuel a out) := by
  induction fuel generalizing a p out with
  | zero => exact .of_short h hfuel hout
  | succ fuel ih =>
    rw [accFlush, h.cnt]
    split
    · next h8 =>
      have hlen : (out ++ bytesOfBits 1 p).length = out.length + 1 := by rw [List.length_append, bytesOfBits_length]
      rcases emit_cases cap out ((a.val >>> (p.length - 8)).setWidth 8) with ⟨hne, he⟩ | ⟨heq, he⟩ <;> rw [he]
      · rw [except_ok_bind, ← h.cnt, h.first_byte]
        exact .of_bytes (m := 1) h8 (ih (h.rest h8) (by rw [List.length_drop]; omega) (by omega))
      · exact .of_full (by omega)
    · next h8 => exact .of_short h (not_le.1 h8) hout

end Flush

/-! ### The loop over the input (R176) -/

section Loop

variable {cap : Nat} {T : CodeTable} {D : List Byte}

theorem packLoop_append (D D' : List Byte) (a : Acc) (out : List Byte) :
    packLoop cap T (D ++ D') a out = packLoop cap T D a out >>= fun r => packLoop cap T D' r.1 r.2 := by
  induction D generalizing a out with
  | nil => rfl
  | cons b D ih =>
    rw [List.cons_append, packLoop, packLoop, bind_assoc]
    exact congrArg _ (funext fun r => ih r.1 r.2)

/-- R177: a byte without a code. -/
theorem packLoop_missingCode {b : Byte} (hb : (T.at b).valid = false) (a : Acc) (out : List Byte) :
    packLoop cap T (b :: D) a out = .error .missingCode := by
  rw [packLoop, packByte, if_neg (by simp [hb]), except_error_bind]

variable (hT : ∀ b, (T.at b).legal) (hD : covers T D)
include hT hD

/-- The loop outputs the full bytes of the bits held and the code stream. -/
theorem packLoop_flushed {p : Bits} {a : Acc} {out : List Byte} (h : a.Holds p) (h8 : p.length < 8) (hout : out.length ≤ cap) :
    Flushed cap out (p ++ codeStream T D) (packLoop cap T D a out) := by
  induction D generalizing p a out with
  | nil =>
    rw [codeStream, List.flatMap_nil, List.append_nil]
    exact .of_short h h8 hout
  | cons b D ih =>
    obtain ⟨hb, hD⟩ := covers_cons.1 hD
    obtain ⟨_, h16, hbits⟩ := CtEntry.legal_bits (hT b) hb
    have hflush := accFlush_flushed (fuel := 3) (h.enter hbits (by omega))
      (by rw [List.length_append, CtEntry.code_length]; omega) hout
    rw [codeStream_cons, ← List.append_assoc, packLoop, packByte, if_pos hb]
    generalize p ++ (T.at b).code = q at hflush
    rw [Flushed] at hflush
    split at hflush
    · next hfits =>
      obtain ⟨a', hrest, hstep⟩ := hflush
      have hfull : 8 * (q.length / 8) ≤ q.length := Nat.mul_div_le _ _
      rw [hstep, except_ok_bind]
      refine .of_bytes (m := q.length / 8) (by rw [List.length_append]; omega) ?_
      rw [bytesOfBits_append hfull, List.drop_append_of_le_length hfull]
      exact ih hD hrest (by rw [List.length_drop]; omega) (by rw [List.length_append, bytesOfBits_length]; exact hfits)
    · next hfull =>
      rw [hflush, except_error_bind]
      refine .of_full ?_
      have : q.length / 8 ≤ (q ++ codeStream T D).length / 8 := Nat.div_le_div_right (by rw [List.length_append]; omega)
      omega

theorem codeStream_length_le_of_covers : (codeStream T D).length ≤ 16 * D.length := by
  induction D with
  | nil => exact le_rfl
  | cons b D ih =>
    obtain ⟨hb, hD⟩ := covers_cons.1 hD
    have h16 := (CtEntry.legal_bits (hT b) hb).2.1
    have := ih hD
    rw [codeStream_cons, List.length_append, CtEntry.code_length, List.length_cons]
    omega

end Loop

/-! ### The last byte (R176) -/

/-- The last bits of ACC, left-aligned and filled with zeros. -/
theorem Acc.Holds.last_byte {a : Acc} {p : Bits} (h : a.Holds p) {pad : Nat} (hpad : p.length + pad = 8) :
    (a.val <<< pad).setWidth 8 = BitVec.ofNat 8 (bitsVal (p ++ List.replicate pad false)) := by
  have hlt : bitsVal p * 2 ^ pad < 2 ^ 8 := by
    calc bitsVal p * 2 ^ pad < 2 ^ p.length * 2 ^ pad := by gcongr; exact bitsVal_lt p
      _ = 2 ^ 8 := by rw [← pow_add, hpad]
  apply BitVec.eq_of_toNat_eq
  rw [BitVec.toNat_setWidth, BitVec.toNat_shiftLeft, h.val, Nat.shiftLeft_eq, BitVec.toNat_ofNat, bitsVal_append,
    bitsVal_replicate_false, List.length_replicate, Nat.add_zero, Nat.mod_eq_of_lt (hlt.trans (by decide))]

/-- R176: the bits left over are padded to a byte, if there are any. -/
theorem packTail_eq {cap : Nat} {a : Acc} {p : Bits} {out : List Byte} (h : a.Holds p) (h8 : p.length < 8)
    (hout : out.length ≤ cap) : packTail cap a out =
      if out.length + (p.length + padCount p.length) / 8 ≤ cap then
        .ok (out ++ bytesOfBits ((p.length + padCount p.length) / 8) (p ++ List.replicate (padCount p.length) false),
          BitVec.ofNat 3 (padCount p.length))
      else .error .outFull := by
  rw [packTail, h.cnt]
  by_cases h0 : 0 < p.length
  · have hpad : padCount p.length = 8 - p.length := by
      unfold padCount
      omega
    have hsum : p.length + (8 - p.length) = 8 := by omega
    have htake : (p ++ List.replicate (8 - p.length) false).take 8 = p ++ List.replicate (8 - p.length) false :=
      List.take_of_length_le (by rw [List.length_append, List.length_replicate]; omega)
    have hbytes : bytesOfBits 1 (p ++ List.replicate (8 - p.length) false) = [(a.val <<< (8 - p.length)).setWidth 8] := by
      rw [bytesOfBits, htake, h.last_byte hsum]
      rfl
    rw [if_pos h0, hpad, hsum, show 8 / 8 = 1 from rfl, hbytes]
    dsimp only
    rcases emit_cases cap out ((a.val <<< (8 - p.length)).setWidth 8) with ⟨hne, he⟩ | ⟨heq, he⟩ <;> rw [he]
    · rw [if_pos (by omega), except_ok_bind]
    · rw [if_neg (by omega), except_error_bind]
  · obtain rfl := List.length_eq_zero_iff.1 (Nat.eq_zero_of_not_pos h0)
    simp [padCount, bytesOfBits, hout]

/-! ### The whole payload (R175 to R178) -/

/-- The loop of R176 and its tail. -/
def packBytes (cap : Nat) (T : CodeTable) (D : List Byte) : Except ErrorCause (List Byte × BitVec 3) :=
  packLoop cap T D ⟨0, 0⟩ [] >>= fun r => packTail cap r.1 r.2

/-- R177: the loop gives the payload and the padding count of `pack`, when they fit. -/
theorem packBytes_eq_pack {cap : Nat} {T : CodeTable} {D : List Byte} (hT : ∀ b, (T.at b).legal) (hD : covers T D) :
    packBytes cap T D =
      if (pack T D).1.length ≤ cap then .ok ((pack T D).1, BitVec.ofNat 3 (pack T D).2) else .error .outFull := by
  have hloop := packLoop_flushed (cap := cap) (out := []) hT hD Acc.holds_nil (by decide) (Nat.zero_le _)
  rw [List.nil_append, Flushed, List.length_nil, Nat.zero_add] at hloop
  rw [packBytes, pack]
  dsimp only
  generalize codeStream T D = S at hloop ⊢
  rw [bytesOfBits_length]
  split at hloop
  · next hfits =>
    obtain ⟨a, hrest, hstep⟩ := hloop
    have hmod : (S.drop (8 * (S.length / 8))).length = S.length % 8 := by
      rw [List.length_drop]
      omega
    have hpad : padCount (S.length % 8) = padCount S.length := by simp only [padCount, Nat.mod_mod]
    have hdiv : (S.length + padCount S.length) / 8 = S.length / 8 + (S.length % 8 + padCount S.length) / 8 := by omega
    have hfull : 8 * (S.length / 8) ≤ S.length := Nat.mul_div_le _ _
    have hout : ([] ++ bytesOfBits (S.length / 8) S).length ≤ cap := by
      rwa [List.nil_append, bytesOfBits_length]
    rw [hstep, except_ok_bind, packTail_eq hrest (by omega) hout, hmod, hpad, List.nil_append, bytesOfBits_length, hdiv,
      bytesOfBits_add, bytesOfBits_append hfull, List.drop_append_of_le_length hfull]
  · next hfull => rw [hloop, except_error_bind, if_neg (by omega)]

/-- R178: a byte without a code is met when the bytes before it fit, whatever their codes are. -/
theorem packBytes_missingCode {cap : Nat} {T : CodeTable} {D D' : List Byte} {b : Byte} (hT : ∀ b, (T.at b).legal)
    (hD : covers T D) (hb : (T.at b).valid = false) (hroom : 2 * D.length ≤ cap) :
    packBytes cap T (D ++ b :: D') = .error .missingCode := by
  have hloop := packLoop_flushed (cap := cap) (out := []) hT hD Acc.holds_nil (by decide) (Nat.zero_le _)
  have hbits := codeStream_length_le_of_covers hT hD
  rw [List.nil_append, Flushed, List.length_nil, if_pos (by omega)] at hloop
  obtain ⟨a, _, hstep⟩ := hloop
  rw [packBytes, packLoop_append, hstep, except_ok_bind, packLoop_missingCode hb, except_error_bind]

/-! ### HPACK (R176) -/

section Hpack

variable {s : State} (hin : s.inLen.toNat ≤ s.ibufBytes)
include hin

theorem exec_hpack_of_ok {out : List Byte} {pad : BitVec 3} (h : packBytes s.obufBytes s.ct s.input = .ok (out, pad)) :
    exec .hpack s = .next { s.setOutput out with acc := ⟨0, 0⟩, pad := pad }.complete := by
  obtain ⟨⟨a, o⟩, hloop, htail⟩ := except_bind_ok h
  dsimp only at htail
  rw [exec, execHpack, requireInput_of_le hin, except_ok_bind, hloop, except_ok_bind]
  dsimp only
  rw [htail]
  rfl

theorem exec_hpack_of_error {e : ErrorCause} (h : packBytes s.obufBytes s.ct s.input = .error e) :
    exec .hpack s = .next (s.fail (listedWrites .hpack) e) := by
  rw [exec, execHpack, requireInput_of_le hin, except_ok_bind]
  rcases except_bind_error h with hloop | ⟨⟨a, o⟩, hloop, htail⟩
  · rw [hloop, except_error_bind]
    rfl
  · dsimp only at htail
    rw [hloop, except_ok_bind]
    dsimp only
    rw [htail]
    rfl

end Hpack

/-- Settles O33: the loop and its tail give what `pack` gives (`packBytes_eq_pack`). -/
theorem hpackAgreesWithPack : Obligations.HpackAgreesWithPack := by
  intro s hin hT
  refine ⟨fun hD hfits => ?_, fun hD hfull => ?_, fun D D' b hinput hD hb hroom => ?_⟩
  · have hpack := packBytes_eq_pack (cap := s.obufBytes) hT hD
    rw [if_pos hfits] at hpack
    have hlt := hfits.trans_lt s.cfg.obufBytes.isLt
    exact ⟨_, exec_hpack_of_ok hin hpack, ⟨rfl, rfl⟩, s.output_setOutput hlt, s.outLen_setOutput hlt,
      Nat.mod_eq_of_lt (padCount_fills _).1⟩
  · have hpack := packBytes_eq_pack (cap := s.obufBytes) hT hD
    rw [if_neg (not_le.2 hfull)] at hpack
    exact ⟨_, exec_hpack_of_error hin hpack, s.failedWith_fail _ _⟩
  · have hpack : packBytes s.obufBytes s.ct s.input = .error .missingCode := hinput ▸ packBytes_missingCode hT hD hb hroom
    exact ⟨_, exec_hpack_of_error hin hpack, s.failedWith_fail _ _⟩

end Sys2Proof.Machine
end

section
/-! PROOFS. The match finder (R211 to R213): a run is as long as the bytes it shares with the data at the position, and the scan of
the window keeps the first of the longest runs. -/

namespace Sys2Proof.Machine

/-! ### Runs (R211) -/

theorem le_commonPrefix_iff {A B : List Byte} {m : Nat} :
    m ≤ commonPrefix A B ↔ m ≤ A.length ∧ m ≤ B.length ∧ ∀ k < m, byteAt A k = byteAt B k := by
  induction A generalizing B m with
  | nil => cases m <;> simp [commonPrefix]
  | cons a A ih =>
    cases B with
    | nil => cases m <;> simp [commonPrefix]
    | cons b B =>
      cases m with
      | zero => simp
      | succ m =>
        have hbytes : (∀ k < m + 1, byteAt (a :: A) k = byteAt (b :: B) k) ↔ a = b ∧ ∀ k < m, byteAt A k = byteAt B k := by
          simp only [Nat.forall_lt_succ_left, byteAt_cons_zero, byteAt_cons_succ]
        rw [hbytes, commonPrefix, List.length_cons, List.length_cons, Nat.succ_le_succ_iff, Nat.succ_le_succ_iff]
        by_cases hab : a = b
        · rw [if_pos hab, Nat.succ_le_succ_iff, ih]
          simp [hab]
        · simp [hab]

theorem byteAt_drop (D : List Byte) (a k : Nat) : byteAt (D.drop a) k = byteAt D (a + k) := by
  simp [byteAt]

/-- A run of `m` bytes from a position `j` at or before `i` ends inside the data and equals the data at `i`, byte by byte. -/
theorem le_runLength_iff {D : List Byte} {j i m : Nat} (hji : j ≤ i) (hi : i ≤ D.length) :
    m ≤ runLength D j i ↔ i + m ≤ D.length ∧ ∀ k < m, byteAt D (j + k) = byteAt D (i + k) := by
  simp only [runLength, le_commonPrefix_iff, byteAt_drop, List.length_drop]
  constructor
  · rintro ⟨_, hm, hk⟩
    exact ⟨by omega, hk⟩
  · rintro ⟨hm, hk⟩
    exact ⟨by omega, by omega, hk⟩

/-! ### The scan of the window (R212, R213) -/

/-- What a scan of the positions from `lo` below `hi` has kept: no run is longer, and either nothing was kept or the first of the
longest runs. -/
structure KeepsFirstLongest (D : List Byte) (i lo hi : Nat) (best : Nat × Nat) : Prop where
  longest : ∀ j, lo ≤ j → j < hi → runLength D j i ≤ best.2
  kept : best = (0, 0) ∨ ∃ j, lo ≤ j ∧ j < hi ∧ best = (i - j, runLength D j i) ∧ runLength D j i ≠ 0 ∧
    ∀ k, lo ≤ k → k < j → runLength D k i < runLength D j i

/-- One more position: a longer run becomes the kept one, and is then the first of its length. -/
theorem KeepsFirstLongest.keepLonger {D : List Byte} {i lo hi : Nat} {best : Nat × Nat}
    (h : KeepsFirstLongest D i lo hi best) (hlo : lo ≤ hi) :
    KeepsFirstLongest D i lo (hi + 1) (keepLonger D i best hi) := by
  obtain ⟨hlongest, hkept⟩ := h
  rw [Machine.keepLonger]
  split
  next hlt =>
    have hbelow : ∀ j, lo ≤ j → j < hi → runLength D j i < runLength D hi i := fun j h1 h2 => (hlongest j h1 h2).trans_lt hlt
    refine ⟨fun j h1 h2 => ?_, .inr ⟨hi, hlo, Nat.lt_succ_self hi, rfl, Nat.ne_zero_of_lt hlt, hbelow⟩⟩
    rcases Nat.lt_succ_iff_lt_or_eq.1 h2 with h2 | rfl
    · exact (hbelow j h1 h2).le
    · exact le_rfl
  next hge =>
    refine ⟨fun j h1 h2 => ?_, hkept.imp_right ?_⟩
    · rcases Nat.lt_succ_iff_lt_or_eq.1 h2 with h2 | rfl
      · exact hlongest j h1 h2
      · exact not_lt.1 hge
    · rintro ⟨j, h1, h2, hj⟩
      exact ⟨j, h1, h2.trans (Nat.lt_succ_self hi), hj⟩

theorem scan_keepsFirstLongest (D : List Byte) (i lo n : Nat) :
    KeepsFirstLongest D i lo (lo + n) ((List.range' lo n).foldl (keepLonger D i) (0, 0)) := by
  induction n with
  | zero => exact ⟨fun j h1 h2 => absurd h2 (not_lt.2 h1), .inl rfl⟩
  | succ n ih =>
    rw [List.range'_1_concat, List.foldl_concat]
    exact ih.keepLonger (Nat.le_add_right lo n)

/-- `lz_find` scans the window. -/
theorem lzFind_keepsFirstLongest (D : List Byte) (i w : Nat) : KeepsFirstLongest D i (i - w) i (lzFind D i w) := by
  have h := scan_keepsFirstLongest D i (i - w) (i - (i - w))
  rwa [Nat.add_sub_cancel' (Nat.sub_le i w)] at h

/-- Settles O41: the scan keeps the first of the longest runs, and a run is as long as `le_runLength_iff` says. -/
theorem lzFindIsLongestAndFirst : Obligations.LzFindIsLongestAndFirst := by
  intro D i w off len hi hfind
  obtain ⟨hlongest, hkept⟩ := lzFind_keepsFirstLongest D i w
  rw [hfind] at hlongest hkept
  dsimp only at hlongest
  refine ⟨?_, fun hlen => ?_⟩
  · rintro rfl
    refine ⟨?_, fun j hj hw hbyte => ?_⟩
    · rcases hkept with h | ⟨j, _, _, h, hne, _⟩
      · exact (Prod.ext_iff.1 h).1
      · exact absurd (Prod.ext_iff.1 h).2.symm hne
    · have hone : 1 ≤ runLength D j i := (le_runLength_iff hj.le hi.le).2 ⟨hi, fun k hk => by
        rwa [Nat.lt_one_iff.1 hk]⟩
      have hnone := hlongest j (by omega) hj
      omega
  · obtain h | ⟨p, hlo, hp, h, _, hfirst⟩ := hkept
    · exact absurd (Prod.ext_iff.1 h).2 hlen
    obtain ⟨rfl, rfl⟩ := Prod.ext_iff.1 h
    dsimp only at hlongest ⊢
    obtain ⟨hend, hbytes⟩ := (le_runLength_iff hp.le hi.le).1 le_rfl
    have hpos : i - (i - p) = p := Nat.sub_sub_self hp.le
    rw [hpos]
    refine ⟨by omega, by omega, by omega, hend, hbytes, fun j hj hw ⟨hin, hlonger⟩ => ?_, fun j hj hw hrun => ?_⟩
    · have hgt := (le_runLength_iff hj.le hi.le).2 ⟨hin, fun k hk => hlonger k (Nat.lt_succ_iff.1 hk)⟩
      exact absurd (hlongest j (by omega) hj) (not_le.2 hgt)
    · have hge := (le_runLength_iff (hj.trans hp).le hi.le).2 ⟨hend, hrun⟩
      exact absurd (hfirst j (by omega) hj) (not_lt.2 hge)

end Sys2Proof.Machine
end

section
/-! PROOFS. The tokens of an input (R215, R216): each token gives back the bytes it stands for, so that the tokens of an input,
replayed from the empty output, give the input. -/

namespace Sys2Proof.Machine

/-! ### One turn of the finder (R215) -/

/-- A match that is found starts at most `i` bytes back, ends inside the data, and equals the data at `i` byte by byte. -/
theorem lzFind_match {D : List Byte} {i w : Nat} (hi : i < D.length) (hlen : 1 ≤ (lzFind D i w).2) :
    1 ≤ (lzFind D i w).1 ∧ (lzFind D i w).1 ≤ i ∧ i + (lzFind D i w).2 ≤ D.length ∧
      ∀ m < (lzFind D i w).2, byteAt D (i - (lzFind D i w).1 + m) = byteAt D (i + m) := by
  obtain ⟨_, hmatch⟩ := lzFindIsLongestAndFirst D i w _ _ hi rfl
  obtain ⟨h1, hle, _, hend, hbytes, _⟩ := hmatch (Nat.one_le_iff_ne_zero.1 hlen)
  exact ⟨h1, hle, hend, hbytes⟩

/-- Both entries are numbers the token registers can hold. -/
theorem lzFind_toNat {D : List Byte} {w i : Nat} (hD : D.length < 2 ^ 32) (hi : i < D.length) (h1 : 1 ≤ (lzFind D i w).2) :
    (BitVec.ofNat 32 (lzFind D i w).1).toNat = (lzFind D i w).1 ∧
      (BitVec.ofNat 32 (lzFind D i w).2).toNat = (lzFind D i w).2 := by
  obtain ⟨_, hoff, hend, _⟩ := lzFind_match hi h1
  exact ⟨Nat.mod_eq_of_lt (by omega), Nat.mod_eq_of_lt (by omega)⟩

theorem ne_zero_of_one_le_toNat {x : Word} (h : 1 ≤ x.toNat) : x ≠ 0 := by
  rintro rfl
  exact absurd h (by decide)

section LzStep

variable {D : List Byte} {w i : Nat}

theorem lzStep_inside (h1 : 1 ≤ (lzFind D i w).2) (h2 : i + (lzFind D i w).2 < D.length) : lzStep D w i =
    (⟨BitVec.ofNat 32 (lzFind D i w).1, BitVec.ofNat 32 (lzFind D i w).2, byteAt D (i + (lzFind D i w).2), true⟩,
      i + (lzFind D i w).2 + 1) := by
  rw [lzStep]
  exact if_pos ⟨h1, h2⟩

theorem lzStep_atEnd (h1 : 1 ≤ (lzFind D i w).2) (h2 : i + (lzFind D i w).2 = D.length) : lzStep D w i =
    (⟨BitVec.ofNat 32 (lzFind D i w).1, BitVec.ofNat 32 (lzFind D i w).2, 0, false⟩, D.length) := by
  rw [lzStep]
  exact (if_neg fun h => absurd h.2 (by omega)).trans ((if_pos h1).trans (by rw [h2]))

theorem lzStep_literal (h : (lzFind D i w).2 = 0) : lzStep D w i = (⟨0, 0, byteAt D i, true⟩, i + 1) := by
  rw [lzStep]
  exact (if_neg fun h1 => absurd h1.1 (by omega)).trans (if_neg (by omega))

end LzStep

/-! ### A token gives back its bytes (R218, R230) -/

theorem take_append_byteAt {D : List Byte} {i : Nat} (hi : i < D.length) : D.take i ++ [byteAt D i] = D.take (i + 1) := by
  rw [List.take_add_one, List.getElem?_eq_getElem hi]
  simp [byteAt, hi]

/-- A copy from bytes that equal the data at `i` continues the data. -/
theorem copied_take {D : List Byte} {off len i : Nat} (h1 : 1 ≤ off) (hoff : off ≤ i) (hend : i + len ≤ D.length)
    (hbytes : ∀ m < len, byteAt D (i - off + m) = byteAt D (i + m)) : copied off len (D.take i) = D.take (i + len) := by
  induction len generalizing i with
  | zero => rfl
  | succ len ih =>
    have htake : (D.take i).length = i := List.length_take_of_le (by omega)
    have hfirst : byteAt (D.take i) (i - off) = byteAt D i := by
      rw [← byteAt_of_prefix (List.take_prefix i D) (by omega)]
      exact hbytes 0 (Nat.succ_pos len)
    rw [copied, htake, hfirst, take_append_byteAt (by omega), ih (hoff.trans (Nat.le_succ i)) (by omega) fun m hm => ?_]
    · rw [Nat.succ_add, Nat.add_succ]
    · have hnext := hbytes (m + 1) (by omega)
      rwa [show i - off + (m + 1) = i + 1 - off + m by omega, show i + (m + 1) = i + 1 + m by omega] at hnext

/-- What one turn at position `i` gives: a token that is valid on the `i` bytes before it and gives the bytes up to the new
position. -/
structure StepGives (D : List Byte) (i : Nat) (r : Token × Nat) : Prop where
  valid : r.1.validAt i
  extend : Token.extend (D.take i) r.1 = D.take r.2
  advances : i < r.2
  within : r.2 ≤ D.length
  literal : r.1.litv = false → r.1.lit = 0

/-- The token of a match, with the byte after it as literal or with none, gives the match's bytes and the literal. -/
theorem stepGives_match {D : List Byte} {w i : Nat} (hD : D.length < 2 ^ 32) (hi : i < D.length)
    (h1 : 1 ≤ (lzFind D i w).2) {lit : Byte} {litv : Bool} (hlit : litv = false → lit = 0)
    (hafter : litv = true → i + (lzFind D i w).2 < D.length ∧ lit = byteAt D (i + (lzFind D i w).2)) :
    StepGives D i (⟨BitVec.ofNat 32 (lzFind D i w).1, BitVec.ofNat 32 (lzFind D i w).2, lit, litv⟩,
      i + (lzFind D i w).2 + litv.toNat) := by
  obtain ⟨hone, hoff, hend, hbytes⟩ := lzFind_match hi h1
  obtain ⟨hoffNat, hlenNat⟩ := lzFind_toNat hD hi h1
  refine ⟨⟨?_, hoffNat.trans_le hoff⟩, ?_, by dsimp only; omega, ?_, hlit⟩
  · exact iff_of_false (ne_zero_of_one_le_toNat (hone.trans_eq hoffNat.symm))
      (ne_zero_of_one_le_toNat (h1.trans_eq hlenNat.symm))
  · rw [Token.extend, hoffNat, hlenNat, copied_take hone hoff hend hbytes]
    cases hl : litv with
    | false => exact List.append_nil _
    | true =>
      obtain ⟨hlt, rfl⟩ := hafter hl
      exact take_append_byteAt hlt
  · cases hl : litv with
    | false => exact hend
    | true => exact (hafter hl).1

theorem stepGives_lzStep {D : List Byte} {w i : Nat} (hD : D.length < 2 ^ 32) (hi : i < D.length) :
    StepGives D i (lzStep D w i) := by
  rcases Nat.eq_zero_or_pos (lzFind D i w).2 with h0 | h1
  · rw [lzStep_literal h0]
    exact ⟨⟨Iff.rfl, Nat.zero_le i⟩, take_append_byteAt hi, Nat.lt_succ_self i, hi, nofun⟩
  · rcases (lzFind_match hi h1).2.2.1.lt_or_eq with hin | hend
    · rw [lzStep_inside h1 hin]
      exact stepGives_match hD hi h1 nofun fun _ => ⟨hin, rfl⟩
    · rw [lzStep_atEnd h1 hend]
      have h := stepGives_match (litv := false) hD hi h1 (fun _ => rfl) nofun
      rwa [Bool.toNat_false, Nat.add_zero, hend] at h

/-! ### All tokens of an input (R216) -/

theorem lzTokensFrom_of_le {D : List Byte} {w fuel i : Nat} (h : D.length ≤ i) : lzTokensFrom D w fuel i = [] := by
  cases fuel with
  | zero => rfl
  | succ fuel => exact if_pos h

theorem lzTokensFrom_of_lt {D : List Byte} {w fuel i : Nat} (h : i < D.length) :
    lzTokensFrom D w (fuel + 1) i = (lzStep D w i).1 :: lzTokensFrom D w fuel (lzStep D w i).2 := if_neg (not_le.2 h)

theorem validTokens_nil (n : Nat) : ValidTokens n [] := fun pre t post h => by simp at h

theorem ValidTokens.cons {n : Nat} {t : Token} {ts : List Token} (ht : t.validAt n)
    (hts : ValidTokens (n + t.length.toNat + t.litv.toNat) ts) : ValidTokens n (t :: ts) := by
  intro pre u post h
  cases pre with
  | nil =>
    cases h
    exact ht
  | cons v pre =>
    cases h
    rw [producedLength_cons, ← Nat.add_assoc, ← Nat.add_assoc]
    exact hts pre u post rfl

/-- What the tokens `ts` from position `i` on give: each is valid where it stands, and together they give the rest of the data. -/
structure TokensGive (D : List Byte) (i : Nat) (ts : List Token) : Prop where
  valid : ValidTokens i ts
  replay : replayed (D.take i) ts = D
  literal : ∀ t ∈ ts, t.litv = false → t.lit = 0

theorem TokensGive.cons {D : List Byte} {i : Nat} {r : Token × Nat} {ts : List Token} (h : StepGives D i r)
    (hts : TokensGive D r.2 ts) : TokensGive D i (r.1 :: ts) := by
  have hlen : i + r.1.length.toNat + r.1.litv.toNat = r.2 := by
    have hext := congrArg List.length h.extend
    have hpos := h.advances.le.trans h.within
    rwa [Token.extend_length, List.length_take_of_le hpos, List.length_take_of_le h.within] at hext
  refine ⟨.cons h.valid (hlen.symm ▸ hts.valid), ?_, fun t ht => ?_⟩
  · rw [replayed, List.foldl_cons, h.extend]
    exact hts.replay
  · rcases List.mem_cons.1 ht with rfl | ht
    · exact h.literal
    · exact hts.literal t ht

theorem tokensGive_lzTokensFrom {D : List Byte} {w fuel i : Nat} (hD : D.length < 2 ^ 32) (hfuel : D.length ≤ i + fuel) :
    TokensGive D i (lzTokensFrom D w fuel i) := by
  induction fuel generalizing i with
  | zero => exact ⟨validTokens_nil i, List.take_of_length_le hfuel, nofun⟩
  | succ fuel ih =>
    rcases Nat.lt_or_ge i D.length with hi | hi
    · rw [lzTokensFrom_of_lt hi]
      have hstep := stepGives_lzStep (w := w) hD hi
      have hadv := hstep.advances
      exact .cons hstep (ih (by omega))
    · rw [lzTokensFrom_of_le hi]
      exact ⟨validTokens_nil i, List.take_of_length_le hi, nofun⟩

/-- R230 for the functions of the spec: the tokens of `D` replay to `D`, whatever the window. -/
theorem tokensGive_lzTokens {D : List Byte} (w : Nat) (hD : D.length < 2 ^ 32) : TokensGive D 0 (lzTokens D w) :=
  tokensGive_lzTokensFrom hD (by omega)

/-! ### The commands (R225, R228) -/

/-- The state of an LZCOMP that completes. -/
def State.lzcompResult (s : State) : State :=
  { (s.setToken (lastToken s.token (lzTokens s.input s.windowSize.toNat))).setOutput
      ((lzTokens s.input s.windowSize.toNat).flatMap Token.ser) with lzPos := s.inLen }.complete

theorem flatMap_ser_length (ts : List Token) : (ts.flatMap Token.ser).length = 10 * ts.length := by
  simp [List.length_flatMap, Nat.mul_comm]

section Lzcomp

variable {s : State} (hin : s.inLen.toNat ≤ s.ibufBytes)
include hin

theorem exec_lzcomp_of_room (h : 10 * (lzTokens s.input s.windowSize.toNat).length ≤ s.obufBytes) :
    exec .lzcomp s = .next s.lzcompResult := by
  rw [exec, execLzcomp, requireInput_of_le hin, except_ok_bind]
  dsimp only
  rw [emitAll_eq _ _ _ (Nat.zero_le _), List.length_nil, flatMap_ser_length, Nat.zero_add, if_pos h]
  rfl

theorem exec_lzcomp_of_noRoom (h : s.obufBytes < 10 * (lzTokens s.input s.windowSize.toNat).length) :
    exec .lzcomp s = .next (s.fail (listedWrites .lzcomp) .outFull) := by
  rw [exec, execLzcomp, requireInput_of_le hin, except_ok_bind]
  dsimp only
  rw [emitAll_eq _ _ _ (Nat.zero_le _), List.length_nil, flatMap_ser_length, Nat.zero_add, if_neg (not_le.2 h)]
  rfl

end Lzcomp

theorem exec_lzcomp_of_lt {s : State} (h : s.ibufBytes < s.inLen.toNat) :
    exec .lzcomp s = .next (s.fail (listedWrites .lzcomp) .paramInLen) := by
  rw [exec, execLzcomp, requireInput_of_lt h]
  rfl

theorem State.lzcompResult_outLen {s : State} (h : 10 * (lzTokens s.input s.windowSize.toNat).length ≤ s.obufBytes) :
    s.lzcompResult.outLen.toNat = 10 * (lzTokens s.input s.windowSize.toNat).length := by
  rw [← flatMap_ser_length] at h ⊢
  exact State.outLen_setOutput_of_fits _ h

theorem State.lzcompResult_output {s : State} (h : 10 * (lzTokens s.input s.windowSize.toNat).length ≤ s.obufBytes) :
    s.lzcompResult.output = (lzTokens s.input s.windowSize.toNat).flatMap Token.ser := by
  rw [← flatMap_ser_length] at h
  exact State.output_setOutput _ (h.trans_lt s.cfg.obufBytes.isLt)

/-- Everything LZCOMP does when it completes. -/
theorem lzcomp_completed {s t : State} (h : exec .lzcomp s = .next t) (hdone : t.completed) :
    10 * (lzTokens s.input s.windowSize.toNat).length ≤ s.obufBytes ∧ t = s.lzcompResult := by
  have noFail : ∀ {e}, exec .lzcomp s ≠ .next (s.fail (listedWrites .lzcomp) e) := fun he => by
    cases h.symm.trans he
    cases hdone.1
  have hin : s.inLen.toNat ≤ s.ibufBytes := by
    by_contra hlt
    exact noFail (exec_lzcomp_of_lt (not_le.1 hlt))
  have hroom : 10 * (lzTokens s.input s.windowSize.toNat).length ≤ s.obufBytes := by
    by_contra hfull
    exact noFail (exec_lzcomp_of_noRoom hin (not_le.1 hfull))
  cases h.symm.trans (exec_lzcomp_of_room hin hroom)
  exact ⟨hroom, rfl⟩

/-- Settles O49: LZCOMP's records are those of tokens that replay to the input (`tokensGive_lzTokens`). -/
theorem lzRoundTrip : Obligations.LzRoundTrip := by
  intro s t u hexec hdone hlen hin hbytes hroom
  obtain ⟨hfits, rfl⟩ := lzcomp_completed hexec hdone
  obtain ⟨hvalid, hreplay, hlit⟩ :=
    tokensGive_lzTokens s.windowSize.toNat (D := s.input) (by simpa using s.inLen.isLt)
  rw [List.take_zero] at hreplay
  have hinput := (State.input_eq_output hlen hbytes).trans (State.lzcompResult_output hfits)
  have hproduced : producedLength (lzTokens s.input s.windowSize.toNat) = s.inLen.toNat := by
    simpa using congrArg List.length hreplay
  refine ⟨_, exec_lzdecomp_ser hin hinput hlit hvalid (hproduced.trans_le hroom), ⟨rfl, rfl⟩, ?_⟩
  rw [hreplay]
  exact State.output_setOutput _ (by simpa using s.inLen.isLt)

end Sys2Proof.Machine
end

section
/-! PROOFS. LZFIND and LZCOMP (R215, R216, R225): the token of one LZFIND, and LZFIND run again and again as the tokens of the whole
input. -/

namespace Sys2Proof.Machine

/-! ### LZFIND (R215) -/

/-- The state of an LZFIND that finds a token. -/
def State.lzfindResult (s : State) : State :=
  { s.setToken (lzStep s.input s.windowSize.toNat s.lzPos.toNat).1 with
    lzPos := BitVec.ofNat 32 (lzStep s.input s.windowSize.toNat s.lzPos.toNat).2 }.complete

section Lzfind

variable {s : State} (hin : s.inLen.toNat ≤ s.ibufBytes)
include hin

theorem exec_lzfind_of_le (h : s.inLen.toNat ≤ s.lzPos.toNat) :
    exec .lzfind s = .next (s.setToken Token.null).complete := by
  rw [exec, execLzfind, requireInput_of_le hin, except_ok_bind]
  dsimp only
  rw [if_pos (s.input_length.trans_le h)]
  rfl

theorem exec_lzfind_of_lt (h : s.lzPos.toNat < s.inLen.toNat) : exec .lzfind s = .next s.lzfindResult := by
  rw [exec, execLzfind, requireInput_of_le hin, except_ok_bind]
  dsimp only
  rw [if_neg (by simpa using h)]
  rfl

end Lzfind

theorem State.input_length_lt (s : State) : s.input.length < 2 ^ 32 := s.input_length.trans_lt s.inLen.isLt

/-- LZ_POS can count the new position. -/
theorem State.lzfindResult_lzPos {s : State} (h : s.lzPos.toNat < s.inLen.toNat) :
    s.lzfindResult.lzPos.toNat = (lzStep s.input s.windowSize.toNat s.lzPos.toNat).2 := by
  have hwithin := (stepGives_lzStep (w := s.windowSize.toNat) s.input_length_lt (by simpa using h)).within
  exact Nat.mod_eq_of_lt (hwithin.trans_lt s.input_length_lt)

/-- The registers after an LZFIND whose turn gives `r`. -/
theorem State.lzfindResult_of_lzStep {s : State} {r : Token × Nat} (h : s.lzPos.toNat < s.inLen.toNat)
    (hstep : lzStep s.input s.windowSize.toNat s.lzPos.toNat = r) :
    s.lzfindResult.token = r.1 ∧ s.lzfindResult.lzPos.toNat = r.2 :=
  ⟨congrArg Prod.fst hstep, (State.lzfindResult_lzPos h).trans (congrArg Prod.snd hstep)⟩

/-- Settles O42: the cases of `lzStep` are the match inside the input, the match that reaches its end, and no match. -/
theorem lzfindWritesToken : Obligations.LzfindWritesToken := by
  rintro s _ off len hin rfl hfind
  obtain ⟨rfl, rfl⟩ := Prod.ext_iff.1 hfind
  rcases Nat.lt_or_ge s.lzPos.toNat s.inLen.toNat with hlt | hge
  · have hi : s.lzPos.toNat < s.input.length := by simpa using hlt
    refine ⟨_, exec_lzfind_of_lt hin hlt, ⟨rfl, rfl⟩, fun hge => absurd hlt (not_lt.2 hge), fun _ h1 hend => ?_,
      fun _ h1 hend => ?_, fun _ h0 => ?_⟩
    · obtain ⟨htoken, hpos⟩ := State.lzfindResult_of_lzStep hlt (lzStep_inside h1 (hend.trans_eq s.input_length.symm))
      obtain ⟨hoff, hlen, hlit, hlitv⟩ := Token.mk.inj htoken
      obtain ⟨hoffNat, hlenNat⟩ := lzFind_toNat s.input_length_lt hi h1
      exact ⟨(congrArg BitVec.toNat hoff).trans hoffNat, (congrArg BitVec.toNat hlen).trans hlenNat,
        hlit.trans (s.byteAt_input hend), hlitv, hpos⟩
    · obtain ⟨htoken, hpos⟩ := State.lzfindResult_of_lzStep hlt (lzStep_atEnd h1 (hend.trans s.input_length.symm))
      obtain ⟨hoff, hlen, hlit, hlitv⟩ := Token.mk.inj htoken
      obtain ⟨hoffNat, hlenNat⟩ := lzFind_toNat s.input_length_lt hi h1
      exact ⟨(congrArg BitVec.toNat hoff).trans hoffNat, (congrArg BitVec.toNat hlen).trans hlenNat, hlit, hlitv,
        BitVec.eq_of_toNat_eq (hpos.trans s.input_length)⟩
    · rw [← s.byteAt_input hlt]
      exact State.lzfindResult_of_lzStep hlt (lzStep_literal h0)
  · have hno : ¬ s.lzPos.toNat < s.inLen.toNat := not_lt.2 hge
    exact ⟨_, exec_lzfind_of_le hin hge, ⟨rfl, rfl⟩, fun _ => ⟨rfl, rfl⟩, fun h => absurd h hno, fun h => absurd h hno,
      fun h => absurd h hno⟩

/-! ### LZFIND run until the input is used up (R216) -/

/-- From LZ_POS on, repeated LZFIND leaves the tokens of the input from there and no others. -/
theorem lzfindLeaves_iff {s : State} {fuel : Nat} {ts : List Token} (hin : s.inLen.toNat ≤ s.ibufBytes)
    (hfuel : s.inLen.toNat ≤ s.lzPos.toNat + fuel) :
    lzfindLeaves s ts ↔ ts = lzTokensFrom s.input s.windowSize.toNat fuel s.lzPos.toNat := by
  induction ts generalizing s fuel with
  | nil =>
    refine ⟨fun h => (lzTokensFrom_of_le (s.input_length.trans_le h)).symm, fun h => ?_⟩
    by_contra hlt
    rw [lzfindLeaves, not_le] at hlt
    obtain ⟨n, rfl⟩ : ∃ n, fuel = n + 1 := Nat.exists_eq_succ_of_ne_zero (by omega)
    rw [lzTokensFrom_of_lt (hlt.trans_eq s.input_length.symm)] at h
    cases h
  | cons t ts ih =>
    rw [lzfindLeaves]
    rcases Nat.lt_or_ge s.lzPos.toNat s.inLen.toNat with hlt | hge
    · obtain ⟨n, rfl⟩ : ∃ n, fuel = n + 1 := Nat.exists_eq_succ_of_ne_zero (by omega)
      have hi : s.lzPos.toNat < s.input.length := by simpa using hlt
      have hpos := State.lzfindResult_lzPos hlt
      have hadv := (stepGives_lzStep (w := s.windowSize.toNat) s.input_length_lt hi).advances
      have hrest : lzfindLeaves s.lzfindResult ts ↔
          ts = lzTokensFrom s.input s.windowSize.toNat n s.lzfindResult.lzPos.toNat :=
        ih (s := s.lzfindResult) hin (by rw [hpos]; show s.inLen.toNat ≤ _; omega)
      rw [hpos] at hrest
      rw [lzTokensFrom_of_lt hi, List.cons_eq_cons, ← hrest, exec_lzfind_of_lt hin hlt]
      constructor
      · rintro ⟨_, _, ⟨⟩, rfl, h⟩
        exact ⟨rfl, h⟩
      · rintro ⟨rfl, h⟩
        exact ⟨hlt, _, rfl, rfl, h⟩
    · rw [lzTokensFrom_of_le (s.input_length.trans_le hge)]
      exact iff_of_false (fun h => absurd h.1 (not_lt.2 hge)) (List.cons_ne_nil t ts)

/-- Run from LZ_POS 0, LZFIND leaves the tokens that LZCOMP writes. -/
theorem lzfindLeaves_zero_iff {s : State} {ts : List Token} (hin : s.inLen.toNat ≤ s.ibufBytes) :
    lzfindLeaves { s with lzPos := 0 } ts ↔ ts = lzTokens s.input s.windowSize.toNat := by
  rw [lzTokens, s.input_length]
  exact lzfindLeaves_iff (s := { s with lzPos := 0 }) hin (Nat.le_add_left _ _)

/-- Settles O45: LZFIND leaves the tokens of `lz_tokens` (`lzfindLeaves_zero_iff`), whose records LZCOMP emits. -/
theorem lzcompWritesRecords : Obligations.LzcompWritesRecords := by
  intro s hin
  refine ⟨⟨_, (lzfindLeaves_zero_iff hin).2 rfl⟩, fun ts hts => ?_⟩
  obtain rfl := (lzfindLeaves_zero_iff hin).1 hts
  exact ⟨fun hroom => ⟨_, exec_lzcomp_of_room hin hroom, ⟨rfl, rfl⟩, State.lzcompResult_output hroom,
      State.lzcompResult_outLen hroom, rfl, rfl⟩,
    fun hfull => ⟨_, exec_lzcomp_of_noRoom hin hfull, s.failedWith_fail _ _⟩⟩

end Sys2Proof.Machine
end

section
/-! PROOFS. LZREPLAY (R218 to R220) and the token record (R217): LZREPLAY does what the record of the token in the registers does,
and then completes. -/

namespace Sys2Proof.Machine

section Lzreplay

variable {s : State}

theorem exec_lzreplay_of_ok {out : List Byte} (h : lzApply s.obufBytes s.output s.token = .ok out) :
    exec .lzreplay s = .next (s.setOutput out).complete := by
  rw [exec, execLzreplay, h]
  rfl

theorem exec_lzreplay_of_error {e : ErrorCause} (h : lzApply s.obufBytes s.output s.token = .error e) :
    exec .lzreplay s = .next (s.fail Writes.none e) := by
  rw [exec, execLzreplay, h]
  rfl

/-- A token that can be applied: LZREPLAY is its record, but for the completion. -/
theorem exec_lzreplay_of_replayToken {u : State} {out : List Byte} (happly : lzApply s.obufBytes s.output s.token = .ok out)
    (h : replayToken s.token s = .next u) : exec .lzreplay s = .next u.complete := by
  cases h.symm.trans (replayToken_of_ok happly)
  exact exec_lzreplay_of_ok happly

end Lzreplay

/-- Settles O43: LZREPLAY of a token that fits writes the bytes of its record (`replayToken_bytes`). -/
theorem lzreplayCopies : Obligations.LzreplayCopies := by
  rintro s n rfl hz hoff hfit
  have hv : s.token.validAt s.outLen.toNat := ⟨hz, hoff⟩
  have happly : lzApply s.obufBytes s.output s.token = .ok (Token.extend s.output s.token) :=
    lzApply_fits (by rwa [s.output_length]) (by rwa [s.output_length])
  obtain ⟨u, hu, _, _, hlen, hpre, hmatch, hlit, _⟩ := replayToken_bytes hv hfit
  exact ⟨u.complete, exec_lzreplay_of_replayToken happly hu, ⟨rfl, rfl⟩, hlen, hpre, hmatch, hlit⟩

/-- Settles O44: the three checks of R218 in order, and the capacity of a valid token (`lzApply_valid`). -/
theorem lzreplayRejects : Obligations.LzreplayRejects := by
  intro s
  obtain ⟨t, ht⟩ := exec_next .lzreplay s
  have hfail : ∀ {e : ErrorCause}, lzApply s.obufBytes s.output s.token = .error e → t.failedWith e.reg.number :=
    fun h => failedWith_of_exec ht (exec_lzreplay_of_error h)
  obtain ⟨hnoOffset, hzero, hrange⟩ := lzApply_invalid s.obufBytes s.output s.token
  rw [s.output_length] at hrange
  refine ⟨t, ht, fun h1 h2 => hfail (hnoOffset h1 h2), fun h1 h2 => hfail (hzero h1 h2),
    fun h1 h2 h3 => hfail (hrange h1 h2 h3), fun hz hoff hle hfull => hfail (e := .outFull) ?_⟩
  have hv : s.token.validAt s.output.length := ⟨hz, hoff.trans_eq s.output_length.symm⟩
  rw [lzApply_valid (s.output_length.trans_le hle) hv, s.output_length]
  exact if_neg (not_le.2 hfull)

/-- Settles O46: the record reads back (`Token.parse_ser`), and the flags byte is checked first. -/
theorem tokenRecordRoundTrip : Obligations.TokenRecordRoundTrip :=
  ⟨fun t ht => ⟨t.ser_length, Token.parse_ser ht⟩, fun _ hflags => if_pos hflags⟩

end Sys2Proof.Machine
end

section
/-! PROOFS. LZDECOMP and its records (R217, R228; log 10): a record that decodes is a token replayed on the output so far, so that
the record instructions, while they leave BUSY, do what as many turns of LZDECOMP's loop do. -/

namespace Sys2Proof.Machine

/-! ### A record and its token (R98, R217) -/

theorem flags_clear_iff : ∀ b : Byte, b &&& 0xFE = 0 ↔ b.toNat < 2 := by decide

theorem flagsByte_of_clear : ∀ b : Byte, b.toNat < 2 → flagsByte (b == 1) = b := by decide

theorem tokenWordOf_toNat (K : List Byte) : (tokenWordOf K).toNat =
    (((readBe32 K 0).toNat * 2 ^ 32 + (readBe32 K 4).toNat) * 2 ^ 8 + (byteAt K 8).toNat) * 2 ^ 8 + (byteAt K 9).toNat := by
  rw [tokenWordOf, toNat_append_add, toNat_append_add, readBe16, toNat_append_add]
  ring

/-- A record that decodes has no reserved flag bit set. -/
theorem flags_clear_of_decodeToken {K : List Byte} {i : Instr} (h : decodeToken (tokenWordOf K) = .ok i) :
    byteAt K 8 &&& 0xFE = 0 := by
  have hfield : (tokenWordOf K).extractLsb' 9 7 = 0 := by
    by_contra hne
    rw [decodeToken, if_pos hne] at h
    cases h
  have hnum := congrArg BitVec.toNat hfield
  rw [BitVec.extractLsb'_toNat, tokenWordOf_toNat, Nat.shiftRight_eq_div_pow] at hnum
  have hzero : (0 : BitVec 7).toNat = 0 := rfl
  have hb := (byteAt K 8).isLt
  have hl := (byteAt K 9).isLt
  rw [flags_clear_iff]
  omega

/-- The record of clear flags is the record of its fields. -/
theorem tokenWordOf_eq {K : List Byte} (h : byteAt K 8 &&& 0xFE = 0) :
    tokenWordOf K = tokenWord (readBe32 K 0) (readBe32 K 4) (byteAt K 8 == 1) (byteAt K 9) := by
  apply BitVec.eq_of_toNat_eq
  rw [tokenWordOf_toNat, tokenWord_toNat, flagsByte_of_clear _ ((flags_clear_iff _).1 h)]

/-- Every kind of token record replays the token of its fields (R99, R101). -/
theorem exec_of_decodeToken {off len : Word} {litv : Bool} {lit : Byte} {i : Instr}
    (h : decodeToken (tokenWord off len litv lit) = .ok i) (s : State) :
    exec i s = replayToken ⟨off, len, literalIf litv lit, litv⟩ s := by
  rw [decodeToken_tokenWord] at h
  split at h
  next hoff =>
    subst hoff
    split at h
    next hlen =>
      subst hlen
      cases litv <;> cases h <;> rfl
    next => cases h; rfl
  next =>
    split at h
    next hlen =>
      subst hlen
      cases h
      rfl
    next => cases litv <;> cases h <;> rfl

/-- A record that decodes parses to a token, which its instruction replays. -/
theorem parse_of_decode {K : List Byte} {i : Instr} (h : decode (.record (.token (tokenWordOf K))) = .ok i) :
    ∃ t, Token.parse K = .ok t ∧ ∀ s, exec i s = replayToken t s := by
  have hflags := flags_clear_of_decodeToken h
  have hi : decodeToken (tokenWordOf K) = .ok i := h
  rw [tokenWordOf_eq hflags] at hi
  exact ⟨_, if_neg (not_not.2 hflags), exec_of_decodeToken hi⟩

/-! ### The records of a stream -/

/-- The records from index `a` of the stream on decode to the instructions, one by one. -/
def DecodesFrom (B : List Byte) : Nat → List Instr → Prop
  | _, [] => True
  | a, i :: is => decode (.record (.token (tokenWordOf ((B.drop a).take Config.tokenBytes)))) = .ok i ∧
      DecodesFrom B (a + Config.tokenBytes) is

theorem decodesFrom_append {B : List Byte} {a : Nat} {is js : List Instr} :
    DecodesFrom B a (is ++ js) ↔ DecodesFrom B a is ∧ DecodesFrom B (a + 10 * is.length) js := by
  induction is generalizing a with
  | nil => simp [DecodesFrom]
  | cons i is ih =>
    have hindex : a + Config.tokenBytes + 10 * is.length = a + 10 * (i :: is).length := by
      rw [List.length_cons, Config.tokenBytes]
      ring
    rw [List.cons_append, DecodesFrom, DecodesFrom, ih, hindex, and_assoc]

theorem decodesFrom_of_recordsOf {B : List Byte} {n a : Nat} {is : List Instr}
    (h : (recordsOf n (B.drop a)).map (fun K => decode (.record (.token (tokenWordOf K)))) = is.map Except.ok) :
    is.length = n ∧ DecodesFrom B a is := by
  induction n generalizing a is with
  | zero =>
    obtain rfl : is = [] := List.map_eq_nil_iff.1 h.symm
    exact ⟨rfl, trivial⟩
  | succ n ih =>
    cases is with
    | nil => cases h
    | cons i is =>
      rw [recordsOf, List.drop_drop, List.map_cons, List.map_cons, List.cons_eq_cons] at h
      obtain ⟨hlen, hrest⟩ := ih h.2
      exact ⟨congrArg Nat.succ hlen, h.1, hrest⟩

/-! ### The record instructions simulate the loop (R228) -/

/-- A state from which LZDECOMP, with `cap` bytes of room, goes on to its next record. -/
structure State.BetweenRecords (cap : Nat) (w : State) : Prop where
  busy : w.status = .busy
  room : w.obufBytes = cap
  fits : w.outLen.toNat ≤ cap

/-- One record: either its instruction goes on, and so does the loop with the same token and output, or both end in one error. -/
theorem replayRecords_record {cap a : Nat} {B : List Byte} {i : Instr} {w x : State} (hw : w.BetweenRecords cap)
    (hdec : decode (.record (.token (tokenWordOf ((B.drop a).take Config.tokenBytes)))) = .ok i) (hexec : exec i w = .next x) :
    (x.BetweenRecords cap ∧ ∀ n, replayRecords cap B (n + 1) a w.token w.output =
      replayRecords cap B n (a + Config.tokenBytes) x.token x.output) ∨
    (x.status = .error ∧ ∃ e, x.err = e.reg ∧ ∀ n, replayRecords cap B (n + 1) a w.token w.output = .error e) := by
  obtain ⟨hbusy, rfl, hfits⟩ := hw
  obtain ⟨t, hparse, hi⟩ := parse_of_decode hdec
  rw [hi] at hexec
  cases happly : lzApply w.obufBytes w.output t with
  | ok out =>
    cases hexec.symm.trans (replayToken_of_ok happly)
    have hle : out.length ≤ w.obufBytes := (lzApply_ok (w.output_length.trans_le hfits) happly).1
    have hout : ((w.setToken t).setOutput out).output = out :=
      State.output_setOutput _ (hle.trans_lt w.cfg.obufBytes.isLt)
    refine .inl ⟨⟨hbusy, rfl, (State.outLen_setOutput_of_fits (w.setToken t) hle).trans_le hle⟩, fun n => ?_⟩
    rw [replayRecords, hparse, except_ok_bind, happly, except_ok_bind, hout]
    rfl
  | error e =>
    cases hexec.symm.trans (replayToken_of_error happly)
    refine .inr ⟨rfl, e, rfl, fun n => ?_⟩
    rw [replayRecords, hparse, except_ok_bind, happly, except_error_bind]

/-- No instruction of `is` ends the command. -/
def StaysBusy (is : List Instr) (w : State) : Prop :=
  ∀ pre post y, is = pre ++ post → execAll pre w = .next y → y.status = .busy

theorem execAll_cons {i : Instr} {is : List Instr} {w x : State} (h : exec i w = .next x) :
    execAll (i :: is) w = execAll is x := by rw [execAll, h]

theorem staysBusy_cons {i : Instr} {is : List Instr} {w x : State} (h : StaysBusy (i :: is) w) (hexec : exec i w = .next x) :
    x.status = .busy ∧ StaysBusy is x :=
  ⟨h [i] is x rfl (execAll_cons hexec), fun pre post y his hy => h (i :: pre) post y (by rw [his, List.cons_append])
    ((execAll_cons hexec).trans hy)⟩

/-- Records that leave the command running do as many turns of the loop. -/
theorem replayRecords_of_staysBusy {cap a : Nat} {B : List Byte} {is : List Instr} {w y : State} (hw : w.BetweenRecords cap)
    (hdec : DecodesFrom B a is) (hbusy : StaysBusy is w) (hrun : execAll is w = .next y) :
    y.BetweenRecords cap ∧ ∀ n, replayRecords cap B (n + is.length) a w.token w.output =
      replayRecords cap B n (a + 10 * is.length) y.token y.output := by
  induction is generalizing a w with
  | nil =>
    cases hrun
    exact ⟨hw, fun n => rfl⟩
  | cons i is ih =>
    obtain ⟨hi, hrest⟩ := hdec
    obtain ⟨x, hx⟩ := exec_next i w
    obtain ⟨hxbusy, hstays⟩ := staysBusy_cons hbusy hx
    rcases replayRecords_record hw hi hx with ⟨hxw, hloop⟩ | ⟨hxerror, _⟩
    · obtain ⟨hy, hloops⟩ := ih hxw hrest hstays ((execAll_cons hx).symm.trans hrun)
      refine ⟨hy, fun n => ?_⟩
      rw [List.length_cons, ← Nat.add_assoc, hloop, hloops, Config.tokenBytes]
      congr 1
      ring
    · cases hxbusy.symm.trans hxerror

section Lzdecomp

variable {s : State} (hin : s.inLen.toNat ≤ s.ibufBytes)
include hin

theorem exec_lzdecomp_of_ok {n : Nat} {t : Token} {out : List Byte} (hn : s.inLen.toNat = 10 * n)
    (h : replayRecords s.obufBytes s.input n 0 s.token [] = .ok (t, out)) :
    exec .lzdecomp s = .next ((s.setToken t).setOutput out).complete := by
  rw [exec_lzdecomp_records hin (by omega), show s.inLen.toNat / 10 = n by omega, h]
  rfl

theorem exec_lzdecomp_of_error {n : Nat} {e : ErrorCause} (hn : s.inLen.toNat = 10 * n)
    (h : replayRecords s.obufBytes s.input n 0 s.token [] = .error e) :
    exec .lzdecomp s = .next (s.fail tokenWrites e) := by
  rw [exec_lzdecomp_records hin (by omega), show s.inLen.toNat / 10 = n by omega, h]
  rfl

end Lzdecomp

/-- Settles O48: the records before the end of the run are turns of the loop (`replayRecords_of_staysBusy`), and a record that fails
fails in the loop (`replayRecords_record`). -/
theorem lzdecompRunsItsRecords : Obligations.LzdecompRunsItsRecords := by
  rintro s _ v n is hin hlen hs hrecords rfl
  obtain ⟨rfl, hdec⟩ := decodesFrom_of_recordsOf (a := 0) hrecords
  have hstart : State.BetweenRecords s.obufBytes { s with obuf := [], outLen := 0 } := ⟨hs, rfl, Nat.zero_le _⟩
  refine ⟨fun hrun hbusy => ?_, fun pre i post w x his hrun hexec hx hbusy => ?_⟩
  · obtain ⟨hv, hloops⟩ := replayRecords_of_staysBusy hstart hdec hbusy hrun
    have hdone : replayRecords s.obufBytes s.input is.length 0 s.token [] = .ok (v.token, v.output) := by
      have hloop := hloops 0
      rwa [Nat.zero_add] at hloop
    refine ⟨_, exec_lzdecomp_of_ok hin hlen hdone, ⟨rfl, rfl⟩, ?_, rfl⟩
    exact State.output_setOutput _ (by simpa using v.outLen.isLt)
  · subst his
    obtain ⟨hpre, hi, _⟩ := decodesFrom_append.1 hdec
    obtain ⟨hw, hloops⟩ := replayRecords_of_staysBusy hstart hpre hbusy hrun
    rcases replayRecords_record hw hi hexec with ⟨hxw, _⟩ | ⟨_, e, he, hloop⟩
    · cases hx.symm.trans hxw.busy
    · have hfails : replayRecords s.obufBytes s.input (pre ++ i :: post).length 0 s.token [] = .error e := by
        rw [List.length_append, List.length_cons, Nat.add_comm]
        exact (hloops _).trans (hloop _)
      exact ⟨_, exec_lzdecomp_of_error hin hlen hfails, rfl, he.symm⟩

end Sys2Proof.Machine
end

section
/-! PROOFS. The engine's step and the state in which a word is the next one fetched (R250, R251; logs 1, 10 and 13). -/

namespace Sys2Proof.Machine

/-- While BUSY the engine runs what it decodes, unless the host's next move is an access (log 1). -/
theorem step_of_decode {s : State} {i : Instr} (hb : s.status = .busy) (hh : s.host = [] ∨ ∃ rest, s.host = .wait :: rest)
    (hd : decode s.fetched = .ok i) : step s = exec i s.consume := by
  have hturn : s.engineTurn = true := by
    rcases hh with hh | ⟨rest, hh⟩ <;> rw [State.engineTurn, hh]
  rw [step_engine hb hturn, engineStep, hd]

/-! ### Placing what the engine fetches (log 13) -/

@[simp] theorem State.placeFetch_status (s : State) (f : Fetched) : (s.placeFetch f).status = .busy := by
  unfold State.placeFetch
  split <;> rfl

@[simp] theorem State.placeFetch_host (s : State) (f : Fetched) : (s.placeFetch f).host = [] := by
  unfold State.placeFetch
  split <;> rfl

@[simp] theorem State.placeFetch_fetched (s : State) (f : Fetched) : (s.placeFetch f).fetched = f := by
  unfold State.placeFetch
  split <;> rfl

/-- Placing a word changes CMD, STATUS, the record and the host's queue only. -/
theorem State.placeFetch_keeps (s : State) (f : Fetched) :
    { s.placeFetch f with cmd := s.cmd, status := s.status, record := s.record, host := s.host } = s := by
  unfold State.placeFetch
  split <;> rfl

/-- A table word that decodes is one that the engine can fetch (log 12). -/
theorem fetched_of_decodeTableWord {nbits w : Nat} {i : Instr} (h : decodeTableWord nbits w = some i) :
    ∃ f, fetchedOfTable nbits w = some f ∧ decode f = .ok i := by
  unfold decodeTableWord at h
  split at h
  next f hf =>
    refine ⟨f, hf, ?_⟩
    cases hd : decode f with
    | ok j =>
      rw [hd] at h
      exact congrArg _ (Option.some.inj h)
    | error r =>
      rw [hd] at h
      cases h
  next => cases h

theorem State.withFetchWord_of_fetched {s : State} {nbits w : Nat} {f : Fetched} (h : fetchedOfTable nbits w = some f) :
    s.withFetchWord nbits w = s.placeFetch f := by
  rw [State.withFetchWord, h]

/-- Settles O5: the engine's step is `step_of_decode`, and the state that `withFetchWord` builds is `placeFetch` of the word. -/
theorem stepRunsDecodedInstruction : Obligations.StepRunsDecodedInstruction := by
  refine ⟨fun s i => step_of_decode, fun s nbits w i h => ?_⟩
  obtain ⟨f, hf, hd⟩ := fetched_of_decodeTableWord h
  rw [State.withFetchWord_of_fetched hf]
  exact ⟨step_of_decode (s.placeFetch_status f) (.inl (s.placeFetch_host f)) ((s.placeFetch_fetched f).symm ▸ hd),
    s.placeFetch_keeps f⟩

end Sys2Proof.Machine
end

section
/-! PROOFS. The control commands NOP and CLR (R254, R255). -/

namespace Sys2Proof.Machine

theorem FreqTable.at_zero (b : Byte) : FreqTable.zero.at b = 0 := by simp [FreqTable.at, FreqTable.zero]

/-- CLR makes every entry of CT invalid (R255). -/
theorem State.clear_ct_invalid (s : State) (b : Byte) : (s.clear.ct.at b).valid = false := by
  rw [State.clear_ct, CodeTable.at_empty]
  rfl

/-- Settles O20: NOP is `State.complete`, the fields of `State.clear` are its laws, and the input side is kept
(`instructionsKeepInputSide`). -/
theorem nopKeepsAndClrReinitialises : Obligations.NopKeepsAndClrReinitialises :=
  fun s => ⟨rfl, s.clear, rfl, rfl, rfl, rfl, rfl, rfl, rfl, rfl, rfl, rfl, rfl, rfl, rfl, rfl, FreqTable.at_zero,
    s.clear_ct_invalid, rfl, rfl, rfl, instructionsKeepInputSide .clr s s.clear rfl⟩

end Sys2Proof.Machine
end

section
/-! PROOFS. The check of IN_LEN (R252): a command that reads IBUF makes it first, the others do not look at IN_LEN. -/

namespace Sys2Proof.Machine

/-! ### Commands that read IBUF -/

theorem finish_of_input_too_long {s : State} {w : Writes} {f : List Byte → Except ErrorCause State}
    (h : s.ibufBytes < s.inLen.toNat) : s.finish w (s.requireInput >>= f) = .next (s.fail w .paramInLen) := by
  rw [requireInput_of_lt h]
  rfl

theorem exec_of_input_too_long {i : Instr} {s : State} (hi : readsInput i = true) (h : s.ibufBytes < s.inLen.toNat) :
    exec i s = .next (s.fail (listedWrites i) .paramInLen) := by
  cases i with
  | freq | tdes | hpack | hwalk | hcomp | hdecomp | lzfind | lzcomp | lzdecomp => exact finish_of_input_too_long h
  | _ => cases hi

/-! ### Commands that do not -/

/-- The state with another IN_LEN. -/
def State.withInLen (s : State) (n : Word) : State := { s with inLen := n }

section OtherInLen

variable {s t : State} {n : Word}

theorem finish_withInLen {w : Writes} {body body' : Except ErrorCause State} (h : s.finish w body = .next t)
    (hb : body' = (fun u => u.withInLen n) <$> body) : (s.withInLen n).finish w body' = .next (t.withInLen n) := by
  subst hb
  cases body <;> cases h <;> rfl

/-- With another IN_LEN a command that reads no IBUF does the same. -/
theorem exec_withInLen {i : Instr} (hc : isCommand i = true) (hi : readsInput i = false) (h : exec i s = .next t) :
    exec i (s.withInLen n) = .next (t.withInLen n) := by
  cases i with
  | nop | clr =>
    cases h
    rfl
  | tbuild => exact finish_withInLen h rfl
  | tser =>
    refine finish_withInLen h ?_
    rw [apply_ite (Functor.map _)]
    rfl
  | derive | lzreplay =>
    refine finish_withInLen h (Eq.trans ?_ (map_bind _ _ _).symm)
    rfl
  | freq | tdes | hpack | hwalk | hcomp | hdecomp | lzfind | lzcomp | lzdecomp => cases hi
  | _ => cases hc

end OtherInLen

/-- Settles O18: the check comes first (`exec_of_input_too_long`) and its error is an ILLEGAL_COMMAND, which keeps every
destination; a command without it does the same with any IN_LEN (`exec_withInLen`). -/
theorem inputLengthCheckedFirst : Obligations.InputLengthCheckedFirst :=
  ⟨fun _ s hi h => ⟨_, exec_of_input_too_long hi h, s.failedWith_fail _ _, s.fail_keeps_all _ rfl⟩,
    fun _ _ _ _ hc hi h => exec_withInLen hc hi h⟩

end Sys2Proof.Machine
end

section
/-! PROOFS. Which errors an instruction can end with (R253, R256, R265 to R267): the errors of each loop and parser, narrower than
their classes, then of each instruction. -/

namespace Sys2Proof.Machine

/-! ### The errors of the loops and parsers -/

/-- The checks of one table entry (R157). -/
def entryCauses : List ErrorCause := [.lenRange, .bitsPad, .dupSymbol]

/-- The checks of a serialized table (R157). -/
def tableCauses : List ErrorCause := [.hdrTrunc, .countRange, .tableTrunc, .lenRange, .bitsPad, .dupSymbol, .notPrefixFree]

/-- The checks of a block, and the room of its output (R189). -/
def blockCauses : List ErrorCause :=
  [.hdrTrunc, .padRange, .countRange, .tableTrunc, .lenRange, .bitsPad, .dupSymbol, .notPrefixFree, .countField, .padExceeds,
    .deadPath, .midPath, .outFull]

/-- The checks of a token, and the room of its output (R218). -/
def tokenCauses : List ErrorCause := [.lenNoOffset, .zeroLength, .offsetRange, .outFull]

theorem entryCauses_subset : entryCauses ⊆ tableCauses := by decide

theorem addEntry_cause {T : CodeTable} {b len : Byte} {v : BitVec 16} {e : ErrorCause} (h : addEntry T b len v = .error e) :
    e ∈ entryCauses := by
  unfold addEntry at h
  split at h
  · cases h
    decide
  · split at h
    · cases h
      decide
    · split at h <;> cases h
      decide

theorem addEntries_cause {B : List Byte} {n a : Nat} {T : CodeTable} {e : ErrorCause} (h : addEntries B n a T = .error e) :
    e ∈ entryCauses := by
  induction n generalizing a T with
  | zero => cases h
  | succ n ih =>
    rcases except_bind_error h with h | ⟨_, _, h⟩
    · exact addEntry_cause h
    · exact ih h

theorem headerError_cause {p : Byte} {n : BitVec 16} {e : ErrorCause} (h : headerError p n = some e) :
    e ∈ [ErrorCause.padRange, .countRange] := by
  unfold headerError at h
  split at h
  · cases h
    decide
  · split at h <;> cases h
    decide

theorem parseTable_cause {B : List Byte} {p : Nat} {e : ErrorCause} (h : parseTable B p = .error e) : e ∈ tableCauses := by
  unfold parseTable at h
  split at h
  · cases h
    decide
  · dsimp only at h
    split at h
    · cases h
      decide
    · split at h
      · cases h
        decide
      · rcases except_bind_error h with h | ⟨_, _, h⟩
        · exact entryCauses_subset (addEntries_cause h)
        · split at h <;> cases h
          decide

theorem walk_cause {cap : Nat} {T : CodeTable} {S path : Bits} {out : List Byte} {e : ErrorCause}
    (h : walk cap T S path out = .error e) : e ∈ [ErrorCause.deadPath, .midPath, .outFull] := by
  induction S generalizing path out with
  | nil =>
    unfold walk at h
    split at h <;> cases h
    decide
  | cons b S ih =>
    unfold walk at h
    split at h
    · rcases except_bind_error h with h | ⟨_, _, h⟩
      · obtain rfl := emit_error h
        decide
      · exact ih h
    · split at h
      · exact ih h
      · cases h
        decide

theorem walkLoop_cause {cap : Nat} {T : CodeTable} {S : Bits} {w : Walk} {out : List Byte} {e : ErrorCause}
    (h : walkLoop cap T S w out = .error e) : e ∈ [ErrorCause.deadPath, .outFull] := by
  induction S generalizing w out with
  | nil => cases h
  | cons b S ih =>
    unfold walkLoop at h
    dsimp only at h
    split at h
    · rcases except_bind_error h with h | ⟨_, _, h⟩
      · obtain rfl := emit_error h
        decide
      · exact ih h
    · split at h
      · exact ih h
      · cases h
        decide

theorem unblockOutput_cause {cap draw n : Nat} {B : List Byte} {T : CodeTable} {e : ErrorCause}
    (h : unblockOutput cap draw B T n = .error e) : e ∈ [ErrorCause.countField, .padExceeds, .deadPath, .midPath, .outFull] := by
  unfold unblockOutput at h
  split at h
  · cases h
  · split at h
    · split at h
      · cases h
        decide
      · obtain rfl := repeatSymbol_error h
        decide
    · split at h
      · cases h
        decide
      · exact List.mem_cons_of_mem _ (List.mem_cons_of_mem _ (walk_cause h))

theorem huffUnblock_cause {cap draw : Nat} {B : List Byte} {e : ErrorCause} (h : huffUnblock cap draw B = .error e) :
    e ∈ blockCauses := by
  have htable : tableCauses ⊆ blockCauses := by decide
  have houtput : [ErrorCause.countField, .padExceeds, .deadPath, .midPath, .outFull] ⊆ blockCauses := by decide
  rcases Nat.lt_or_ge B.length 3 with h3 | h3
  · cases (huffUnblock_hdrTrunc h3).symm.trans h
    decide
  rcases Nat.lt_or_ge 7 (byteAt B 0).toNat with hpad | hpad
  · cases (huffUnblock_padRange h3 hpad).symm.trans h
    decide
  cases hparse : parseTable B 1 with
  | error e' =>
    cases (huffUnblock_of_table_error h3 hpad hparse).symm.trans h
    exact htable (parseTable_cause hparse)
  | ok r =>
    rw [huffUnblock_of_table h3 hpad hparse] at h
    rcases except_bind_error h with h | ⟨_, _, h⟩
    · exact houtput (unblockOutput_cause h)
    · cases h

theorem lzApply_cause {cap : Nat} {out : List Byte} {t : Token} {e : ErrorCause} (h : lzApply cap out t = .error e) :
    e ∈ tokenCauses := by
  have hclass : e.code = 2 → e ∈ tokenCauses := by cases e <;> decide
  rcases lzApply_error h with h | rfl
  · exact hclass h
  · decide

/-- R218: a token that has both offset and length, or neither, fails on an offset beyond the output or for want of room. -/
theorem lzApply_cause_of_iff {cap : Nat} {out : List Byte} {t : Token} {e : ErrorCause} (hz : t.offset = 0 ↔ t.length = 0)
    (h : lzApply cap out t = .error e) : (e = .offsetRange ∧ t.offset ≠ 0) ∨ e = .outFull := by
  unfold lzApply at h
  rw [if_neg fun hc => hc.2 (hz.1 hc.1), if_neg fun hc => hc.1 (hz.2 hc.2)] at h
  split at h
  next hlt =>
    cases h
    exact .inl ⟨rfl, fun h0 => by simp [h0] at hlt⟩
  next =>
    rcases except_bind_error h with h | ⟨_, _, h⟩
    · exact .inr (copyBytes_error h)
    · split at h
      · exact .inr (emit_error h)
      · cases h

theorem replayRecords_cause {cap : Nat} {B : List Byte} {n a : Nat} {t : Token} {out : List Byte} {e : ErrorCause}
    (h : replayRecords cap B n a t out = .error e) : e ∈ ErrorCause.tokenFlags :: tokenCauses := by
  induction n generalizing a t out with
  | zero => cases h
  | succ n ih =>
    rcases except_bind_error h with h | ⟨_, _, h⟩
    · obtain rfl := tokenParse_error h
      decide
    · rcases except_bind_error h with h | ⟨_, _, h⟩
      · exact List.mem_cons_of_mem _ (lzApply_cause h)
      · exact ih h

/-! ### The errors of the instructions -/

/-- What `errorsOf` numbers, as causes. -/
def causesOf : Instr → List ErrorCause
  | .nop | .clr | .tbuild => []
  | .freq | .lzfind => [.paramInLen]
  | .derive => [.nullRoot, .codeTooLong]
  | .tser => [.outFull]
  | .tdes => .paramInLen :: tableCauses
  | .hpack => [.paramInLen, .missingCode, .outFull]
  | .hwalk => [.paramInLen, .padExceeds, .outFull, .deadPath, .midPath]
  | .hcomp => [.paramInLen, .codeTooLong, .outFull]
  | .hdecomp => .paramInLen :: blockCauses
  | .lzreplay => tokenCauses
  | .lzcomp => [.paramInLen, .outFull]
  | .lzdecomp => .paramInLen :: .tokenTrunc :: .tokenFlags :: tokenCauses
  | .hblockHeader _ _ => [.padRange, .countRange]
  | .hblockEntry _ _ _ => entryCauses
  | .hblockCount _ | .tokenLit _ => [.outFull]
  | .tokenMatch _ _ _ | .tokenMatchend _ _ _ => [.offsetRange, .outFull]
  | .tokenNull _ => []
  | .tokenInvalidLenNoOffset _ _ _ => [.lenNoOffset]
  | .tokenInvalidZeroLength _ _ _ => [.zeroLength]

theorem errorsOf_eq (i : Instr) : errorsOf i = (causesOf i).map fun e => e.reg.number := by
  cases i <;> rfl

section Fails

variable {s : State} {w w' : Writes} {e : ErrorCause} {body : Except ErrorCause State}

/-- An instruction takes one error only. -/
theorem fail_cause {r : Result} {e' : ErrorCause} (h : r = .next (s.fail w e)) (h' : r = .next (s.fail w' e')) : e = e' :=
  ErrorCause.reg_injective (congrArg State.err (Host.Outcome.next.inj (h.symm.trans h')))

/-- An instruction that ends outside ERROR took no error. -/
theorem ne_fail {r : Result} {u : State} (h : r = .next u) (hu : u.status ≠ .error) : r ≠ .next (s.fail w e) := fun h' =>
  hu (congrArg State.status (Host.Outcome.next.inj (h.symm.trans h')))

/-- A command ends in the error that its body raises. -/
theorem finish_fails (h : s.finish w body = .next (s.fail w' e)) : body = .error e := by
  cases body with
  | ok u => exact absurd h (ne_fail rfl (by simp [State.settle]))
  | error e' => exact congrArg _ (fail_cause rfl h)

theorem mayRaise_of_fails {i : Instr} (hi : i ≠ .clr) (hc : isCommand i = true) (h : exec i s = .next (s.fail w e)) :
    mayRaise i e = true := by
  rcases exec_cases i s hi with ⟨u, _, hu⟩ | ⟨e', he', hu⟩
  · exact absurd h (ne_fail hu (by simp [hc]))
  · rwa [fail_cause h hu]

theorem tdes_cause (h : exec .tdes s = .next (s.fail w e)) : e ∈ causesOf .tdes := by
  rcases except_bind_error (finish_fails h) with h | ⟨B, _, h⟩
  · exact List.mem_cons.2 (.inl (requireInput_error h))
  · rcases except_bind_error h with h | ⟨_, _, h⟩
    · exact List.mem_cons_of_mem _ (parseTable_cause h)
    · cases h

theorem hwalk_cause (h : exec .hwalk s = .next (s.fail w e)) : e ∈ causesOf .hwalk := by
  rcases except_bind_error (finish_fails h) with h | ⟨P, _, h⟩
  · obtain rfl := requireInput_error h
    decide
  · split at h
    · cases h
      decide
    · rcases except_bind_error h with h | ⟨⟨w, out⟩, _, h⟩
      · have hsub : [ErrorCause.deadPath, .outFull] ⊆ causesOf .hwalk := by decide
        exact hsub (walkLoop_cause h)
      · dsimp only at h
        split at h <;> cases h
        decide

/-- R154, R186: HCOMP derives from the tree of its own input, so NULL_ROOT is none of its errors (`hcompTable_error`). -/
theorem hcomp_cause (h : exec .hcomp s = .next (s.fail w e)) : e ∈ causesOf .hcomp := by
  rcases except_bind_error (finish_fails h) with hr | ⟨D, hr, h⟩
  · obtain rfl := requireInput_error hr
    decide
  · rcases requireInput_cases s with ⟨_, hr'⟩ | ⟨_, hr'⟩ <;> cases hr.symm.trans hr'
    rcases except_bind_error h with h | ⟨t, _, h⟩
    · rcases except_bind_error h with h | ⟨_, _, h⟩
      · obtain rfl := hcompTable_error h
        decide
      · cases h
    · dsimp only at h
      split at h <;> cases h
      decide

theorem hdecomp_cause (h : exec .hdecomp s = .next (s.fail w e)) : e ∈ causesOf .hdecomp := by
  rcases except_bind_error (finish_fails h) with h | ⟨B, _, h⟩
  · exact List.mem_cons.2 (.inl (requireInput_error h))
  · rcases except_bind_error h with h | ⟨_, _, h⟩
    · exact List.mem_cons_of_mem _ (huffUnblock_cause h)
    · cases h

theorem lzdecomp_cause (h : exec .lzdecomp s = .next (s.fail w e)) : e ∈ causesOf .lzdecomp := by
  rcases except_bind_error (finish_fails h) with h | ⟨B, _, h⟩
  · obtain rfl := requireInput_error h
    decide
  · split at h
    · cases h
      decide
    · rcases except_bind_error h with h | ⟨_, _, h⟩
      · exact List.mem_cons_of_mem _ (List.mem_cons_of_mem _ (replayRecords_cause h))
      · cases h

/-- For these commands what `mayRaise` allows is already what their rules name. -/
theorem mem_causesOf_of_mayRaise : ∀ i ∈ [Instr.nop, .freq, .tbuild, .derive, .tser, .hpack, .lzfind, .lzreplay, .lzcomp],
    mayRaise i e = true → e ∈ causesOf i := by
  cases e <;> decide

/-- A command ends in no error but those that its rule names (R266). -/
theorem command_cause {i : Instr} (hc : isCommand i = true) (h : exec i s = .next (s.fail w e)) : e ∈ causesOf i := by
  cases i with
  | clr =>
    have h : s.clear = s.fail w e := Host.Outcome.next.inj h
    cases congrArg State.status h
  | nop | freq | tbuild | derive | tser | hpack | lzfind | lzreplay | lzcomp =>
    exact mem_causesOf_of_mayRaise _ (by decide) (mayRaise_of_fails (by decide) hc h)
  | tdes => exact tdes_cause h
  | hwalk => exact hwalk_cause h
  | hcomp => exact hcomp_cause h
  | hdecomp => exact hdecomp_cause h
  | lzdecomp => exact lzdecomp_cause h
  | _ => cases hc

variable (hs : s.status ≠ .error)
include hs

theorem hblockHeader_cause {p : Byte} {n : BitVec 16} (h : exec (.hblockHeader p n) s = .next (s.fail w e)) :
    e ∈ [ErrorCause.padRange, .countRange] := by
  cases he : headerError p n with
  | none => exact absurd h (ne_fail (exec_hblockHeader_of_none he) hs)
  | some e' =>
    obtain rfl := fail_cause (exec_hblockHeader_of_some he) h
    exact headerError_cause he

theorem hblockEntry_cause {b len : Byte} {v : BitVec 16} (h : exec (.hblockEntry b len v) s = .next (s.fail w e)) :
    e ∈ entryCauses := by
  cases he : addEntry s.ct b len v with
  | ok T => exact absurd h (ne_fail (exec_hblockEntry_of_ok he) hs)
  | error e' =>
    obtain rfl := fail_cause (exec_hblockEntry_of_error he) h
    exact addEntry_cause he

theorem hblockCount_cause {n : Word} (h : exec (.hblockCount n) s = .next (s.fail w e)) : e = .outFull := by
  cases he : repeatSymbol s.obufBytes (soleSymbol s.ct s.draws) n with
  | ok out => exact absurd h (ne_fail (exec_hblockCount_of_ok he) hs)
  | error e' =>
    obtain rfl := fail_cause (exec_hblockCount_of_error he) h
    exact repeatSymbol_error he

/-- A token record ends in the error of its replay. -/
theorem replayToken_cause {t : Token} (h : replayToken t s = .next (s.fail w e)) :
    lzApply s.obufBytes s.output t = .error e := by
  cases he : lzApply s.obufBytes s.output t with
  | ok out => exact absurd h (ne_fail (replayToken_of_ok he) hs)
  | error e' => rw [fail_cause (replayToken_of_error he) h]

/-- R99: a match fails on an offset beyond the output or for want of room. -/
theorem replayMatch_cause {off len : Word} {lit : Byte} {litv : Bool} (hoff : off ≠ 0) (hlen : len ≠ 0)
    (h : replayToken ⟨off, len, lit, litv⟩ s = .next (s.fail w e)) : e ∈ [ErrorCause.offsetRange, .outFull] := by
  have hz : off = 0 ↔ len = 0 := iff_of_false hoff hlen
  rcases lzApply_cause_of_iff hz (replayToken_cause hs h) with ⟨rfl, _⟩ | rfl <;> decide

/-- A record ends in no error but those of the checks that its turn makes (log 10). -/
theorem record_cause {i : Instr} (hwf : i.wf = true) (hc : isCommand i = false) (h : exec i s = .next (s.fail w e)) :
    e ∈ causesOf i := by
  cases i with
  | hblockHeader p n => exact hblockHeader_cause hs h
  | hblockEntry b len v => exact hblockEntry_cause hs h
  | hblockCount n => exact List.mem_singleton.2 (hblockCount_cause hs h)
  | tokenLit lit =>
    rcases lzApply_cause_of_iff Iff.rfl (replayToken_cause hs (t := ⟨0, 0, lit, true⟩) h) with ⟨_, h0⟩ | he
    · exact absurd rfl h0
    · exact List.mem_singleton.2 he
  | tokenMatch off len lit | tokenMatchend off len lit =>
    have hwf : off ≠ 0 ∧ len ≠ 0 := by simpa [Instr.wf] using hwf
    exact replayMatch_cause hs hwf.1 hwf.2 h
  | tokenNull x =>
    have hnull : lzApply s.obufBytes s.output ⟨0, 0, 0, false⟩ = .ok s.output := rfl
    exact absurd h (ne_fail (replayToken_of_ok hnull) hs)
  | tokenInvalidLenNoOffset len litv x =>
    have hinvalid := (lzApply_invalid s.obufBytes s.output ⟨0, len, literalIf litv x, litv⟩).1 rfl (bne_iff_ne.1 hwf)
    exact List.mem_singleton.2 (fail_cause h (replayToken_of_error hinvalid))
  | tokenInvalidZeroLength off litv x =>
    have hinvalid := (lzApply_invalid s.obufBytes s.output ⟨off, 0, literalIf litv x, litv⟩).2.1 (bne_iff_ne.1 hwf) rfl
    exact List.mem_singleton.2 (fail_cause h (replayToken_of_error hinvalid))
  | _ => cases hc

end Fails

/-! ### The statement -/

/-- An instruction that fails while a command is running, well-formed if it is a record, has one of its own causes. -/
theorem exec_cause {i : Instr} {s : State} {w : Writes} {e : ErrorCause} (hwf : i.wf = true)
    (hs : isCommand i = true ∨ s.status = .busy) (h : exec i s = .next (s.fail w e)) : e ∈ causesOf i := by
  cases hc : isCommand i with
  | true => exact command_cause hc h
  | false =>
    have hbusy : s.status = .busy := hs.resolve_left (by simp [hc])
    exact record_cause (by simp [hbusy]) hwf hc h

/-- Settles O13: an instruction but CLR completes or takes one error (`exec_cases`), and the error is among its causes
(`exec_cause`). -/
theorem everyCommandCompletes : Obligations.EveryCommandCompletes := by
  intro i s
  have hnever : ∀ i ∈ [Instr.nop, .clr, .tbuild], isCommand i = true ∧ causesOf i = [] := by decide
  have hinput : ∀ i ∈ [Instr.freq, .lzfind], isCommand i = true ∧ causesOf i = [.paramInLen] := by decide
  have hencoder : ∀ i ∈ [Instr.freq, .tbuild, .derive, .tser, .hpack, .hcomp, .lzfind, .lzcomp],
      isCommand i = true ∧ ∀ e ∈ causesOf i, e.code ≠ 1 ∧ e.code ≠ 2 := by decide
  have hclean : ErrReg.none.code ≠ 1 ∧ ErrReg.none.code ≠ 2 := by decide
  by_cases hi : i = .clr
  · subst hi
    have hidle : s.clear.status ≠ .error := by simp
    exact ⟨s.clear, rfl, fun _ => ⟨rfl, rfl⟩, fun _ h => absurd rfl h, fun _ _ h => absurd h hidle, fun _ => hidle,
      fun _ h => absurd h hidle, fun _ => hclean⟩
  rcases exec_cases i s hi with ⟨u, hu, hexec⟩ | ⟨e, _, hexec⟩
  · by_cases hc : isCommand i = true
    · rw [if_pos hc] at hexec
      have hdone : u.complete.status ≠ .error := by simp
      exact ⟨u.complete, hexec, fun h => absurd h hi, fun _ _ => .inl ⟨rfl, rfl⟩, fun _ _ h => absurd h hdone, fun _ => hdone,
        fun _ h => absurd h hdone, fun _ => hclean⟩
    · rw [if_neg hc] at hexec
      refine ⟨u, hexec, fun h => absurd h hi, fun h => absurd h hc, fun _ hs ht => ?_, fun h => absurd (hnever i h).1 hc,
        fun h => absurd (hinput i h).1 hc, fun h => absurd (hencoder i h).1 hc⟩
      cases (hs.resolve_left hc).symm.trans (hu.status.symm.trans ht)
  · refine ⟨_, hexec, fun h => absurd h hi, fun _ _ => .inr ⟨rfl, e.code_range⟩, fun hwf hs _ => ?_, fun h => ?_, fun h _ => ?_,
      fun h => ?_⟩
    · rw [errorsOf_eq]
      exact List.mem_map.2 ⟨e, exec_cause hwf hs hexec, rfl⟩
    · obtain ⟨hc, hnone⟩ := hnever i h
      have he := command_cause hc hexec
      simp [hnone] at he
    · obtain ⟨hc, hone⟩ := hinput i h
      have he := command_cause hc hexec
      rw [hone, List.mem_singleton] at he
      subst he
      exact (rfl : ErrorCause.paramInLen.reg.number = 0x0306)
    · obtain ⟨hc, hclass⟩ := hencoder i h
      exact hclass e (command_cause hc hexec)

end Sys2Proof.Machine
end

section
/-! PROOFS. A step of the host, and the way into ERROR and out of it (R270, R278, R285): which steps are the host's, the moves that
leave ERROR, and what an instruction that fails keeps. -/

namespace Sys2Proof.Machine

/-! ### The host's step (R285, log 1) -/

/-- An access that is pending goes before the engine. -/
theorem State.engineTurn_access {s : State} {m : HostMove} {rest : List HostMove} (hh : s.host = m :: rest) (hm : m ≠ .wait) :
    s.engineTurn = false := by
  cases m with
  | wait => exact absurd rfl hm
  | _ => rw [State.engineTurn, hh]

/-- Settles O6: the step is the host's (`step_host`), since the engine is not BUSY or an access is pending
(`State.engineTurn_access`). -/
theorem stepMakesTheHostsMove : Obligations.StepMakesTheHostsMove := by
  refine ⟨fun s m rest hh hm => ?_, fun s hs hh => ?_⟩
  · have hturn : ¬ (s.status = .busy ∧ s.engineTurn = true) := fun ⟨hb, ht⟩ =>
      hm.elim (· hb) fun hm => Bool.false_ne_true ((State.engineTurn_access hh hm).symm.trans ht)
    rw [step_host hturn, hostStep, hh]
  · rw [step_host fun h => hs h.1, hostStep, hh]

/-! ### Out of ERROR (R278) -/

/-- The only moves of the host that leave ERROR are the CLR word to CMD and the reset. -/
theorem hostMove_leaves_error {m : HostMove} {s t : State} (hs : s.status = .error) (h : hostMove m s = .next t)
    (ht : t.status ≠ .error) : m = .writeReg 0 clrWord ∨ m = .reset := by
  have unchanged : t.status = s.status → m = .writeReg 0 clrWord ∨ m = .reset := fun he => absurd (he.trans hs) ht
  have read : ∀ k, m ∈ [HostMove.readReg k, .readObuf k, .readFreq k, .readNode k, .readCt k, .wait] →
      m = .writeReg 0 clrWord ∨ m = .reset := fun k hk =>
    unchanged (congrArg State.status (hostMove_read hk h).1 :)
  cases m with
  | writeReg n v =>
    rcases hostWriteReg_cases h with rfl | ⟨_, rfl, _, hv⟩ | ⟨_, _, hidle⟩
    · exact unchanged rfl
    · exact .inl (by rw [hv hs])
    · simp [hs] at hidle
  | writeIbuf a b =>
    obtain ⟨_, rfl | ⟨_, rfl⟩⟩ := hostWriteIbuf_cases h <;> exact unchanged rfl
  | reset => exact .inr rfl
  | readReg k | readObuf k | readFreq k | readNode k | readCt k => exact read k (by simp)
  | wait => exact read 0 (by simp)

/-- Settles O14: in ERROR the engine does not run (`step_cases`), and a move of the host that leaves ERROR is the CLR word or the
reset (`hostMove_leaves_error`). -/
theorem onlyClrOrResetLeavesError : Obligations.OnlyClrOrResetLeavesError := by
  intro s t hs h ht
  have hidle : s.status ≠ .busy := by simp [hs]
  rcases step_cases s with ⟨_, hb, _⟩ | ⟨_, hb, _⟩ | ⟨m, rest, hh, _, he⟩ | ⟨_, _, he⟩
  · exact absurd hb hidle
  · exact absurd hb hidle
  · rcases hostMove_leaves_error (s := { s with host := rest }) hs (he.symm.trans h) ht with rfl | rfl
    · exact .inl ⟨rest, hh⟩
    · exact .inr ⟨rest, hh⟩
  · cases he.symm.trans h
    exact absurd hs ht

/-! ### The frame of an instruction that fails (R270) -/

/-- An instruction run while BUSY that ends in ERROR took one error. -/
theorem exec_fails {i : Instr} {s t : State} (hs : s.status = .busy) (h : exec i s = .next t) (ht : t.status = .error) :
    ∃ e, t = s.fail (listedWrites i) e := by
  have hi : i ≠ .clr := by
    rintro rfl
    cases h
    cases ht
  rcases exec_cases i s hi with ⟨u, hu, he⟩ | ⟨e, _, he⟩ <;> cases h.symm.trans he
  · cases hc : isCommand i <;> simp [hc, hu.status, hs] at ht
  · exact ⟨e, rfl⟩

/-- Settles O17: the state is that of `State.fail` (`exec_fails`), which keeps what the rule does not list (`State.fail_keeps`), and
with ILLEGAL_COMMAND what it lists (`State.fail_keeps_all`). -/
theorem failedInstructionFrame : Obligations.FailedInstructionFrame := by
  intro i s t hs h ht
  obtain ⟨e, rfl⟩ := exec_fails hs h ht
  exact ⟨rfl, rfl, rfl, rfl, s.fail_keeps _ e, fun hcode => s.fail_keeps_all _ hcode⟩

end Sys2Proof.Machine
end
